-- ==== Sys2Proof/Word.lean ====
section
/-! DEFINITION. The word types of the APT frame parser (AFP) and its fixed parameters (spec/00_scope.md R5, R7). -/

namespace Sys2Proof

/-- A byte, bits 7 (most significant) down to 0 (R7). -/
abbrev Byte := BitVec 8

/-- A 16-bit message id: the protocol's opcode space (R84). -/
abbrev MsgId := BitVec 16

/-- A 7-bit destination address, the long-form flag removed (R64, R81). -/
abbrev Dest := BitVec 7

/-- HDR_SIZE: the 6-byte header shared by every frame (R5). -/
abbrev hdrSize : Nat := 6

/-- MAX_PAYLOAD: the largest u16 (R5). -/
abbrev maxPayload : Nat := 65535

/-- MAX_FRAME = 6 + MAX_PAYLOAD (R5). -/
abbrev maxFrame : Nat := 65541

/-- ADC_NUM (R5). -/
abbrev adcNum : Nat := 5

/-- ADC_DEN (R5). -/
abbrev adcDen : Nat := 32768

/-- BOOL_ENUM_TRUE (R5). -/
abbrev boolEnumTrue : Nat := 1

/-- BOOL_ENUM_FALSE (R5). -/
abbrev boolEnumFalse : Nat := 2

end Sys2Proof
end

