-- ==== Sys2Proof/Machine/Bytes.lean ====
section
/-! DEFINITION. Byte sequences (spec/00_scope.md R8), the fields of a frame header (spec/30_encoding.md R81 to R83, R85)
and the unpacker's phase (spec/10_state.md R33). -/

namespace Sys2Proof.Machine

/-- `bs[i]` (R8); the spec reads it for `i < |bs|` only. -/
def byteAt (bs : List Byte) (i : Nat) : Byte := bs.getD i 0

/-- `sub(bs, a, n)`, the frame-local read MemRead (R8, R61). -/
def sub (bs : List Byte) (a n : Nat) : List Byte := (bs.drop a).take n

/-- `le16(bs, o)` (R8): the byte at the lower offset is the less significant (R65). -/
def le16 (bs : List Byte) (o : Nat) : BitVec 16 := byteAt bs (o + 1) ++ byteAt bs o

/-- `le32(bs, o)` (R8). -/
def le32 (bs : List Byte) (o : Nat) : BitVec 32 := le16 bs (o + 2) ++ le16 bs o

/-- `bytesLE(v, n)` (R8): the n low bytes of v, least significant first. -/
def bytesLE (v : Nat) : Nat → List Byte
  | 0 => []
  | n + 1 => BitVec.ofNat 8 v :: bytesLE (v / 256) n

/-- The header's msgid (R85 (1)). -/
def hdrMsgid (f : List Byte) : MsgId := le16 f 0

/-- The long-form flag L, bit 7 of header byte 4 (R81, R82). -/
def hdrIsLong (f : List Byte) : Bool := (byteAt f 4).getLsbD 7

/-- The header's dest, the long-form flag removed (R85 (4)). -/
def hdrDest (f : List Byte) : Dest := (byteAt f 4).setWidth 7

/-- The header's source (R85 (5)). -/
def hdrSource (f : List Byte) : Byte := byteAt f 5

/-- The header's payload length, a u16 (R85 (3)); meaningful in the long form. -/
def hdrLength (f : List Byte) : BitVec 16 := le16 f 2

/-- The number of bytes a header declares for its frame (R83). -/
def frameSize (f : List Byte) : Nat :=
  if hdrIsLong f then hdrSize + (hdrLength f).toNat else hdrSize

/-- The unpacker's states (R33). -/
inductive Phase where
  | awaitingHeader
  | awaitingPayload
  | frameReady
  deriving DecidableEq, Repr

/-- The phase, a function of the stream buffer alone (R33). -/
def phase (buf : List Byte) : Phase :=
  if buf.length < hdrSize then .awaitingHeader
  else if buf.length < frameSize buf then .awaitingPayload
  else .frameReady

end Sys2Proof.Machine
end

