-- ==== Sys2Proof/Syntax.lean ====
section
/-! DEFINITION. The AFP's instructions (spec/30_encoding.md R80, R90): the two wire frame formats and the 21 operations,
with their operands, and the transaction records in which they arrive. -/

namespace Sys2Proof

/-- The field types of a descriptor (R35). -/
inductive Ty where
  | u8
  | u16
  | i16
  | u32
  | i32
  | bytes (n : Nat)
  | status32
  | adc16
  | bits (w n : Nat)
  | boolEnum (w : Nat)
  deriving DecidableEq, Repr, Inhabited

/-- One field descriptor of a registry entry; `off` counts from the first header byte (R35). -/
structure Desc where
  fname : String
  off : Nat
  ty : Ty
  deriving DecidableEq, Repr, Inhabited

/-- A registry entry as REGISTER is handed it (R35). `msgid` is a mathematical integer: that it lies in [0, 65535] is one of
the conditions REGISTER checks (R36), not a fact about the operand. -/
structure Entry where
  msgid : Int
  name : String
  fields : List Desc
  deriving DecidableEq, Repr, Inhabited

/-- A value handed to PACK_FIELDS: "an integer, a byte list, a list of booleans or a boolean, as the type requires" (R120). -/
inductive PackValue where
  | int (v : Int)
  | bytes (bs : List Byte)
  | flags (fl : List Bool)
  | bool (b : Bool)
  deriving DecidableEq, Repr, Inhabited

/-- One constructor per row of spec/opcode_table.json, in the table's order. Operands that the spec calls mathematical
integers are `Int` (their range checks belong to the operation); operands it gives a width are bit vectors. -/
inductive Instr where
  /-- FRAME_SHORT (R80): a whole short-form frame, as it stands at the head of the stream buffer. -/
  | frameShort (msgid : MsgId) (param1 param2 : Byte) (dest : Dest) (source : Byte)
  /-- FRAME_LONG (R80): a whole long-form frame; its length field is the number of payload bytes. -/
  | frameLong (msgid : MsgId) (dest : Dest) (source : Byte) (payload : List Byte)
  /-- RESET (R270). -/
  | reset
  /-- REGISTER (R140). -/
  | register (e : Entry)
  /-- FEED (R190). -/
  | feed (bs : List Byte)
  /-- PULL (R191). -/
  | pull
  /-- COOP_PULL (R200). -/
  | coopPull
  /-- COOP_RESUME (R201). -/
  | coopResume
  /-- COOP_CANCEL (R202). -/
  | coopCancel
  /-- ITERATE (R204). -/
  | iterate
  /-- DISPATCH (R141). -/
  | dispatch (f : List Byte)
  /-- DEC_HDR (R100). -/
  | decHdr (h : List Byte)
  /-- ENC_HDR (R101). -/
  | encHdr (msgid dest source param1 param2 : Int)
  /-- ENC_LONG_HDR (R102). -/
  | encLongHdr (msgid dest source payloadLen : Int)
  /-- ENC_FRAME (R103). -/
  | encFrame (msgid dest source param1 param2 : Int) (payload : Option (List Byte))
  /-- PACK_FIELDS (R120). -/
  | packFields (items : List (Ty × PackValue))
  /-- PACK_BITS (R121). -/
  | packBits (w : Nat) (fl : List Bool)
  /-- PACK_FILTER (R122). -/
  | packFilter (opts : List (Option Int))
  /-- ENC_BOOL (R123). -/
  | encBool (b : Bool)
  /-- DEC_STATUS (R170). -/
  | decStatus (w : BitVec 32)
  /-- DEC_ADC (R172). -/
  | decAdc (raw : BitVec 16)
  /-- UNPACK_BITS (R173). -/
  | unpackBits (v n : Nat)
  /-- DEC_BOOL (R174). -/
  | decBool (v : Nat)
  deriving DecidableEq, Repr, Inhabited

/-- The operand record that travels with a command code (R90: "The operands travel with the command as a transaction
record; no bit layout of operands is defined"). `hdr` may leave param1 and param2 out: their default is 0 (R101). -/
inductive Operand where
  | none
  | entry (e : Entry)
  | bytes (bs : List Byte)
  | hdr (msgid dest source : Int) (param1 param2 : Option Int)
  | longHdr (msgid dest source payloadLen : Int)
  | frame (msgid dest source param1 param2 : Int) (payload : Option (List Byte))
  | items (l : List (Ty × PackValue))
  | flags (w : Nat) (fl : List Bool)
  | opts (l : List (Option Int))
  | bool (b : Bool)
  | int (v : Int)
  | intCount (v n : Int)
  deriving DecidableEq, Repr, Inhabited

/-- A command transaction: a 5-bit command code and its operand record (R90). -/
structure Command where
  code : BitVec 5
  operand : Operand
  deriving DecidableEq, Repr, Inhabited

/-- What the AFP decodes: a command transaction, or the bytes of a frame on the wire. -/
inductive Packet where
  | command (c : Command)
  | frame (bs : List Byte)
  deriving DecidableEq, Repr, Inhabited

end Sys2Proof
end

