-- ==== Sys2Proof/WellFormed.lean ====
section
/-! DEFINITION. Which instruction terms stand for an instruction the encodings admit. -/

namespace Sys2Proof

/-- A frame's payload length fits its u16 length field (R80); PACK_BITS has a field width of 1, 2 or 4 bytes (R121);
UNPACK_BITS unpacks at least one flag (R173). Every other operand is admitted as it stands: where the spec checks it, the
operation does so and answers with an error. -/
def Instr.wellFormed : Instr → Bool
  | .frameShort _ _ _ _ _ => true
  | .frameLong _ _ _ payload => decide (payload.length ≤ maxPayload)
  | .reset => true
  | .register _ => true
  | .feed _ => true
  | .pull => true
  | .coopPull => true
  | .coopResume => true
  | .coopCancel => true
  | .iterate => true
  | .dispatch _ => true
  | .decHdr _ => true
  | .encHdr _ _ _ _ _ => true
  | .encLongHdr _ _ _ _ => true
  | .encFrame _ _ _ _ _ _ => true
  | .packFields _ => true
  | .packBits w _ => w == 1 || w == 2 || w == 4
  | .packFilter _ => true
  | .encBool _ => true
  | .decStatus _ => true
  | .decAdc _ => true
  | .unpackBits _ n => decide (1 ≤ n)
  | .decBool _ => true

end Sys2Proof
end

