-- ==== Sys2Proof/Decode.lean ====
section
/-! DEFINITION. The decoder and the encoder: frames on the wire (spec/30_encoding.md R80 to R89) and command transactions
(R90). -/

namespace Sys2Proof

open Sys2Proof.Machine

/-- Why a packet is no instruction. `shortHeader` and `shortPayload`: the bytes hold no whole frame yet (R33: the unpacker
waits). `undefinedCode`: a code from 10101 to 11111 (R90). `badOperand`: the operand record is outside the command's
operand type (R231). -/
inductive DecodeError where
  | shortHeader (have_ : Nat)
  | shortPayload (have_ need : Nat)
  | undefinedCode (code : BitVec 5)
  | badOperand (code : BitVec 5)
  deriving DecidableEq, Repr

/-- The instruction of the first frame of `bs` and the bytes after it. The format is selected by the long-form flag alone
(R82), and no header is illegal (R87). -/
def decodeFrame (bs : List Byte) : Except DecodeError (Instr × List Byte) :=
  if bs.length < hdrSize then .error (.shortHeader bs.length)
  else if bs.length < frameSize bs then .error (.shortPayload bs.length (frameSize bs))
  else if hdrIsLong bs then
    .ok (.frameLong (hdrMsgid bs) (hdrDest bs) (hdrSource bs) (sub bs hdrSize (hdrLength bs).toNat), bs.drop (frameSize bs))
  else
    .ok (.frameShort (hdrMsgid bs) (byteAt bs 2) (byteAt bs 3) (hdrDest bs) (hdrSource bs), bs.drop (frameSize bs))

/-- The instruction of a command transaction (R90). A command without operands ignores the operand record it comes with;
param1 and param2 of ENC_HDR default to 0 (R101); an operand outside the command's operand type is refused (R231). -/
def decodeCommand (c : Command) : Except DecodeError Instr :=
  match c.code.toNat with
  | 0 => .ok .reset
  | 1 => match c.operand with
    | .entry e => .ok (.register e)
    | _ => .error (.badOperand c.code)
  | 2 => match c.operand with
    | .bytes bs => .ok (.feed bs)
    | _ => .error (.badOperand c.code)
  | 3 => .ok .pull
  | 4 => .ok .coopPull
  | 5 => .ok .coopResume
  | 6 => .ok .coopCancel
  | 7 => .ok .iterate
  | 8 => match c.operand with
    | .bytes f => .ok (.dispatch f)
    | _ => .error (.badOperand c.code)
  | 9 => match c.operand with
    | .bytes h => .ok (.decHdr h)
    | _ => .error (.badOperand c.code)
  | 10 => match c.operand with
    | .hdr m d s p1 p2 => .ok (.encHdr m d s (p1.getD 0) (p2.getD 0))
    | _ => .error (.badOperand c.code)
  | 11 => match c.operand with
    | .longHdr m d s n => .ok (.encLongHdr m d s n)
    | _ => .error (.badOperand c.code)
  | 12 => match c.operand with
    | .frame m d s p1 p2 pl => .ok (.encFrame m d s p1 p2 pl)
    | _ => .error (.badOperand c.code)
  | 13 => match c.operand with
    | .items l => .ok (.packFields l)
    | _ => .error (.badOperand c.code)
  | 14 => match c.operand with
    | .flags w fl => if w = 1 ∨ w = 2 ∨ w = 4 then .ok (.packBits w fl) else .error (.badOperand c.code)
    | _ => .error (.badOperand c.code)
  | 15 => match c.operand with
    | .opts l => .ok (.packFilter l)
    | _ => .error (.badOperand c.code)
  | 16 => match c.operand with
    | .bool b => .ok (.encBool b)
    | _ => .error (.badOperand c.code)
  | 17 => match c.operand with
    | .int v => if 0 ≤ v ∧ v < 2 ^ 32 then .ok (.decStatus (BitVec.ofInt 32 v)) else .error (.badOperand c.code)
    | _ => .error (.badOperand c.code)
  | 18 => match c.operand with
    | .int v => if 0 ≤ v ∧ v < 2 ^ 16 then .ok (.decAdc (BitVec.ofInt 16 v)) else .error (.badOperand c.code)
    | _ => .error (.badOperand c.code)
  | 19 => match c.operand with
    | .intCount v n => if 0 ≤ v ∧ 1 ≤ n then .ok (.unpackBits v.toNat n.toNat) else .error (.badOperand c.code)
    | _ => .error (.badOperand c.code)
  | 20 => match c.operand with
    | .int v => if 0 ≤ v then .ok (.decBool v.toNat) else .error (.badOperand c.code)
    | _ => .error (.badOperand c.code)
  | _ => .error (.undefinedCode c.code)

/-- The instruction a packet stands for; a frame packet holds exactly one whole frame. -/
def decode : Packet → Except DecodeError Instr
  | .command c => decodeCommand c
  | .frame bs =>
    match decodeFrame bs with
    | .ok (i, []) => .ok i
    | .ok (_, _ :: _) => .error (.shortPayload bs.length (frameSize bs))
    | .error e => .error e

/-- The six bytes of a SHORT header (R80, R81): the long-form flag is 0. -/
def shortFrameBytes (msgid : MsgId) (param1 param2 : Byte) (dest : Dest) (source : Byte) : List Byte :=
  [msgid.extractLsb' 0 8, msgid.extractLsb' 8 8, param1, param2, (0#1 ++ dest : BitVec 8), source]

/-- The bytes of a LONG frame (R80, R81): the length field little-endian at offset 2, the long-form flag 1, the payload from
offset 6. -/
def longFrameBytes (msgid : MsgId) (dest : Dest) (source : Byte) (payload : List Byte) : List Byte :=
  let len : BitVec 16 := BitVec.ofNat 16 payload.length
  [msgid.extractLsb' 0 8, msgid.extractLsb' 8 8, len.extractLsb' 0 8, len.extractLsb' 8 8,
    (1#1 ++ dest : BitVec 8), source] ++ payload

/-- The packet of an instruction, from R80 and R90. -/
def encode : Instr → Packet
  | .frameShort m p1 p2 d s => .frame (shortFrameBytes m p1 p2 d s)
  | .frameLong m d s pl => .frame (longFrameBytes m d s pl)
  | .reset => .command ⟨0b00000#5, .none⟩
  | .register e => .command ⟨0b00001#5, .entry e⟩
  | .feed bs => .command ⟨0b00010#5, .bytes bs⟩
  | .pull => .command ⟨0b00011#5, .none⟩
  | .coopPull => .command ⟨0b00100#5, .none⟩
  | .coopResume => .command ⟨0b00101#5, .none⟩
  | .coopCancel => .command ⟨0b00110#5, .none⟩
  | .iterate => .command ⟨0b00111#5, .none⟩
  | .dispatch f => .command ⟨0b01000#5, .bytes f⟩
  | .decHdr h => .command ⟨0b01001#5, .bytes h⟩
  | .encHdr m d s p1 p2 => .command ⟨0b01010#5, .hdr m d s (some p1) (some p2)⟩
  | .encLongHdr m d s n => .command ⟨0b01011#5, .longHdr m d s n⟩
  | .encFrame m d s p1 p2 pl => .command ⟨0b01100#5, .frame m d s p1 p2 pl⟩
  | .packFields l => .command ⟨0b01101#5, .items l⟩
  | .packBits w fl => .command ⟨0b01110#5, .flags w fl⟩
  | .packFilter l => .command ⟨0b01111#5, .opts l⟩
  | .encBool b => .command ⟨0b10000#5, .bool b⟩
  | .decStatus w => .command ⟨0b10001#5, .int w.toNat⟩
  | .decAdc raw => .command ⟨0b10010#5, .int raw.toNat⟩
  | .unpackBits v n => .command ⟨0b10011#5, .intCount v n⟩
  | .decBool v => .command ⟨0b10100#5, .int v⟩

/-- DESIGN CHOICE: the operand record that goes with a command code where only the code's word is given. R90 gives operands
no bits, so "operand words of zeros" is read as: zero, empty or false where the operand type has it, else its least member
(a field width of 1, a flag count of 1). -/
def leastOperand (code : BitVec 5) : Operand :=
  match code.toNat with
  | 1 => .entry ⟨0, "", []⟩
  | 2 => .bytes []
  | 8 => .bytes []
  | 9 => .bytes []
  | 10 => .hdr 0 0 0 none none
  | 11 => .longHdr 0 0 0 0
  | 12 => .frame 0 0 0 0 0 none
  | 13 => .items []
  | 14 => .flags 1 []
  | 15 => .opts []
  | 16 => .bool false
  | 17 => .int 0
  | 18 => .int 0
  | 19 => .intCount 0 1
  | 20 => .int 0
  | _ => .none

/-- The packet of a table word: a row of at most one byte is a command code with its least operand, a row of six bytes or
more is a frame, completed by zero bytes up to the size its header declares (R83). -/
def tableWordPacket (nbits w : Nat) : Option Packet :=
  if nbits ≤ 8 then
    if w < 32 then some (.command ⟨BitVec.ofNat 5 w, leastOperand (BitVec.ofNat 5 w)⟩) else none
  else if nbits < 48 then none
  else
    let h := bytesLE w (nbits / 8)
    some (.frame (h ++ List.replicate (frameSize h - h.length) 0))

/-- The instruction the decoder reads from a word of spec/opcode_table.json, its bits numbered as the table numbers them. -/
def decodeTableWord (nbits w : Nat) : Option Instr :=
  match tableWordPacket nbits w with
  | some (.command c) => (decodeCommand c).toOption
  | some (.frame bs) =>
    match decodeFrame bs with
    | .ok (i, _) => some i
    | .error _ => none
  | none => none

end Sys2Proof
end

