-- ==== Sys2Proof/Config.lean ====
section
/-! DEFINITION. What an AFP instance fixes (spec/00_scope.md R6): the open parameters, with the defaults the spec names,
and the byte source's answers, which nothing fixes. -/

namespace Sys2Proof

/-- The answers of the attached byte source to one read (R196). The value of `ioErr` is opaque to the AFP (U14). -/
inductive Answer where
  | data (bs : List Byte)
  | noneYet
  | eof
  | ioErr (x : String)
  deriving DecidableEq, Repr, Inhabited

/-- The open parameters of R6, "fixed for a model instance, and no operation writes them" (R30). -/
structure Params where
  /-- BUF_CAP: none, or a number of bytes at least MAX_FRAME (D3). -/
  bufCap : Option Nat
  /-- SOURCE_ATTACHED (D21). -/
  sourceAttached : Bool
  /-- CATALOG: the entries BOOT registers, in order (D8). -/
  catalog : List Entry
  /-- STATUS_FLAGS: flag name and bit index, in output order (R171, D23). -/
  statusFlags : List (String × Fin 32)
  /-- STATUS_UPDATE_LAYOUT (R175, D24). -/
  statusUpdateLayout : List Desc
  /-- DC_STATUS_LAYOUT (R175, D24). -/
  dcStatusLayout : List Desc
  /-- N_DIGOUT (R173, D26). -/
  nDigout : Nat
  deriving DecidableEq, Repr

/-- The default bit map of the status word (R171). PRESUMED: the spec marks the positions as general knowledge (GK1). -/
def defaultStatusFlags : List (String × Fin 32) :=
  [("forward_limit_switch", 0), ("reverse_limit_switch", 1), ("moving_forward", 4), ("moving_reverse", 5),
   ("jogging_forward", 6), ("jogging_reverse", 7), ("homing", 9), ("homed", 10), ("tracking", 12), ("settled", 13),
   ("motion_error", 14), ("current_limit_reached", 24), ("channel_enabled", 31)]

/-- The default "status update" payload shape (R175). PRESUMED: general knowledge (GK3). -/
def defaultStatusUpdateLayout : List Desc :=
  [⟨"chan_ident", 6, .u16⟩, ⟨"position", 8, .i32⟩, ⟨"enc_count", 12, .i32⟩, ⟨"status", 16, .status32⟩]

/-- The default "dc status" payload shape (R175); bytes 14 and 15 are not decoded. PRESUMED: general knowledge (GK3). -/
def defaultDcStatusLayout : List Desc :=
  [⟨"chan_ident", 6, .u16⟩, ⟨"position", 8, .i32⟩, ⟨"velocity", 12, .u16⟩, ⟨"status", 16, .status32⟩]

/-- The instance that `State.reset` stands for: every parameter at the spec's default, no source attached, and an empty
CATALOG (DESIGN CHOICE: the spec gives no catalog). -/
def Params.default : Params where
  bufCap := none
  sourceAttached := false
  catalog := []
  statusFlags := defaultStatusFlags
  statusUpdateLayout := defaultStatusUpdateLayout
  dcStatusLayout := defaultDcStatusLayout
  nDigout := 4

/-- What R6 requires of the parameters: BUF_CAP is none or at least MAX_FRAME, and N_DIGOUT is at least 1. -/
def Params.wf (p : Params) : Bool :=
  (match p.bufCap with
   | none => true
   | some cap => decide (maxFrame ≤ cap)) && decide (1 ≤ p.nDigout)

/-- SOURCE (R6, R196), a FREE VALUE: what the source answers to its read number `k` (counted from 0) when it is asked for
`n` bytes and no answer has been scripted in the state. No body: nothing can be proved of its value. -/
opaque Config.sourceAnswer (k n : Nat) : Answer

end Sys2Proof
end

