-- ==== Sys2Proof/Machine/State.lean ====
section
/-! DEFINITION. The state of the AFP (spec/10_state.md R30), the records and errors it answers with (R46, R230 to R232), and
the model's own fields: the parameters of the instance, the ITERATE in progress, the byte source's side, and the port on
which commands arrive and responses leave. -/

namespace Sys2Proof.Machine

/-- A decoded value (R46). -/
inductive Value where
  | int (n : Int)
  | bytes (bs : List Byte)
  | bool (b : Bool)
  | volt (q : Rat)
  | flags (fl : List Bool)
  deriving DecidableEq, Repr

/-- The reasons and info of a FormatError (R231, R232). `badEnum` is BAD_ENUM under DISPATCH, `badEnumValue` is BAD_ENUM of
the stand-alone DEC_BOOL (R174). -/
inductive FormatInfo where
  | shortHeader (have_ need : Nat)
  | tooShort (msgid : MsgId) (dest : Dest) (source : Byte) (have_ need : Nat)
  | badEnum (msgid : MsgId) (dest : Dest) (source : Byte) (field : String) (value : Nat)
  | badEnumValue (value : Nat)
  deriving DecidableEq, Repr

/-- The reasons of a ConfigurationError with their info (R231). -/
inductive ConfigReason where
  | duplicate (msgid : Int)
  | sealed (msgid : Int)
  | badEntry (msgid : Int)
  | fatal
  | mismatch (msgid : MsgId)
  deriving DecidableEq, Repr

/-- The reasons of a BufferOverflow with their info (R190, R231). -/
inductive OverflowReason where
  | feed (have_ chunk cap : Nat)
  | fatal
  deriving DecidableEq, Repr

/-- The reasons of an IllegalCommand with their info (R231); `badOperand (some k)` is the item k of PACK_FIELDS (R120). -/
inductive IllegalReason where
  | undefined
  | busy
  | notPending
  | badOperand (item : Option Nat)
  deriving DecidableEq, Repr

/-- The argument a RangeError names (R101, R102, R120, R121). -/
inductive ArgName where
  | msgid
  | dest
  | source
  | param1
  | param2
  | payloadLen
  | flags
  | item (k : Nat)
  deriving DecidableEq, Repr

/-- The error classes that reach a response as `err` (R230); IncompleteData and EndOfStream are `ok` responses (R92). -/
inductive Error where
  | configuration (r : ConfigReason)
  | format (i : FormatInfo)
  | unknownMessage (msgid : MsgId) (dest : Dest) (source : Byte)
  | sourceIo (x : String)
  | range (arg : ArgName) (value : PackValue) (bits : Nat)
  | paramPayloadConflict (param1 param2 : Int)
  | bufferOverflow (r : OverflowReason)
  | illegalCommand (r : IllegalReason)
  deriving DecidableEq, Repr

/-- The `kind` tag of an output record (R46). -/
inductive RecordKind where
  | known
  | unknown
  | malformed
  deriving DecidableEq, Repr

/-- The output record (R46). -/
structure Record where
  kind : RecordKind
  name : String
  msgid : MsgId
  dest : Dest
  source : Byte
  fields : List (String × Value)
  error : Option FormatInfo
  deriving DecidableEq, Repr

/-- A diagnostic event (R248). -/
inductive Diag where
  | unknown (msgid : MsgId) (dest : Dest) (source : Byte) (size : Nat)
  | malformed (msgid : MsgId) (dest : Dest) (source : Byte) (size : Nat) (info : FormatInfo)
  deriving DecidableEq, Repr

/-- The seven outputs of DEC_HDR (R100). -/
structure Header where
  msgid : MsgId
  lengthOrZero : BitVec 16
  dest : Dest
  source : Byte
  isLong : Bool
  param1 : Byte
  param2 : Byte
  deriving DecidableEq, Repr

/-- Why an ITERATE stopped (R204). -/
inductive StopReason where
  | notReady
  | ended
  | ioErr (x : String)
  deriving DecidableEq, Repr

/-- The value of an `ok` response (R90, R92). `suspended` is the answer of a cooperative pull that has not returned to its
caller yet (R200). -/
inductive Reply where
  | unit
  | item (r : Record)
  | notReady
  | ended
  | suspended
  | iterated (items : List Record) (stop : StopReason)
  | record (r : Record)
  | header (h : Header)
  | bytes (bs : List Byte)
  | int (n : Nat)
  | filter (vals : List Int) (mask : Nat)
  | status (fl : List (String × Bool))
  | volt (q : Rat)
  | flags (fl : List Bool)
  | bool (b : Bool)
  deriving DecidableEq, Repr

/-- A response: `ok(v)` or `err(class, reason, info)` (R92). -/
inductive Response where
  | ok (v : Reply)
  | err (e : Error)
  deriving DecidableEq, Repr

/-- One turn of the total order of steps that the agents issue (R70, R251): a command, or a turn given to the ITERATE in
progress. -/
inductive Event where
  | command (c : Command)
  | turn
  deriving DecidableEq, Repr

/-- The registry S.reg: a finite map from u16 to entry (R34), as a list in rising order of the key. -/
abbrev Registry := List (MsgId × Entry)

/-- The machine. The first seven fields are the record S of R30; the others are the model's own. -/
structure State where
  /-- S.buf, the stream buffer, head first (R32). -/
  buf : List Byte
  /-- S.reg, the registry (R34). -/
  reg : Registry
  /-- S.sealed (R37). -/
  sealed : Bool
  /-- S.cfg_fault (R38). -/
  cfgFault : Bool
  /-- S.ovf_fault (R39). -/
  ovfFault : Bool
  /-- S.coop_pending (R40). -/
  coopPending : Bool
  /-- S.diag, oldest first (R41). -/
  diag : List Diag
  /-- The parameters of this instance (R6); no step writes them. -/
  cfg : Params
  /-- The ITERATE in progress and the records it has pulled so far (R204). -/
  iter : Option (List Record)
  /-- The byte source's next answers, in order; after them its answers are free (R196). -/
  src : List Answer
  /-- The sizes of the reads made of the source, oldest first (R195). -/
  reads : List Nat
  /-- The steps the agents issue, in the order in which they take effect (R251). -/
  inbox : List Event
  /-- The responses given, oldest first (R92). -/
  out : List Response
  deriving DecidableEq, Repr

/-- Why the machine stops. -/
inductive Fault where
  /-- Raised by a source read inside PULL, COOP_PULL, COOP_RESUME or ITERATE when the state scripts an answer outside the
  source's alphabet: more bytes than asked for, or none. The spec has no step for it (R196, D40, U15: stuck). Safe: the
  model stops where the spec says nothing happens. -/
  | sourceOutsideAlphabet
  deriving DecidableEq, Repr

/-- Why an instruction is refused. -/
inductive Refusal where
  /-- The arm of `exec` for an instruction that has no meaning yet. No arm answers it. Safe. -/
  | notModelled (mnemonic : String)
  deriving DecidableEq, Repr

/-- The state at power-on and after RESET (R43, R271), in the instance with every parameter at its default, with no ITERATE
in progress, no step issued, no response given and the source not yet read (DESIGN CHOICE for the model's own fields). -/
def State.reset : State where
  buf := []
  reg := []
  sealed := false
  cfgFault := false
  ovfFault := false
  coopPending := false
  diag := []
  cfg := Params.default
  iter := none
  src := []
  reads := []
  inbox := []
  out := []

end Sys2Proof.Machine
end

