-- ==== Sys2Proof/Machine/Flags.lean ====
section
/-! DEFINITION. Flag words and scaled samples: the status bitfield (spec/43_subdecoders.md R170), the bitmasks (R173,
spec/41_field_packing.md R121, R122), the 1/2 boolean enum (R123, R174) and the ADC scaler (R172). -/

namespace Sys2Proof.Machine

/-- DEC_STATUS: one named boolean per STATUS_FLAGS entry, in its order; other bits are ignored (R170). -/
def statusBits (statusFlags : List (String × Fin 32)) (w : BitVec 32) : List (String × Bool) :=
  statusFlags.map (fun p => (p.1, w.getLsbD p.2))

/-- DEC_ADC: the exact rational raw * 5 / 32768, the sample read unsigned (R172). -/
def adcVolt (raw : BitVec 16) : Rat := mkRat ((raw.toNat * adcNum : Nat) : Int) adcDen

/-- UNPACK_BITS: bit i of v for i in 0 .. n-1, index 0 the least significant (R173). -/
def unpackFlags (v n : Nat) : List Bool := (List.range n).map (fun i => v.testBit i)

/-- The OR of `1 << index` over the true flags, the first flag having index i (R121). -/
def orFlags (i : Nat) : List Bool → Nat
  | [] => 0
  | b :: fl => (if b then 1 <<< i else 0) ||| orFlags (i + 1) fl

/-- PACK_BITS: a true flag outside a field of w bytes is a RangeError (R121). -/
def packFlags (w : Nat) (fl : List Bool) : Except Error Nat :=
  let m := orFlags 0 fl
  if m < 2 ^ (8 * w) then .ok m else .error (.range .flags (.int m) (8 * w))

/-- PACK_FILTER: an omitted parameter is encoded as 0 (R122). -/
def filterValues (opts : List (Option Int)) : List Int := opts.map (fun o => o.getD 0)

/-- PACK_FILTER: bit i of the mask is set iff optional parameter i was supplied (R122). -/
def filterMask (opts : List (Option Int)) : Nat := orFlags 0 (opts.map Option.isSome)

/-- ENC_BOOL: 1 for true, 2 for false (R123). -/
def boolCode (b : Bool) : Nat := if b then boolEnumTrue else boolEnumFalse

/-- DEC_BOOL: 1 is true, 2 is false, any other value none (R174). -/
def boolOfCode (v : Nat) : Option Bool :=
  if v = boolEnumTrue then some true else if v = boolEnumFalse then some false else none

end Sys2Proof.Machine
end

