-- ==== Sys2Proof/Machine/Registry.lean ====
section
/-! DEFINITION. The registry (spec/10_state.md R34), descriptor widths and well-formed entries (R35, R36). -/

namespace Sys2Proof.Machine

/-- `width` of a field type, in bytes (R35). -/
def width : Ty → Nat
  | .u8 => 1
  | .u16 => 2
  | .i16 => 2
  | .u32 => 4
  | .i32 => 4
  | .bytes n => n
  | .status32 => 4
  | .adc16 => 2
  | .bits w _ => w
  | .boolEnum w => w

/-- `min_size(e)` of a descriptor list (R35). -/
def minSize : List Desc → Nat
  | [] => hdrSize
  | d :: ds => max (d.off + width d.ty) (minSize ds)

/-- The conditions of WF on one field type (R36). -/
def tyWF : Ty → Bool
  | .u8 => true
  | .u16 => true
  | .i16 => true
  | .u32 => true
  | .i32 => true
  | .bytes n => decide (1 ≤ n)
  | .status32 => true
  | .adc16 => true
  | .bits w n => (w == 1 || w == 2 || w == 4) && decide (1 ≤ n) && decide (n ≤ 8 * w)
  | .boolEnum w => w == 1 || w == 2

/-- The names of the common fields and the kind tag, which no descriptor may take (R36). -/
def reservedNames : List String := ["name", "msgid", "dest", "source", "kind"]

/-- WF(e) (R36); `statusFlags` is the parameter STATUS_FLAGS. -/
def entryWF (statusFlags : List (String × Fin 32)) (e : Entry) : Bool :=
  decide (0 ≤ e.msgid ∧ e.msgid ≤ 65535)
    && decide (e.name ≠ "") && decide (e.name ≠ "unknown")
    && decide (e.fields.map Desc.fname).Nodup
    && e.fields.all (fun d => !reservedNames.contains d.fname)
    && decide (e.fields.countP (fun d => d.ty == .status32) ≤ 1)
    && (!e.fields.any (fun d => d.ty == .status32)
        || e.fields.all (fun d => !(statusFlags.map Prod.fst).contains d.fname))
    && e.fields.all (fun d => decide (d.off + width d.ty ≤ maxFrame))
    && e.fields.all (fun d => tyWF d.ty)

/-- The key under which an entry is registered: its own msgid (R140). -/
def entryKey (e : Entry) : MsgId := BitVec.ofInt 16 e.msgid

/-- `S.reg[k]`, none where k is no key (R63). -/
def Registry.find (k : MsgId) : Registry → Option Entry
  | [] => none
  | (k', e) :: rest => if k' = k then some e else Registry.find k rest

/-- `S.reg[k] <- e` for a key that has no entry, keeping the keys in rising order. -/
def Registry.add (k : MsgId) (e : Entry) : Registry → Registry
  | [] => [(k, e)]
  | (k', e') :: rest => if k.toNat < k'.toNat then (k, e) :: (k', e') :: rest else (k', e') :: Registry.add k e rest

/-- The canonical form: the keys are strictly rising. -/
abbrev Registry.canonical (r : Registry) : Prop :=
  List.Pairwise (fun a b => a.1.toNat < b.1.toNat) r

/-- INV2 (R44): every entry is well-formed and stands under its own msgid. -/
abbrev Registry.keyed (statusFlags : List (String × Fin 32)) (r : Registry) : Prop :=
  ∀ p ∈ r, p.2.msgid = p.1.toNat ∧ entryWF statusFlags p.2 = true

end Sys2Proof.Machine
end

