-- ==== Sys2Proof/Machine/Operands.lean ====
section
/-! DEFINITION. Operand forms: the header codec (spec/40_header_codec.md), payload packing (spec/41_field_packing.md R120)
and field extraction (spec/42_dispatch.md R143). -/

namespace Sys2Proof.Machine

/-! ### The header codec -/

/-- The header tuple of six header bytes (R100): the length is 0 in the short form, the parameters are the raw bytes 2
and 3 in both forms. -/
def headerOf (h : List Byte) : Header where
  msgid := hdrMsgid h
  lengthOrZero := if hdrIsLong h then hdrLength h else 0
  dest := hdrDest h
  source := hdrSource h
  isLong := hdrIsLong h
  param1 := byteAt h 2
  param2 := byteAt h 3

/-- DEC_HDR (R100). -/
def decodeHeader (h : List Byte) : Except FormatInfo Header :=
  if h.length < hdrSize then .error (.shortHeader h.length hdrSize) else .ok (headerOf h)

/-- The RangeError of the first argument outside [0, 2^bits), in list order (R124, R239). -/
def firstOutOfRange : List (ArgName × Int × Nat) → Option Error
  | [] => none
  | (arg, v, bits) :: rest =>
    if 0 ≤ v ∧ v < 2 ^ bits then firstOutOfRange rest else some (.range arg (.int v) bits)

/-- ENC_HDR (R101). -/
def encodeHeader (msgid dest source param1 param2 : Int) : Except Error (List Byte) :=
  match firstOutOfRange [(.msgid, msgid, 16), (.dest, dest, 7), (.source, source, 8), (.param1, param1, 8),
      (.param2, param2, 8)] with
  | some e => .error e
  | none => .ok (bytesLE msgid.toNat 2 ++
      [BitVec.ofInt 8 param1, BitVec.ofInt 8 param2, BitVec.ofInt 8 dest, BitVec.ofInt 8 source])

/-- ENC_LONG_HDR (R102): the long-form flag is set in the dest byte. -/
def encodeLongHeader (msgid dest source payloadLen : Int) : Except Error (List Byte) :=
  match firstOutOfRange [(.msgid, msgid, 16), (.dest, dest, 7), (.source, source, 8), (.payloadLen, payloadLen, 16)] with
  | some e => .error e
  | none => .ok (bytesLE msgid.toNat 2 ++ bytesLE payloadLen.toNat 2 ++
      [BitVec.ofInt 8 dest ||| 0x80#8, BitVec.ofInt 8 source])

/-- ENC_FRAME (R103): the conflict of parameters and payload is checked before any byte is built (R239). -/
def encodeFrame (msgid dest source param1 param2 : Int) (payload : Option (List Byte)) : Except Error (List Byte) :=
  match payload with
  | none => encodeHeader msgid dest source param1 param2
  | some pl =>
    if param1 ≠ 0 ∨ param2 ≠ 0 then .error (.paramPayloadConflict param1 param2)
    else
      match encodeLongHeader msgid dest source pl.length with
      | .error e => .error e
      | .ok h => .ok (h ++ pl)

/-! ### Payload packing (R120) -/

/-- The RangeError of item k (R120). -/
def itemRange (k : Nat) (ty : Ty) (v : PackValue) : Error := .range (.item k) v (8 * width ty)

/-- The refusal of item k: its type has no encoding, or its value is not of the kind its type requires (R120, R231). -/
def itemRefused (k : Nat) : Error := .illegalCommand (.badOperand (some k))

/-- An integer field: checked against its range, then little-endian, two's complement (R120). -/
def packInt (k : Nat) (ty : Ty) (lo hi : Int) (v : PackValue) : Except Error (List Byte) :=
  match v with
  | .int x =>
    if lo ≤ x ∧ x ≤ hi then .ok (bytesLE (x % 2 ^ (8 * width ty)).toNat (width ty)) else .error (itemRange k ty v)
  | .bytes _ => .error (itemRefused k)
  | .flags _ => .error (itemRefused k)
  | .bool _ => .error (itemRefused k)

/-- A byte string of exactly n bytes: neither padded nor truncated (R120, R124). -/
def packBytes (k n : Nat) (v : PackValue) : Except Error (List Byte) :=
  match v with
  | .bytes bs => if bs.length = n then .ok bs else .error (itemRange k (.bytes n) v)
  | .int _ => .error (itemRefused k)
  | .flags _ => .error (itemRefused k)
  | .bool _ => .error (itemRefused k)

/-- A bitmask of exactly n flags in w bytes, w any width (R120, R121; log entry 13). -/
def packMask (k w n : Nat) (v : PackValue) : Except Error (List Byte) :=
  match v with
  | .flags fl =>
    if fl.length ≠ n then .error (itemRange k (.bits w n) v)
    else
      match packFlags w fl with
      | .ok m => .ok (bytesLE m w)
      | .error e => .error e
  | .int _ => .error (itemRefused k)
  | .bytes _ => .error (itemRefused k)
  | .bool _ => .error (itemRefused k)

/-- A 1/2 boolean in w bytes, w any width (R120, R123). A field of no bytes cannot hold 1 or 2 (R8's bytesLE has no such
value), so it is the RangeError of R124 (log entry 13). -/
def packEnum (k w : Nat) (v : PackValue) : Except Error (List Byte) :=
  match v with
  | .bool b => if boolCode b < 2 ^ (8 * w) then .ok (bytesLE (boolCode b) w) else .error (itemRange k (.boolEnum w) v)
  | .int _ => .error (itemRefused k)
  | .bytes _ => .error (itemRefused k)
  | .flags _ => .error (itemRefused k)

/-- The bytes of item k of PACK_FIELDS (R120). -/
def packItem (k : Nat) (ty : Ty) (v : PackValue) : Except Error (List Byte) :=
  match ty with
  | .u8 => packInt k ty 0 255 v
  | .u16 => packInt k ty 0 65535 v
  | .i16 => packInt k ty (-32768) 32767 v
  | .u32 => packInt k ty 0 (2 ^ 32 - 1) v
  | .i32 => packInt k ty (-2 ^ 31) (2 ^ 31 - 1) v
  | .bytes n => packBytes k n v
  | .bits w n => packMask k w n v
  | .boolEnum w => packEnum k w v
  | .status32 => .error (itemRefused k)
  | .adc16 => .error (itemRefused k)

/-- PACK_FIELDS from item k on: items are checked in list order and laid back to back (R120, R239). -/
def packItems (k : Nat) : List (Ty × PackValue) → Except Error (List Byte)
  | [] => .ok []
  | (ty, v) :: rest =>
    match packItem k ty v with
    | .error e => .error e
    | .ok bs =>
      match packItems (k + 1) rest with
      | .error e => .error e
      | .ok more => .ok (bs ++ more)

/-! ### Field extraction (R143) -/

/-- The unsigned value of a field of w bytes at offset o, w one of 1, 2 and 4 (R143). -/
def fieldNat (g : List Byte) (o w : Nat) : Nat :=
  if w = 1 then (byteAt g o).toNat else if w = 2 then (le16 g o).toNat else (le32 g o).toNat

/-- DEC_FIELD (R143): the fields one descriptor contributes. Offsets count from the first header byte of the effective
frame g; the BAD_ENUM error carries the header of that frame. -/
def decodeField (statusFlags : List (String × Fin 32)) (g : List Byte) (d : Desc) :
    Except FormatInfo (List (String × Value)) :=
  match d.ty with
  | .u8 => .ok [(d.fname, .int (byteAt g d.off).toNat)]
  | .u16 => .ok [(d.fname, .int (le16 g d.off).toNat)]
  | .i16 => .ok [(d.fname, .int (le16 g d.off).toInt)]
  | .u32 => .ok [(d.fname, .int (le32 g d.off).toNat)]
  | .i32 => .ok [(d.fname, .int (le32 g d.off).toInt)]
  | .bytes n => .ok [(d.fname, .bytes (sub g d.off n))]
  | .status32 => .ok ((statusBits statusFlags (le32 g d.off)).map (fun p => (p.1, .bool p.2)))
  | .adc16 => .ok [(d.fname, .volt (adcVolt (le16 g d.off)))]
  | .bits w n => .ok [(d.fname, .flags (unpackFlags (fieldNat g d.off w) n))]
  | .boolEnum w =>
    match boolOfCode (fieldNat g d.off w) with
    | some b => .ok [(d.fname, .bool b)]
    | none => .error (.badEnum (hdrMsgid g) (hdrDest g) (hdrSource g) d.fname (fieldNat g d.off w))

/-- The fields of a descriptor list, in its order; the first failing descriptor is reported (R143, R237). -/
def decodeFields (statusFlags : List (String × Fin 32)) (g : List Byte) :
    List Desc → Except FormatInfo (List (String × Value))
  | [] => .ok []
  | d :: ds =>
    match decodeField statusFlags g d with
    | .error i => .error i
    | .ok fs =>
      match decodeFields statusFlags g ds with
      | .error i => .error i
      | .ok more => .ok (fs ++ more)

/-- The effective frame: the frame's first min(|f|, frame_size) bytes (R142). -/
def effectiveFrame (f : List Byte) : List Byte := f.take (min f.length (frameSize f))

end Sys2Proof.Machine
end

