-- ==== Sys2Proof/Machine/Ops.lean ====
section
/-! DEFINITION. The shared operations: responses and errors (spec/60_exceptions.md R242), the buffer primitives
(spec/20_memory.md R62), dispatch (spec/42_dispatch.md R141), the byte source (spec/44_unpacker.md R196), and the pull
(R191 to R199). -/

namespace Sys2Proof.Machine

/-! ### Single writes to the state -/

/-- Give a response (R92). -/
def State.respond (s : State) (r : Response) : State := { s with out := s.out ++ [r] }

/-- BufAppend (R62). -/
def State.append (s : State) (bs : List Byte) : State := { s with buf := s.buf ++ bs }

/-- BufConsume (R62). -/
def State.consume (s : State) (n : Nat) : State := { s with buf := s.buf.drop n }

/-- `S.sealed <- true` (R37). -/
def State.seal (s : State) : State := { s with sealed := true }

/-- `S.cfg_fault <- true` (R38). -/
def State.setCfgFault (s : State) : State := { s with cfgFault := true }

/-- `S.ovf_fault <- true` (R39). -/
def State.setOvfFault (s : State) : State := { s with ovfFault := true }

/-- `S.coop_pending <- b` (R40). -/
def State.setCoop (s : State) (b : Bool) : State := { s with coopPending := b }

/-- `emit`: append one diagnostic event (R248). -/
def State.logDiag (s : State) (d : Diag) : State := { s with diag := s.diag ++ [d] }

/-- Write one registry entry under a new key (R34). -/
def State.addEntry (s : State) (k : MsgId) (e : Entry) : State := { s with reg := Registry.add k e s.reg }

/-- The records of the ITERATE in progress (R204). -/
def State.setIter (s : State) (it : Option (List Record)) : State := { s with iter := it }

/-- RESET's writes: every element of S to its reset value (R43, R270), nothing else. -/
def State.clear (s : State) : State :=
  { s with buf := [], reg := [], sealed := false, cfgFault := false, ovfFault := false, coopPending := false, diag := [] }

/-! ### Taking an error, and what outlives it -/

/-- ERROR ENTRY, the AFP's exception mechanism (R242): an error is the response of the operation that raised it; there is no
vector, no saved state and no mode change. What else the raising rule writes is in the state it is raised in. There is no
return from an error (R243): the next step proceeds from this state. -/
def raise (e : Error) (s : State) : Host.Outcome State Fault Refusal := .next (s.respond (.err e))

/-- An `ok` response (R92). -/
def answer (v : Reply) (s : State) : Host.Outcome State Fault Refusal := .next (s.respond (.ok v))

/-- The response of a pure operation (R69): it reads no state and writes none but the response. -/
def answerPure (r : Except Error Reply) (s : State) : Host.Outcome State Fault Refusal :=
  match r with
  | .ok v => answer v s
  | .error e => raise e s

/-- The sticky refusal of REGISTER and DISPATCH (R240 (2)). -/
def fatalConfig (s : State) : Option Error :=
  if s.cfgFault then some (.configuration .fatal) else none

/-- The sticky refusal of a stream operation: cfg_fault before ovf_fault (R240 (2), (3)). -/
def fatalStream (s : State) : Option Error :=
  if s.cfgFault then some (.configuration .fatal)
  else if s.ovfFault then some (.bufferOverflow .fatal)
  else none

/-- The refusal of PULL, COOP_PULL and ITERATE: the sticky faults, then BUSY (R240 (4), R250). -/
def refusePull (s : State) : Option Error :=
  match fatalStream s with
  | some e => some e
  | none => if s.coopPending then some (.illegalCommand .busy) else none

/-! ### Dispatch (R141) -/

/-- The errors DISPATCH can raise (R233). -/
inductive DispatchError where
  | fatal
  | mismatch (msgid : MsgId)
  | unknown (msgid : MsgId) (dest : Dest) (source : Byte)
  | format (i : FormatInfo)
  deriving DecidableEq, Repr

/-- The error response of a failed DISPATCH (R230). -/
def DispatchError.toError : DispatchError → Error
  | .fatal => .configuration .fatal
  | .mismatch m => .configuration (.mismatch m)
  | .unknown m d s => .unknownMessage m d s
  | .format i => .format i

/-- Decode one frame through a registry (R141 after the fatal check; R142, R144, R145). The first condition that holds is
reported, in the order of R237. -/
def decodeRecord (statusFlags : List (String × Fin 32)) (reg : Registry) (f : List Byte) : Except DispatchError Record :=
  if f.length < hdrSize then .error (.format (.shortHeader f.length hdrSize))
  else
    match Registry.find (hdrMsgid f) reg with
    | none => .error (.unknown (hdrMsgid f) (hdrDest f) (hdrSource f))
    | some e =>
      if e.msgid ≠ (hdrMsgid f).toNat then .error (.mismatch (hdrMsgid f))
      else if (effectiveFrame f).length < minSize e.fields then
        .error (.format (.tooShort (hdrMsgid f) (hdrDest f) (hdrSource f) (effectiveFrame f).length (minSize e.fields)))
      else
        match decodeFields statusFlags (effectiveFrame f) e.fields with
        | .error i => .error (.format i)
        | .ok fields =>
          .ok { kind := .known, name := e.name, msgid := hdrMsgid f, dest := hdrDest f, source := hdrSource f,
                fields := fields, error := none }

/-- DISPATCH with its writes: refused while cfg_fault is set; else it seals the registry on every path, and a MISMATCH sets
cfg_fault (R141). -/
def dispatchFrame (f : List Byte) (s : State) : Except DispatchError Record × State :=
  if s.cfgFault then (.error .fatal, s)
  else
    match decodeRecord s.cfg.statusFlags s.reg f with
    | .ok r => (.ok r, s.seal)
    | .error (.mismatch m) => (.error (.mismatch m), s.seal.setCfgFault)
    | .error e => (.error e, s.seal)

/-! ### Frame emission (R193, R194) -/

/-- What one PULL_CORE step produces. `raised` is an error that ends the pull, `illegal` a source answer outside the
alphabet, for which there is no step (R196). -/
inductive PullResult where
  | item (r : Record)
  | notReady
  | ended
  | raised (e : Error)
  | illegal
  deriving DecidableEq, Repr

/-- The placeholder record of an unknown frame (R193). -/
def placeholder (msgid : MsgId) (dest : Dest) (source : Byte) : Record :=
  { kind := .unknown, name := "unknown", msgid := msgid, dest := dest, source := source, fields := [], error := none }

/-- The record of a malformed frame, under its entry's name (R193, D48). -/
def malformedRecord (reg : Registry) (f : List Byte) (info : FormatInfo) : Record :=
  { kind := .malformed,
    name := match Registry.find (hdrMsgid f) reg with
      | some e => e.name
      | none => "unknown",
    msgid := hdrMsgid f, dest := hdrDest f, source := hdrSource f, fields := [], error := some info }

/-- EMIT for the whole frame f at the head of the buffer: dispatch it, remove exactly its bytes, and turn an unknown or
malformed frame into a record with a diagnostic event (R193, R194). DESIGN CHOICE (log entry 10): where the dispatch is
refused as FATAL, which R193 rules out and only an ITERATE overtaken by a failed REGISTER can meet, nothing is emitted and the
frame stays in the buffer. -/
def emitFrame (f : List Byte) (s : State) : PullResult × State :=
  match dispatchFrame f s with
  | (.ok r, t) => (.item r, t.consume f.length)
  | (.error .fatal, t) => (.raised (.configuration .fatal), t)
  | (.error (.mismatch m), t) => (.raised (.configuration (.mismatch m)), t.consume f.length)
  | (.error (.unknown m d so), t) =>
    (.item (placeholder m d so), (t.consume f.length).logDiag (.unknown m d so f.length))
  | (.error (.format i), t) =>
    (.item (malformedRecord t.reg f i),
      (t.consume f.length).logDiag (.malformed (hdrMsgid f) (hdrDest f) (hdrSource f) f.length i))

/-- EMIT: the head frame is the first frame_size bytes of the buffer (R193). -/
def emit (s : State) : PullResult × State := emitFrame (sub s.buf 0 (frameSize s.buf)) s

/-! ### The byte source (R195 to R199) -/

/-- An answer of the alphabet for a read of n bytes (R196). -/
def answerLegal (n : Nat) : Answer → Bool
  | .data bs => decide (1 ≤ bs.length) && decide (bs.length ≤ n)
  | .noneYet => true
  | .eof => true
  | .ioErr _ => true

/-- A free answer held to the alphabet of R196: at most n bytes of data, and no data at all is "none yet". Every legal
answer is itself. -/
def clampAnswer (n : Nat) : Answer → Answer
  | .data bs => if bs.take n = [] then .noneYet else .data (bs.take n)
  | .noneYet => .noneYet
  | .eof => .eof
  | .ioErr x => .ioErr x

/-- SOURCE.read(n): the next scripted answer, or a free one when none is scripted; the read is recorded (R196). -/
def readSource (n : Nat) (s : State) : Answer × State :=
  match s.src with
  | a :: rest => (a, { s with src := rest, reads := s.reads ++ [n] })
  | [] => (clampAnswer n (Config.sourceAnswer s.reads.length n), { s with reads := s.reads ++ [n] })

/-- How a run of reads ends. -/
inductive FillResult where
  | full
  | stopped (r : PullResult)
  deriving DecidableEq, Repr

/-- Read until the buffer holds `target` bytes, each read asking for exactly the bytes still missing; the first answer that
is not data ends it (R195, R241). `fuel` is the number of missing bytes: each data answer brings at least one. -/
def fillTo (target : Nat) : Nat → State → FillResult × State
  | 0, s => (.full, s)
  | fuel + 1, s =>
    if target ≤ s.buf.length then (.full, s)
    else
      match readSource (target - s.buf.length) s with
      | (.data bs, t) =>
        if answerLegal (target - s.buf.length) (.data bs) then fillTo target fuel (t.append bs)
        else (.stopped .illegal, t)
      | (.noneYet, t) => (.stopped .notReady, t)
      | (.eof, t) => (.stopped .ended, t)
      | (.ioErr x, t) => (.stopped (.raised (.sourceIo x)), t)

/-- PULL_ATTACHED (R195): a buffered frame first, without a read; else complete the header, then the frame, then emit.
DESIGN CHOICE (log entry 10): a pass of an ITERATE overtaken by cfg_fault reads as any other, and the bytes it has read stay
in the buffer when its dispatch is then refused as FATAL. -/
def pullAttached (s : State) : PullResult × State :=
  if phase s.buf = .frameReady then emit s
  else
    match fillTo hdrSize (hdrSize - s.buf.length) s with
    | (.stopped r, t) => (r, t)
    | (.full, t) =>
      match fillTo (frameSize t.buf) (frameSize t.buf - t.buf.length) t with
      | (.stopped r, u) => (r, u)
      | (.full, u) => emit u

/-- PULL_BUFFERED (R192): only the bytes already buffered. -/
def pullBuffered (s : State) : PullResult × State :=
  if phase s.buf = .frameReady then emit s else (.notReady, s)

/-- PULL_CORE (R191). -/
def pullCore (s : State) : PullResult × State :=
  if s.cfg.sourceAttached then pullAttached s else pullBuffered s

/-! ### What a pull answers -/

/-- The response of a PULL (R191). -/
def finishPull : PullResult × State → Host.Outcome State Fault Refusal
  | (.item r, t) => answer (.item r) t
  | (.notReady, t) => answer .notReady t
  | (.ended, t) => answer .ended t
  | (.raised e, t) => raise e t
  | (.illegal, _) => .fault .sourceOutsideAlphabet

/-- The end of one pass of an ITERATE that has pulled `items` before it: a record is kept and the ITERATE goes on; NotReady,
End or a source error end it with the records pulled (R204). Any other error ends it as that error, and its records are not
returned: FATAL by DESIGN CHOICE (log entry 10), MISMATCH as DEDUCED from R193 (log entry 18). -/
def finishPass (items : List Record) : PullResult × State → Host.Outcome State Fault Refusal
  | (.item r, t) => .next (t.setIter (some (items ++ [r])))
  | (.notReady, t) => answer (.iterated items .notReady) (t.setIter none)
  | (.ended, t) => answer (.iterated items .ended) (t.setIter none)
  | (.raised (.sourceIo x), t) => answer (.iterated items (.ioErr x)) (t.setIter none)
  | (.raised e, t) => raise e (t.setIter none)
  | (.illegal, _) => .fault .sourceOutsideAlphabet

/-- One pass of an ITERATE: one atomic PULL_CORE (R204). -/
def iteratePass (items : List Record) (s : State) : Host.Outcome State Fault Refusal := finishPass items (pullCore s)

/-- Run one whole frame: emit it for the ITERATE in progress, or, when there is none, as the answer of a pull (R193). -/
def runFrame (f : List Byte) (s : State) : Host.Outcome State Fault Refusal :=
  match s.iter with
  | some items => finishPass items (emitFrame f s)
  | none => finishPull (emitFrame f s)

end Sys2Proof.Machine
end

