-- ==== Sys2Proof/Machine/Frames.lean ====
section
/-! DEFINITION. The two wire frame formats (spec/30_encoding.md R80): a whole frame at the head of the stream buffer, run by
the pull that emits it (spec/44_unpacker.md R193). -/

namespace Sys2Proof.Machine

/-- FRAME_SHORT (R80, R193): 6 bytes leave the buffer. -/
def execFrameShort (msgid : MsgId) (param1 param2 : Byte) (dest : Dest) (source : Byte) (s : State) :
    Host.Outcome State Fault Refusal :=
  runFrame (shortFrameBytes msgid param1 param2 dest source) s

/-- FRAME_LONG (R80, R193): 6 + length bytes leave the buffer. -/
def execFrameLong (msgid : MsgId) (dest : Dest) (source : Byte) (payload : List Byte) (s : State) :
    Host.Outcome State Fault Refusal :=
  runFrame (longFrameBytes msgid dest source payload) s

end Sys2Proof.Machine
end

