-- ==== Sys2Proof/Machine/Header.lean ====
section
/-! DEFINITION. The frame header codec's operations (spec/40_header_codec.md R100 to R103); all pure. -/

namespace Sys2Proof.Machine

/-- DEC_HDR (R100). -/
def execDecHdr (h : List Byte) (s : State) : Host.Outcome State Fault Refusal :=
  match decodeHeader h with
  | .ok hd => answer (.header hd) s
  | .error i => raise (.format i) s

/-- ENC_HDR (R101). -/
def execEncHdr (msgid dest source param1 param2 : Int) (s : State) : Host.Outcome State Fault Refusal :=
  answerPure ((encodeHeader msgid dest source param1 param2).map Reply.bytes) s

/-- ENC_LONG_HDR (R102). -/
def execEncLongHdr (msgid dest source payloadLen : Int) (s : State) : Host.Outcome State Fault Refusal :=
  answerPure ((encodeLongHeader msgid dest source payloadLen).map Reply.bytes) s

/-- ENC_FRAME (R103). -/
def execEncFrame (msgid dest source param1 param2 : Int) (payload : Option (List Byte)) (s : State) :
    Host.Outcome State Fault Refusal :=
  answerPure ((encodeFrame msgid dest source param1 param2 payload).map Reply.bytes) s

end Sys2Proof.Machine
end

