-- ==== Sys2Proof/Machine/Packing.lean ====
section
/-! DEFINITION. Payload field packing (spec/41_field_packing.md R120 to R123); all pure. -/

namespace Sys2Proof.Machine

/-- PACK_FIELDS (R120). -/
def execPackFields (items : List (Ty × PackValue)) (s : State) : Host.Outcome State Fault Refusal :=
  answerPure ((packItems 0 items).map Reply.bytes) s

/-- PACK_BITS (R121). -/
def execPackBits (w : Nat) (fl : List Bool) (s : State) : Host.Outcome State Fault Refusal :=
  answerPure ((packFlags w fl).map Reply.int) s

/-- PACK_FILTER (R122). -/
def execPackFilter (opts : List (Option Int)) (s : State) : Host.Outcome State Fault Refusal :=
  answer (.filter (filterValues opts) (filterMask opts)) s

/-- ENC_BOOL (R123). -/
def execEncBool (b : Bool) (s : State) : Host.Outcome State Fault Refusal := answer (.int (boolCode b)) s

end Sys2Proof.Machine
end

