-- ==== Sys2Proof/Machine/SubDecoders.lean ====
section
/-! DEFINITION. The shared sub-decoders as operations (spec/43_subdecoders.md R170 to R174); all pure. -/

namespace Sys2Proof.Machine

/-- DEC_STATUS (R170). -/
def execDecStatus (w : BitVec 32) (s : State) : Host.Outcome State Fault Refusal :=
  answer (.status (statusBits s.cfg.statusFlags w)) s

/-- DEC_ADC (R172). -/
def execDecAdc (raw : BitVec 16) (s : State) : Host.Outcome State Fault Refusal := answer (.volt (adcVolt raw)) s

/-- UNPACK_BITS (R173). -/
def execUnpackBits (v n : Nat) (s : State) : Host.Outcome State Fault Refusal := answer (.flags (unpackFlags v n)) s

/-- DEC_BOOL (R174). -/
def execDecBool (v : Nat) (s : State) : Host.Outcome State Fault Refusal :=
  match boolOfCode v with
  | some b => answer (.bool b) s
  | none => raise (.format (.badEnumValue v)) s

end Sys2Proof.Machine
end

