-- ==== Sys2Proof/Machine/System.lean ====
section
/-! DEFINITION. RESET (spec/70_reset_and_hazards.md R270) and the registry's operations (spec/42_dispatch.md R140, R141). -/

namespace Sys2Proof.Machine

/-- RESET (R270): never refused. The source, the issued steps, the responses given and the parameters are outside S. -/
def execReset (s : State) : Host.Outcome State Fault Refusal := answer .unit s.clear

/-- REGISTER (R140): the checks in the order FATAL, SEALED, BAD_ENTRY, DUPLICATE (R238); each but FATAL sets cfg_fault. -/
def execRegister (e : Entry) (s : State) : Host.Outcome State Fault Refusal :=
  match fatalConfig s with
  | some er => raise er s
  | none =>
    if s.sealed then raise (.configuration (.sealed e.msgid)) s.setCfgFault
    else if entryWF s.cfg.statusFlags e = false then raise (.configuration (.badEntry e.msgid)) s.setCfgFault
    else if (Registry.find (entryKey e) s.reg).isSome then raise (.configuration (.duplicate e.msgid)) s.setCfgFault
    else answer .unit (s.addEntry (entryKey e) e)

/-- DISPATCH (R141). -/
def execDispatch (f : List Byte) (s : State) : Host.Outcome State Fault Refusal :=
  match dispatchFrame f s with
  | (.ok r, t) => answer (.record r) t
  | (.error e, t) => raise e.toError t

end Sys2Proof.Machine
end

