-- ==== Sys2Proof/Machine/Unpacker.lean ====
section
/-! DEFINITION. The streaming unpacker's operations (spec/44_unpacker.md R190 to R204). -/

namespace Sys2Proof.Machine

/-- FEED (R190): append, or set the sticky overflow fault and append nothing. -/
def execFeed (bs : List Byte) (s : State) : Host.Outcome State Fault Refusal :=
  match fatalStream s with
  | some e => raise e s
  | none =>
    match s.cfg.bufCap with
    | some cap =>
      if cap < s.buf.length + bs.length then
        raise (.bufferOverflow (.feed s.buf.length bs.length cap)) s.setOvfFault
      else answer .unit (s.append bs)
    | none => answer .unit (s.append bs)

/-- PULL (R191). -/
def execPull (s : State) : Host.Outcome State Fault Refusal :=
  match refusePull s with
  | some e => raise e s
  | none => finishPull (pullCore s)

/-- COOP_PULL (R200): where PULL would answer NotReady it suspends. -/
def execCoopPull (s : State) : Host.Outcome State Fault Refusal :=
  match refusePull s with
  | some e => raise e s
  | none =>
    match pullCore s with
    | (.notReady, t) => answer .suspended (t.setCoop true)
    | (r, t) => finishPull (r, t)

/-- COOP_RESUME (R201): NOT_PENDING before the sticky faults (R240 (1)); a source error ends the pending pull, any other
error leaves it pending. -/
def execCoopResume (s : State) : Host.Outcome State Fault Refusal :=
  if s.coopPending = false then raise (.illegalCommand .notPending) s
  else
    match fatalStream s with
    | some e => raise e s
    | none =>
      match pullCore s with
      | (.notReady, t) => answer .suspended t
      | (.item r, t) => finishPull (.item r, t.setCoop false)
      | (.ended, t) => finishPull (.ended, t.setCoop false)
      | (.raised (.sourceIo x), t) => finishPull (.raised (.sourceIo x), t.setCoop false)
      | (.raised e, t) => finishPull (.raised e, t)
      | (.illegal, t) => finishPull (.illegal, t)

/-- COOP_CANCEL (R202): never refused, loses no byte. -/
def execCoopCancel (s : State) : Host.Outcome State Fault Refusal := answer .unit (s.setCoop false)

/-- ITERATE (R204): its checks and its first pass; `step` runs the later passes, between which other steps may fall. -/
def execIterate (s : State) : Host.Outcome State Fault Refusal :=
  match refusePull s with
  | some e => raise e s
  | none => iteratePass [] s

end Sys2Proof.Machine
end

