-- ==== Sys2Proof/Machine/Dispatch.lean ====
section
/-! DEFINITION. The meaning of every instruction: one arm for each row of spec/opcode_table.json. -/

namespace Sys2Proof.Machine

def exec (i : Instr) (s : State) : Host.Outcome State Fault Refusal :=
  match i with
  | .frameShort m p1 p2 d so => Sys2Proof.Machine.execFrameShort m p1 p2 d so s
  | .frameLong m d so pl => Sys2Proof.Machine.execFrameLong m d so pl s
  | .reset => Sys2Proof.Machine.execReset s
  | .register e => Sys2Proof.Machine.execRegister e s
  | .feed bs => Sys2Proof.Machine.execFeed bs s
  | .pull => Sys2Proof.Machine.execPull s
  | .coopPull => Sys2Proof.Machine.execCoopPull s
  | .coopResume => Sys2Proof.Machine.execCoopResume s
  | .coopCancel => Sys2Proof.Machine.execCoopCancel s
  | .iterate => Sys2Proof.Machine.execIterate s
  | .dispatch f => Sys2Proof.Machine.execDispatch f s
  | .decHdr h => Sys2Proof.Machine.execDecHdr h s
  | .encHdr m d so p1 p2 => Sys2Proof.Machine.execEncHdr m d so p1 p2 s
  | .encLongHdr m d so n => Sys2Proof.Machine.execEncLongHdr m d so n s
  | .encFrame m d so p1 p2 pl => Sys2Proof.Machine.execEncFrame m d so p1 p2 pl s
  | .packFields l => Sys2Proof.Machine.execPackFields l s
  | .packBits w fl => Sys2Proof.Machine.execPackBits w fl s
  | .packFilter l => Sys2Proof.Machine.execPackFilter l s
  | .encBool b => Sys2Proof.Machine.execEncBool b s
  | .decStatus w => Sys2Proof.Machine.execDecStatus w s
  | .decAdc raw => Sys2Proof.Machine.execDecAdc raw s
  | .unpackBits v n => Sys2Proof.Machine.execUnpackBits v n s
  | .decBool v => Sys2Proof.Machine.execDecBool v s

end Sys2Proof.Machine
end

