-- ==== Sys2Proof/Machine/Fetch.lean ====
section
/-! DEFINITION. Which instruction the next step runs, and in which state (spec/60_exceptions.md R249 to R251): the commands
arrive in the order the agents issue them, and the passes of an ITERATE in progress take their frames from the head of the
stream buffer (spec/10_state.md R31). -/

namespace Sys2Proof.Machine

/-- What the next step does. -/
inductive Fetched where
  /-- No agent has issued a step. -/
  | idle (s : State)
  /-- Run the instruction. -/
  | run (i : Instr) (s : State)
  /-- A command that is no instruction, refused with an error. -/
  | reject (e : Error) (s : State)
  /-- A pass of the ITERATE in progress that finds no whole frame buffered. -/
  | pass (items : List Record) (s : State)
  deriving DecidableEq, Repr

/-- The consumer's operations PULL, COOP_PULL, COOP_RESUME, COOP_CANCEL and ITERATE (R249 (2)), by command code. -/
def isConsumerCode (code : BitVec 5) : Bool := decide (3 ≤ code.toNat) && decide (code.toNat ≤ 7)

/-- The turn of the ITERATE in progress: the frame at the head of the buffer, if it is whole (R204). -/
def fetchIter (s : State) : Fetched :=
  match s.iter with
  | none => .idle s
  | some items =>
    match decodeFrame s.buf with
    | .ok (i, _) => .run i s
    | .error _ => .pass items s

/-- The error of a command that decodes to no instruction. An undefined code is refused in every state (R90); an operand
outside its type is a condition of the operation, so the sticky refusals of REGISTER, FEED and DISPATCH come first (R240).
DESIGN CHOICE (log entry 20): a DISPATCH refused for its operand writes nothing, `sealed` neither. -/
def rejectError (e : DecodeError) (s : State) : Error :=
  match e with
  | .undefinedCode _ => .illegalCommand .undefined
  | .badOperand code =>
    if code.toNat = 2 then (fatalStream s).getD (.illegalCommand (.badOperand none))
    else if code.toNat = 1 ∨ code.toNat = 8 then (fatalConfig s).getD (.illegalCommand (.badOperand none))
    else .illegalCommand (.badOperand none)
  | .shortHeader _ => .illegalCommand (.badOperand none)
  | .shortPayload _ _ => .illegalCommand (.badOperand none)

/-- The next step. A command of the consumer that is issued while its ITERATE has not returned waits, and the turn goes to
the ITERATE: one agent's steps take effect in the order it issues them, and there is one consumer (R250, R251). -/
def fetch (s : State) : Fetched :=
  match s.inbox with
  | [] => fetchIter s
  | .turn :: rest => fetchIter { s with inbox := rest }
  | .command c :: rest =>
    if s.iter.isSome && isConsumerCode c.code then fetchIter s
    else
      match decodeCommand c with
      | .ok i => .run i { s with inbox := rest }
      | .error e => .reject (rejectError e s) { s with inbox := rest }

/-- Between two steps the agents issue further steps, and the byte source may have further answers ready (R251, R196). This
is where the outside world reaches the machine; a run with arrivals is any interleaving, finite or infinite. -/
def State.arrive (s : State) (issued : List Event) (answers : List Answer) : State :=
  { s with inbox := s.inbox ++ issued, src := s.src ++ answers }

/-- Put the packet of a table word where the next step fetches: a command first on the command port, with no ITERATE
running that could take the turn; a frame at the head of the stream buffer, with an ITERATE in progress whose turn it is. -/
def placePacket (s : State) : Packet → State
  | .command c => { s with inbox := .command c :: s.inbox, iter := none }
  | .frame bs => { s with buf := bs ++ s.buf, inbox := .turn :: s.inbox, iter := some (s.iter.getD []) }

end Sys2Proof.Machine
end

