-- ==== Sys2Proof/Machine/Step.lean ====
section
/-! DEFINITION. One step of the machine: one turn of the total order of the agents' steps (spec/60_exceptions.md R251). -/

namespace Sys2Proof.Machine

/-- Run what is fetched. With nothing issued the machine waits: its state stays as it is. -/
def step (s : State) : Host.Outcome State Fault Refusal :=
  match fetch s with
  | .idle t => .next t
  | .run i t => exec i t
  | .reject e t => raise e t
  | .pass items t => iteratePass items t

/-- s with a table word's instruction where the next step fetches it. -/
def State.withFetchWord (s : State) (nbits w : Nat) : State :=
  match tableWordPacket nbits w with
  | some p => placePacket s p
  | none => s

end Sys2Proof.Machine
end

