-- ==== Sys2Proof/Machine/Boot.lean ====
section
/-! DEFINITION. The pseudo-operations (spec/30_encoding.md R91) and the configurations built from the parameters of R6. -/

namespace Sys2Proof.Machine

/-- The turn on which an agent issues an instruction as a command transaction. -/
def commandEvents (i : Instr) : List Event :=
  match encode i with
  | .command c => [.command c]
  | .frame _ => []

/-- BOOT (R91, R272): REGISTER each entry of CATALOG, in CATALOG order. Not atomic: one step for each. -/
def bootInstrs (p : Params) : List Instr := p.catalog.map Instr.register

/-- The steps of BOOT on the command port. -/
def bootEvents (p : Params) : List Event := (bootInstrs p).flatMap commandEvents

/-- FEEDFRAME (R91): ENC_FRAME, then FEED of the bytes it answers; where ENC_FRAME answers with an error there is nothing
to feed. -/
def feedFrameInstrs (msgid dest source param1 param2 : Int) (payload : Option (List Byte)) : List Instr :=
  match encodeFrame msgid dest source param1 param2 payload with
  | .ok bs => [.encFrame msgid dest source param1 param2 payload, .feed bs]
  | .error _ => [.encFrame msgid dest source param1 param2 payload]

/-- The power-on state of the instance with parameters p (R271). -/
def State.resetWith (p : Params) : State := { State.reset with cfg := p }

/-- The field type of the digital outputs in a field of w bytes: N_DIGOUT flags (R173, D26). -/
def digoutTy (p : Params) (w : Nat) : Ty := .bits w p.nDigout

/-- An entry with the "status update" payload shape (R175). -/
def statusUpdateEntry (p : Params) (msgid : Int) (name : String) : Entry := ⟨msgid, name, p.statusUpdateLayout⟩

/-- An entry with the "dc status" payload shape (R175). -/
def dcStatusEntry (p : Params) (msgid : Int) (name : String) : Entry := ⟨msgid, name, p.dcStatusLayout⟩

/-- The class code of an error response (R230). IncompleteData (4) and EndOfStream (9) are `ok` responses. -/
def errorClassCode : Error → Nat
  | .configuration _ => 1
  | .format _ => 2
  | .unknownMessage _ _ _ => 3
  | .sourceIo _ => 5
  | .range _ _ _ => 6
  | .paramPayloadConflict _ _ => 7
  | .bufferOverflow _ => 8
  | .illegalCommand _ => 10

/-- The reason code of an error response within its class (R231). -/
def errorReasonCode : Error → Nat
  | .configuration (.duplicate _) => 1
  | .configuration (.sealed _) => 2
  | .configuration (.badEntry _) => 3
  | .configuration .fatal => 4
  | .configuration (.mismatch _) => 5
  | .format (.shortHeader _ _) => 1
  | .format (.tooShort _ _ _ _ _) => 2
  | .format (.badEnum _ _ _ _ _) => 3
  | .format (.badEnumValue _) => 3
  | .unknownMessage _ _ _ => 0
  | .sourceIo _ => 0
  | .range _ _ _ => 0
  | .paramPayloadConflict _ _ => 0
  | .bufferOverflow (.feed _ _ _) => 1
  | .bufferOverflow .fatal => 2
  | .illegalCommand .undefined => 1
  | .illegalCommand .busy => 2
  | .illegalCommand .notPending => 3
  | .illegalCommand (.badOperand _) => 4

/-- The class code of the stop reason of an ITERATE (R230): IncompleteData, EndOfStream or SourceIoError. -/
def stopClassCode : StopReason → Nat
  | .notReady => 4
  | .ended => 9
  | .ioErr x => errorClassCode (.sourceIo x)

/-- The class code of a response, where it has one (R230): IncompleteData for NotReady, EndOfStream for End, and for an
ITERATE that of its stop reason. -/
def responseClassCode : Response → Option Nat
  | .err e => some (errorClassCode e)
  | .ok .notReady => some 4
  | .ok .ended => some 9
  | .ok (.iterated _ stop) => some (stopClassCode stop)
  | .ok _ => none

end Sys2Proof.Machine
end

