-- ==== Sys2Proof/Safety.lean ====
section
/-! DEFINITION. What the statements call a good state, a good run and a legal host (spec/10_state.md R44,
spec/60_exceptions.md R251, spec/70_reset_and_hazards.md R276). -/

namespace Sys2Proof.Machine

/-- INV1 (R44): the buffer is within BUF_CAP. -/
def withinCap (p : Params) (buf : List Byte) : Bool :=
  match p.bufCap with
  | none => true
  | some cap => decide (buf.length ≤ cap)

/-- The invariant every step keeps: legal parameters (R6), INV1 and INV2 (R44), the registry in its canonical form, no
overflow fault without a capacity (R39), and no cooperative pull pending beside an ITERATE (R250). -/
abbrev State.Inv (s : State) : Prop :=
  s.cfg.wf = true ∧ withinCap s.cfg s.buf = true ∧ Registry.canonical s.reg ∧ Registry.keyed s.cfg.statusFlags s.reg ∧
    (s.cfg.bufCap = none → s.ovfFault = false) ∧ (s.iter.isSome = true → s.coopPending = false)

/-- No sticky fault is set and no cooperative pull is pending: the consumer may pull (R240, R250). -/
abbrev State.mayPull (s : State) : Prop := s.cfgFault = false ∧ s.ovfFault = false ∧ s.coopPending = false

/-- The next step is the configurator's RESET. -/
def State.resetNext (s : State) : Bool :=
  match fetch s with
  | .run .reset _ => true
  | _ => false

/-- The bytes a pull asks the source for first: what is missing of the header, then of the frame (R195). -/
def missing (buf : List Byte) : Nat :=
  if buf.length < hdrSize then hdrSize - buf.length else frameSize buf - buf.length

/-- Run instructions one after the other, in the order one agent issues them; the first stop ends the run. -/
def runInstrs : List Instr → State → Host.Outcome State Fault Refusal
  | [], s => .next s
  | i :: is, s =>
    match exec i s with
    | .next t => runInstrs is t
    | .fault r => .fault r
    | .refused r => .refused r

/-- The records among the responses, in order. -/
def itemsOf (l : List Response) : List Record :=
  l.filterMap (fun r => match r with
    | .ok (.item rec) => some rec
    | _ => none)

/-- The bytes of a wire frame instruction, none for an operation. -/
def wireBytes (i : Instr) : List Byte :=
  match encode i with
  | .frame bs => bs
  | .command _ => []

/-- The two wire formats. -/
def isFrameInstr : Instr → Bool
  | .frameShort _ _ _ _ _ => true
  | .frameLong _ _ _ _ => true
  | _ => false

/-- The pure operations: the codec, packing and sub-decoder commands (R69). -/
def isPureInstr : Instr → Bool
  | .decHdr _ => true
  | .encHdr _ _ _ _ _ => true
  | .encLongHdr _ _ _ _ => true
  | .encFrame _ _ _ _ _ _ => true
  | .packFields _ => true
  | .packBits _ _ => true
  | .packFilter _ => true
  | .encBool _ => true
  | .decStatus _ => true
  | .decAdc _ => true
  | .unpackBits _ _ => true
  | .decBool _ => true
  | _ => false

/-- The header integer H of R81. -/
def headerInt (h : List Byte) : Nat :=
  (byteAt h 0).toNat + 2 ^ 8 * (byteAt h 1).toNat + 2 ^ 16 * (byteAt h 2).toNat + 2 ^ 24 * (byteAt h 3).toNat
    + 2 ^ 32 * (byteAt h 4).toNat + 2 ^ 40 * (byteAt h 5).toNat

/-- PACK_FIELDS has an encoding for this value in this type (R120): the conditions of the rule, item by item. -/
def packable : Ty × PackValue → Bool
  | (.u8, .int x) => decide (0 ≤ x ∧ x ≤ 255)
  | (.u16, .int x) => decide (0 ≤ x ∧ x ≤ 65535)
  | (.i16, .int x) => decide (-32768 ≤ x ∧ x ≤ 32767)
  | (.u32, .int x) => decide (0 ≤ x ∧ x ≤ 4294967295)
  | (.i32, .int x) => decide (-2147483648 ≤ x ∧ x ≤ 2147483647)
  | (.bytes n, .bytes bs) => decide (bs.length = n)
  | (.bits w n, .flags fl) => decide (fl.length = n) && (fl.drop (8 * w)).all (fun b => !b)
  | (.boolEnum w, .bool _) => decide (1 ≤ w)
  | _ => false

/-- Descriptors that lay named packed items back to back from offset o (R120, R67). -/
def layoutFrom (o : Nat) : List (String × Ty × PackValue) → List Desc
  | [] => []
  | (name, ty, _) :: rest => ⟨name, o, ty⟩ :: layoutFrom (o + width ty) rest

/-- The bytes an instruction feeds. -/
def fedBytes : Instr → List Byte
  | .feed bs => bs
  | _ => []

/-- The decoded form of a packed value (R46). -/
def decodedValue : PackValue → Value
  | .int x => .int x
  | .bytes bs => .bytes bs
  | .flags fl => .flags fl
  | .bool b => .bool b

/-- Every boolean-enum field of a frame holds 1 or 2 (R147). -/
def enumsLegal (g : List Byte) (ds : List Desc) : Bool :=
  ds.all (fun d => match d.ty with
    | .boolEnum w => decide (fieldNat g d.off w = 1 ∨ fieldNat g d.off w = 2)
    | _ => true)

/-- Duty 6 of R276 for the next pull of a buffer: every scripted answer it would take is of the alphabet of R196 for the
read it answers, up to the whole frame or the first answer that is not data (R195). -/
def sourceKeeps : List Byte → List Answer → Bool
  | _, [] => true
  | buf, .data bs :: rest =>
    decide (phase buf = .frameReady) || (answerLegal (missing buf) (.data bs) && sourceKeeps (buf ++ bs) rest)
  | _, .noneYet :: _ => true
  | _, .eof :: _ => true
  | _, .ioErr _ :: _ => true

/-- The bytes an answer to a read of n brings: its data, if it is of the alphabet (R196). -/
def answerBytes (n : Nat) : Answer → List Byte
  | .data bs => if answerLegal n (.data bs) then bs else []
  | .noneYet => []
  | .eof => []
  | .ioErr _ => []

/-- The bytes that reads of these sizes, made one after the other from a state, bring (R195, R196). -/
def bytesRead : State → List Nat → List Byte
  | _, [] => []
  | s, n :: ns => answerBytes n (readSource n s).1 ++ bytesRead (readSource n s).2 ns

/-- What R204 makes of the answer r that a PULL_CORE gives, as the pass of an ITERATE that has pulled `items` before it and
found the responses `out`: t is the state after the pull. -/
def iterateAfter (items : List Record) (out : List Response) (t : State) : Response → State
  | .ok (.item rec) => { t with out := out, iter := some (items ++ [rec]) }
  | .ok .notReady => { t with out := out ++ [.ok (.iterated items .notReady)], iter := none }
  | .ok .ended => { t with out := out ++ [.ok (.iterated items .ended)], iter := none }
  | .err (.sourceIo x) => { t with out := out ++ [.ok (.iterated items (.ioErr x))], iter := none }
  | r => { t with out := out ++ [r], iter := none }

/-- A run of the machine among its agents: before each step they issue further steps and the source scripts further answers,
in any way (R251, R196); then the machine steps. -/
def IsRun (r : Nat → State) (issued : Nat → List Event) (answers : Nat → List Answer) : Prop :=
  ∀ n, step ((r n).arrive (issued n) (answers n)) = .next (r (n + 1))

/-- Weak fairness (R251; duty 5 of R276): while a cooperative pull is pending, COOP_RESUME is taken again and again, or the
pull ends. -/
def CoopFair (r : Nat → State) (issued : Nat → List Event) (answers : Nat → List Answer) : Prop :=
  ∀ n, (r n).coopPending = true →
    ∃ m, n ≤ m ∧ ((r m).coopPending = false ∨ ∃ t, fetch ((r m).arrive (issued m) (answers m)) = .run .coopResume t)

end Sys2Proof.Machine
end

