-- ==== Sys2Proof/Certificates/Slice0/Obligations.lean ====
section
/-! DEFINITION. The statements for the provers. Each docstring names the rule of spec/ it formalises. -/

open Sys2Proof Sys2Proof.Machine

/-! ### The step, the decoder and the encoder -/

/-- R90, R251: the step takes the next command of the total order and runs the instruction it decodes to, in the state with
that command taken. (A consumer command waits while an ITERATE runs: log entry 9.) -/
def Obligations.StepRunsIssuedCommand : Prop :=
  ∀ (s : State) (c : Command) (rest : List Event) (i : Instr),
    s.inbox = .command c :: rest → decodeCommand c = .ok i → (s.iter = none ∨ isConsumerCode c.code = false) →
      step s = exec i { s with inbox := rest }

/-- R31, R204: a pass of the ITERATE in progress takes its frame from the head of the stream buffer: the step runs the frame
instruction decoded there. The turn is the ITERATE's when nothing else is issued, when the scheduler gives it the turn, and
when the next command is the consumer's own (log entries 8 and 9). -/
def Obligations.StepRunsHeadFrameOfIterate : Prop :=
  ∀ (s : State) (items : List Record) (i : Instr) (tail : List Byte),
    s.iter = some items → decodeFrame s.buf = .ok (i, tail) →
      (s.inbox = [] → step s = exec i s) ∧
      (∀ rest, s.inbox = .turn :: rest → step s = exec i { s with inbox := rest }) ∧
      (∀ c rest, s.inbox = .command c :: rest → isConsumerCode c.code = true → step s = exec i s)

/-- R90, U12: a command code from 10101 to 11111, whatever its operands, is refused with IllegalCommand(UNDEFINED) and
nothing of S is written. -/
def Obligations.UndefinedCodesAreRefused : Prop :=
  ∀ (s : State) (c : Command) (rest : List Event), s.inbox = .command c :: rest → 21 ≤ c.code.toNat →
    step s = .next (({ s with inbox := rest } : State).respond (.err (.illegalCommand .undefined)))

/-- R80 to R85, R90: decoding the encoding of a well-formed instruction, with every operand, gives the instruction back. -/
def Obligations.DecodeInvertsEncode : Prop :=
  ∀ i : Instr, i.wellFormed = true → decode (encode i) = .ok i

/-- R82, R83, R88: a frame is read off the head of a byte stream whatever follows it, and what follows is left as it is. -/
def Obligations.FrameDecodesFromHeadOfStream : Prop :=
  ∀ (i : Instr) (bs tail : List Byte), i.wellFormed = true → encode i = .frame bs →
    decodeFrame (bs ++ tail) = .ok (i, tail) ∧ bs.length = frameSize bs

/-- R80, R81, R87: every whole frame at the head of a stream is the encoding of the well-formed instruction read from it; no
bit of a frame is dropped, and no header is illegal. -/
def Obligations.DecodedFrameReencodes : Prop :=
  ∀ bs : List Byte, 6 ≤ bs.length → frameSize bs ≤ bs.length →
    ∃ i tail f, decodeFrame bs = .ok (i, tail) ∧ i.wellFormed = true ∧ isFrameInstr i = true ∧ encode i = .frame f ∧
      bs = f ++ tail ∧ f.length = frameSize bs

/-- R81. -/
def Obligations.HeaderFieldsAreBitSlices : Prop :=
  ∀ h : List Byte, 6 ≤ h.length →
    let H : BitVec 48 := BitVec.ofNat 48 (headerInt h)
    headerInt h < 2 ^ 48 ∧ hdrMsgid h = H.extractLsb' 0 16 ∧ byteAt h 2 = H.extractLsb' 16 8 ∧
      byteAt h 3 = H.extractLsb' 24 8 ∧ hdrLength h = H.extractLsb' 16 16 ∧ hdrDest h = H.extractLsb' 32 7 ∧
      hdrIsLong h = H.getLsbD 39 ∧ hdrSource h = H.extractLsb' 40 8

/-- R89. -/
def Obligations.FormatRowsPartitionHeaders : Prop :=
  ∀ h : List Byte, 6 ≤ h.length →
    (headerInt h &&& 0x008000000000 = 0x000000000000 ∨ headerInt h &&& 0x008000000000 = 0x008000000000) ∧
    ∀ i tail, decodeFrame h = .ok (i, tail) →
      ((∃ m p1 p2 d so, i = .frameShort m p1 p2 d so) ↔ headerInt h &&& 0x008000000000 = 0x000000000000) ∧
      ((∃ m d so pl, i = .frameLong m d so pl) ↔ headerInt h &&& 0x008000000000 = 0x008000000000)

/-- R83. -/
def Obligations.FrameSizeFromHeader : Prop :=
  ∀ f g : List Byte, 6 ≤ f.length →
    frameSize f = (if 128 ≤ (byteAt f 4).toNat then 6 + ((byteAt f 2).toNat + 256 * (byteAt f 3).toNat) else 6) ∧
    6 ≤ frameSize f ∧ frameSize f ≤ 65541 ∧ frameSize (f.take 6 ++ g) = frameSize f

/-- R89, R90 (sanity): words written out from the encodings decode to the instructions they stand for. -/
def Obligations.TableWordsDecode : Prop :=
  decodeTableWord 48 0x112201031001 = some (.frameShort 0x1001 0x03 0x01 0x22 0x11) ∧
  decodeTableWord 48 0x508100041004 = some (.frameLong 0x1004 0x01 0x50 [0, 0, 0, 0]) ∧
  decodeTableWord 8 0b00011 = some .pull ∧ decodeTableWord 8 0b00010 = some (.feed []) ∧
  decodeTableWord 8 0b10010 = some (.decAdc 0) ∧ decodeTableWord 8 0b10101 = none

/-! ### The header codec -/

/-- R100. -/
def Obligations.DecHdrAnswersHeaderTuple : Prop :=
  ∀ (h : List Byte) (s : State),
    encode (.decHdr h) = .command ⟨0b01001#5, .bytes h⟩ ∧
    exec (.decHdr h) s = .next (s.respond (
      if h.length < 6 then .err (.format (.shortHeader h.length 6))
      else .ok (.header {
        msgid := BitVec.ofNat 16 ((byteAt h 0).toNat + 256 * (byteAt h 1).toNat),
        lengthOrZero :=
          if 128 ≤ (byteAt h 4).toNat then BitVec.ofNat 16 ((byteAt h 2).toNat + 256 * (byteAt h 3).toNat) else 0,
        dest := BitVec.ofNat 7 ((byteAt h 4).toNat % 128),
        source := byteAt h 5,
        isLong := decide (128 ≤ (byteAt h 4).toNat),
        param1 := byteAt h 2,
        param2 := byteAt h 3 })))

/-- R101. -/
def Obligations.EncHdrAnswersShortHeader : Prop :=
  ∀ (msgid dest source param1 param2 : Int) (s : State),
    encode (.encHdr msgid dest source param1 param2)
      = .command ⟨0b01010#5, .hdr msgid dest source (some param1) (some param2)⟩ ∧
    exec (.encHdr msgid dest source param1 param2) s = .next (s.respond (
      if ¬ (0 ≤ msgid ∧ msgid ≤ 65535) then .err (.range .msgid (.int msgid) 16)
      else if ¬ (0 ≤ dest ∧ dest ≤ 127) then .err (.range .dest (.int dest) 7)
      else if ¬ (0 ≤ source ∧ source ≤ 255) then .err (.range .source (.int source) 8)
      else if ¬ (0 ≤ param1 ∧ param1 ≤ 255) then .err (.range .param1 (.int param1) 8)
      else if ¬ (0 ≤ param2 ∧ param2 ≤ 255) then .err (.range .param2 (.int param2) 8)
      else .ok (.bytes [BitVec.ofInt 8 (msgid % 256), BitVec.ofInt 8 (msgid / 256), BitVec.ofInt 8 param1,
        BitVec.ofInt 8 param2, BitVec.ofInt 8 dest, BitVec.ofInt 8 source])))

/-- R102. -/
def Obligations.EncLongHdrAnswersLongHeader : Prop :=
  ∀ (msgid dest source payloadLen : Int) (s : State),
    encode (.encLongHdr msgid dest source payloadLen) = .command ⟨0b01011#5, .longHdr msgid dest source payloadLen⟩ ∧
    exec (.encLongHdr msgid dest source payloadLen) s = .next (s.respond (
      if ¬ (0 ≤ msgid ∧ msgid ≤ 65535) then .err (.range .msgid (.int msgid) 16)
      else if ¬ (0 ≤ dest ∧ dest ≤ 127) then .err (.range .dest (.int dest) 7)
      else if ¬ (0 ≤ source ∧ source ≤ 255) then .err (.range .source (.int source) 8)
      else if ¬ (0 ≤ payloadLen ∧ payloadLen ≤ 65535) then .err (.range .payloadLen (.int payloadLen) 16)
      else .ok (.bytes [BitVec.ofInt 8 (msgid % 256), BitVec.ofInt 8 (msgid / 256), BitVec.ofInt 8 (payloadLen % 256),
        BitVec.ofInt 8 (payloadLen / 256), BitVec.ofInt 8 (dest + 128), BitVec.ofInt 8 source])))

/-- R103: the conflict is checked before any range; with a payload the long header's checks follow, with |payload| as the
length. -/
def Obligations.EncFrameAnswersWholeFrame : Prop :=
  ∀ (msgid dest source param1 param2 : Int) (s : State),
    (∀ payload, encode (.encFrame msgid dest source param1 param2 payload)
      = .command ⟨0b01100#5, .frame msgid dest source param1 param2 payload⟩) ∧
    (exec (.encFrame msgid dest source param1 param2 none) s = exec (.encHdr msgid dest source param1 param2) s) ∧
    (∀ pl : List Byte, exec (.encFrame msgid dest source param1 param2 (some pl)) s = .next (s.respond (
      if param1 ≠ 0 ∨ param2 ≠ 0 then .err (.paramPayloadConflict param1 param2)
      else if ¬ (0 ≤ msgid ∧ msgid ≤ 65535) then .err (.range .msgid (.int msgid) 16)
      else if ¬ (0 ≤ dest ∧ dest ≤ 127) then .err (.range .dest (.int dest) 7)
      else if ¬ (0 ≤ source ∧ source ≤ 255) then .err (.range .source (.int source) 8)
      else if 65535 < pl.length then .err (.range .payloadLen (.int pl.length) 16)
      else .ok (.bytes ([BitVec.ofInt 8 (msgid % 256), BitVec.ofInt 8 (msgid / 256), BitVec.ofNat 8 (pl.length % 256),
        BitVec.ofNat 8 (pl.length / 256), BitVec.ofInt 8 (dest + 128), BitVec.ofInt 8 source] ++ pl)))))

/-- R104: the header round-trip laws, through the operations' responses. -/
def Obligations.HeaderRoundTripLaws : Prop :=
  ∀ (s : State) (m n : BitVec 16) (d : Dest) (so p1 p2 : Byte),
    (∃ bs, exec (.encHdr m.toNat d.toNat so.toNat p1.toNat p2.toNat) s = .next (s.respond (.ok (.bytes bs))) ∧
      exec (.decHdr bs) s = .next (s.respond (.ok (.header
        { msgid := m, lengthOrZero := 0, dest := d, source := so, isLong := false, param1 := p1, param2 := p2 })))) ∧
    (∃ bs, exec (.encLongHdr m.toNat d.toNat so.toNat n.toNat) s = .next (s.respond (.ok (.bytes bs))) ∧
      exec (.decHdr bs) s = .next (s.respond (.ok (.header
        { msgid := m, lengthOrZero := n, dest := d, source := so, isLong := true,
          param1 := n.extractLsb' 0 8, param2 := n.extractLsb' 8 8 })))) ∧
    (∀ (msgid dest source param1 param2 : Int) (pl : Option (List Byte)) (bs : List Byte),
      exec (.encFrame msgid dest source param1 param2 pl) s = .next (s.respond (.ok (.bytes bs))) →
        frameSize bs = bs.length)

/-! ### Payload packing and the sub-decoders -/

/-- R120, R67: a list of items that the rule can encode is answered with the items' bytes, back to back, with no padding: an
integer little-endian in two's complement, a byte string as it is, a bitmask with bit i flag i and no other bit set, a boolean
as 1 or 2 in w bytes. (Widths that no registry entry may have: log entry 13.) -/
def Obligations.PackFieldsCompletes : Prop :=
  ∀ (items : List (Ty × PackValue)) (s : State), (∀ p ∈ items, packable p = true) →
    ∃ bss : List (List Byte), exec (.packFields items) s = .next (s.respond (.ok (.bytes bss.flatten))) ∧
      bss.flatten.length = (items.map (fun p => width p.1)).sum ∧
      List.Forall₂ (fun p bs => bs.length = width p.1 ∧
        (∀ x, p.2 = .int x → ∀ i, i < width p.1 → byteAt bs i = BitVec.ofInt 8 (x / 256 ^ i)) ∧
        (∀ v, p.2 = .bytes v → bs = v) ∧
        (∀ fl, p.2 = .flags fl → ∀ i, i < 8 * width p.1 → (byteAt bs (i / 8)).getLsbD (i % 8) = fl.getD i false) ∧
        (∀ b, p.2 = .bool b → bs = (if b then 1 else 2) :: List.replicate (width p.1 - 1) 0)) items bss

/-- The source's round-trip property (spec/95_test_vectors.md S9; R120, R103, R143): values packed back to back, framed, and
dispatched through an entry that lays its descriptors the same way, come back as they were. (The types are those an entry may
hold: R36.) -/
def Obligations.PackedFrameDispatchesBack : Prop :=
  ∀ (items : List (String × Ty × PackValue)) (m : MsgId) (d : Dest) (so : Byte) (name : String) (s : State),
    (∀ p ∈ items, packable p.2 = true ∧ tyWF p.2.1 = true) → (items.map (fun p => width p.2.1)).sum ≤ 65535 →
    s.cfgFault = false → Registry.find m s.reg = some ⟨m.toNat, name, layoutFrom 6 items⟩ →
    ∃ bs f, exec (.packFields (items.map Prod.snd)) s = .next (s.respond (.ok (.bytes bs))) ∧
      exec (.encFrame m.toNat d.toNat so.toNat 0 0 (some bs)) s = .next (s.respond (.ok (.bytes f))) ∧
      exec (.dispatch f) s = .next (({ s with sealed := true } : State).respond (.ok (.record
        { kind := .known, name := name, msgid := m, dest := d, source := so,
          fields := items.map (fun p => (p.1, decodedValue p.2.2)), error := none })))

/-- R120, R239: items are checked in list order; a decode-only type is refused; an integer outside its type's range, and a
byte string or a flag list of another length, are RangeErrors naming the item; a true flag outside its field, of whatever
width, is PACK_BITS's RangeError (log entry 13). -/
def Obligations.PackFieldsReportsFirstBadItem : Prop :=
  ∀ (pre post : List (Ty × PackValue)) (s : State), (∀ p ∈ pre, packable p = true) →
    (∀ ty v, (ty = .status32 ∨ ty = .adc16) →
      exec (.packFields (pre ++ (ty, v) :: post)) s
        = .next (s.respond (.err (.illegalCommand (.badOperand (some pre.length)))))) ∧
    (∀ ty lo hi x, (ty, lo, hi) ∈ [(Ty.u8, (0 : Int), (255 : Int)), (.u16, 0, 65535), (.i16, -32768, 32767),
        (.u32, 0, 4294967295), (.i32, -2147483648, 2147483647)] → (x < lo ∨ hi < x) →
      exec (.packFields (pre ++ (ty, .int x) :: post)) s
        = .next (s.respond (.err (.range (.item pre.length) (.int x) (8 * width ty))))) ∧
    (∀ n bs, bs.length ≠ n →
      exec (.packFields (pre ++ (.bytes n, .bytes bs) :: post)) s
        = .next (s.respond (.err (.range (.item pre.length) (.bytes bs) (8 * n))))) ∧
    (∀ w n fl, fl.length ≠ n →
      exec (.packFields (pre ++ (.bits w n, .flags fl) :: post)) s
        = .next (s.respond (.err (.range (.item pre.length) (.flags fl) (8 * w))))) ∧
    (∀ w fl i, 8 * w ≤ i → fl.getD i false = true → ∃ m : Nat, (∀ j, m.testBit j = fl.getD j false) ∧
      exec (.packFields (pre ++ (.bits w fl.length, .flags fl) :: post)) s
        = .next (s.respond (.err (.range .flags (.int m) (8 * w)))))

/-- R121. -/
def Obligations.PackBitsAnswersMask : Prop :=
  ∀ (w : Nat) (fl : List Bool) (s : State), (w = 1 ∨ w = 2 ∨ w = 4) →
    ∃ m : Nat, (∀ i, m.testBit i = fl.getD i false) ∧
      (m < 2 ^ (8 * w) ↔ ∀ i, 8 * w ≤ i → fl.getD i false = false) ∧
      encode (.packBits w fl) = .command ⟨0b01110#5, .flags w fl⟩ ∧
      exec (.packBits w fl) s = .next (s.respond (
        if m < 2 ^ (8 * w) then .ok (.int m) else .err (.range .flags (.int m) (8 * w)))) ∧
      (m < 2 ^ (8 * w) → exec (.unpackBits m fl.length) s = .next (s.respond (.ok (.flags fl))))

/-- R122. -/
def Obligations.PackFilterAnswersValuesAndMask : Prop :=
  ∀ (opts : List (Option Int)) (s : State), ∃ (vals : List Int) (mask : Nat),
    encode (.packFilter opts) = .command ⟨0b01111#5, .opts opts⟩ ∧
    exec (.packFilter opts) s = .next (s.respond (.ok (.filter vals mask))) ∧ vals.length = opts.length ∧
    (∀ i x, opts[i]? = some (some x) → vals[i]? = some x ∧ mask.testBit i = true) ∧
    (∀ i, opts[i]? = some none → vals[i]? = some 0 ∧ mask.testBit i = false) ∧
    (∀ i, opts.length ≤ i → mask.testBit i = false)

/-- R123. -/
def Obligations.EncBoolAnswersOneOrTwo : Prop :=
  ∀ (b : Bool) (s : State), encode (.encBool b) = .command ⟨0b10000#5, .bool b⟩ ∧
    exec (.encBool b) s = .next (s.respond (.ok (.int (if b then 1 else 2))))

/-- R170: one boolean per STATUS_FLAGS entry, in its order, from its bit; no other bit of the word matters. -/
def Obligations.DecStatusAnswersNamedBits : Prop :=
  ∀ (w : BitVec 32) (s : State), ∃ out : List (String × Bool),
    encode (.decStatus w) = .command ⟨0b10001#5, .int w.toNat⟩ ∧
    exec (.decStatus w) s = .next (s.respond (.ok (.status out))) ∧ out.length = s.cfg.statusFlags.length ∧
    ∀ (i : Nat) (name : String) (pos : Fin 32), s.cfg.statusFlags[i]? = some (name, pos) →
      out[i]? = some (name, decide (w.toNat / 2 ^ pos.val % 2 = 1))

/-- R172: exact, unsigned, and always below 10. -/
def Obligations.DecAdcAnswersExactVoltage : Prop :=
  ∀ (raw : BitVec 16) (s : State), ∃ q : ℚ, encode (.decAdc raw) = .command ⟨0b10010#5, .int raw.toNat⟩ ∧
    exec (.decAdc raw) s = .next (s.respond (.ok (.volt q))) ∧ q = (raw.toNat : ℚ) * 5 / 32768 ∧ 0 ≤ q ∧ q < 10

/-- R173. -/
def Obligations.UnpackBitsAnswersLowBits : Prop :=
  ∀ (v n : Nat) (s : State), 1 ≤ n → ∃ out : List Bool, encode (.unpackBits v n) = .command ⟨0b10011#5, .intCount v n⟩ ∧
    exec (.unpackBits v n) s = .next (s.respond (.ok (.flags out))) ∧ out.length = n ∧
    ∀ i, i < n → out[i]? = some (decide (v / 2 ^ i % 2 = 1))

/-- R174. -/
def Obligations.DecBoolAnswersOnlyOneAndTwo : Prop :=
  ∀ (v : Nat) (s : State), encode (.decBool v) = .command ⟨0b10100#5, .int v⟩ ∧
    exec (.decBool v) s = .next (s.respond (
      if v = 1 then .ok (.bool true) else if v = 2 then .ok (.bool false) else .err (.format (.badEnumValue v))))

/-- R176. -/
def Obligations.BitfieldFidelityLaws : Prop :=
  ∀ s : State,
    (∀ (w : Nat) (fl : List Bool), (w = 1 ∨ w = 2 ∨ w = 4) → (∀ i, 8 * w ≤ i → fl.getD i false = false) →
      ∃ m, exec (.packBits w fl) s = .next (s.respond (.ok (.int m))) ∧
        exec (.unpackBits m fl.length) s = .next (s.respond (.ok (.flags fl)))) ∧
    (∀ b : Bool, ∃ v, exec (.encBool b) s = .next (s.respond (.ok (.int v))) ∧
      exec (.decBool v) s = .next (s.respond (.ok (.bool b)))) ∧
    (∀ w : BitVec 32, ∃ out, exec (.decStatus w) s = .next (s.respond (.ok (.status out))) ∧
      ∀ p ∈ s.cfg.statusFlags, (p.1, w.getLsbD p.2) ∈ out)

/-! ### The registry and the dispatch multiplexer -/

/-- R140, with the priority order of R238. -/
def Obligations.RegisterOutcome : Prop :=
  ∀ (e : Entry) (s : State),
    encode (.register e) = .command ⟨0b00001#5, .entry e⟩ ∧
    (s.cfgFault = true → exec (.register e) s = .next (s.respond (.err (.configuration .fatal)))) ∧
    (s.cfgFault = false → s.sealed = true →
      exec (.register e) s = .next (({ s with cfgFault := true } : State).respond (.err (.configuration (.sealed e.msgid))))) ∧
    (s.cfgFault = false → s.sealed = false → entryWF s.cfg.statusFlags e = false →
      exec (.register e) s = .next (({ s with cfgFault := true } : State).respond (.err (.configuration (.badEntry e.msgid))))) ∧
    (s.cfgFault = false → s.sealed = false → entryWF s.cfg.statusFlags e = true →
      Registry.find (BitVec.ofInt 16 e.msgid) s.reg ≠ none →
      exec (.register e) s = .next (({ s with cfgFault := true } : State).respond (.err (.configuration (.duplicate e.msgid))))) ∧
    (s.cfgFault = false → s.sealed = false → entryWF s.cfg.statusFlags e = true →
      Registry.find (BitVec.ofInt 16 e.msgid) s.reg = none →
      ∃ reg', exec (.register e) s = .next (({ s with reg := reg' } : State).respond (.ok .unit)) ∧
        Registry.find (BitVec.ofInt 16 e.msgid) reg' = some e ∧
        ∀ k, k ≠ BitVec.ofInt 16 e.msgid → Registry.find k reg' = Registry.find k s.reg)

/-- R36: the conditions of WF, and REGISTER's answer to an entry that fails them. -/
def Obligations.EntryWellFormedIff : Prop :=
  ∀ (fl : List (String × Fin 32)) (e : Entry),
    (entryWF fl e = true ↔
      (0 ≤ e.msgid ∧ e.msgid ≤ 65535) ∧ e.name ≠ "" ∧ e.name ≠ "unknown" ∧
      (∀ (i j : Nat) (d1 d2 : Desc), e.fields[i]? = some d1 → e.fields[j]? = some d2 → d1.fname = d2.fname → i = j) ∧
      (∀ d ∈ e.fields, d.fname ≠ "name" ∧ d.fname ≠ "msgid" ∧ d.fname ≠ "dest" ∧ d.fname ≠ "source" ∧ d.fname ≠ "kind") ∧
      (∀ (i j : Nat) (d1 d2 : Desc), e.fields[i]? = some d1 → e.fields[j]? = some d2 → d1.ty = .status32 →
        d2.ty = .status32 → i = j) ∧
      ((∃ d ∈ e.fields, d.ty = .status32) → ∀ d ∈ e.fields, ∀ p ∈ fl, d.fname ≠ p.1) ∧
      (∀ d ∈ e.fields, d.off + width d.ty ≤ 65541) ∧
      (∀ d ∈ e.fields, ∀ n, d.ty = .bytes n → 1 ≤ n) ∧
      (∀ d ∈ e.fields, ∀ w n, d.ty = .bits w n → (w = 1 ∨ w = 2 ∨ w = 4) ∧ 1 ≤ n ∧ n ≤ 8 * w) ∧
      (∀ d ∈ e.fields, ∀ w, d.ty = .boolEnum w → (w = 1 ∨ w = 2))) ∧
    ∀ s : State, s.cfg.statusFlags = fl → s.cfgFault = false → s.sealed = false → entryWF fl e = false →
      exec (.register e) s = .next (({ s with cfgFault := true } : State).respond (.err (.configuration (.badEntry e.msgid))))

/-- R147: the multiplexer's decision table, for a registry that satisfies INV2 of R44. The BAD_ENUM answered is that of the
first descriptor in entry order whose field is neither 1 nor 2, and it is the error the field decoder reports. -/
def Obligations.DispatchDecisionTable : Prop :=
  ∀ (f : List Byte) (s : State), s.cfgFault = false → Registry.keyed s.cfg.statusFlags s.reg →
    let k := hdrMsgid f
    let n := min f.length (frameSize f)
    let t : State := { s with sealed := true }
    (f.length < 6 → exec (.dispatch f) s = .next (t.respond (.err (.format (.shortHeader f.length 6))))) ∧
    (6 ≤ f.length → Registry.find k s.reg = none →
      exec (.dispatch f) s = .next (t.respond (.err (.unknownMessage k (hdrDest f) (hdrSource f))))) ∧
    (∀ e, 6 ≤ f.length → Registry.find k s.reg = some e → n < minSize e.fields →
      exec (.dispatch f) s
        = .next (t.respond (.err (.format (.tooShort k (hdrDest f) (hdrSource f) n (minSize e.fields)))))) ∧
    (∀ e, 6 ≤ f.length → Registry.find k s.reg = some e → minSize e.fields ≤ n → enumsLegal (f.take n) e.fields = false →
      ∃ pre d w post, e.fields = pre ++ d :: post ∧ enumsLegal (f.take n) pre = true ∧ d.ty = .boolEnum w ∧
        fieldNat (f.take n) d.off w ≠ 1 ∧ fieldNat (f.take n) d.off w ≠ 2 ∧
        decodeFields s.cfg.statusFlags (f.take n) e.fields
          = .error (.badEnum k (hdrDest f) (hdrSource f) d.fname (fieldNat (f.take n) d.off w)) ∧
        exec (.dispatch f) s = .next (t.respond
          (.err (.format (.badEnum k (hdrDest f) (hdrSource f) d.fname (fieldNat (f.take n) d.off w)))))) ∧
    (∀ e, 6 ≤ f.length → Registry.find k s.reg = some e → minSize e.fields ≤ n → enumsLegal (f.take n) e.fields = true →
      ∃ fields, decodeFields s.cfg.statusFlags (f.take n) e.fields = .ok fields ∧
        exec (.dispatch f) s = .next (t.respond (.ok (.record
          { kind := .known, name := e.name, msgid := k, dest := hdrDest f, source := hdrSource f, fields := fields,
            error := none }))))

/-- R146, for registries that satisfy INV2: the response is a function of the frame, the registry, cfg_fault and STATUS_FLAGS
alone, and `sealed` is the only element of S written. -/
def Obligations.DispatchIsPure : Prop :=
  ∀ (f : List Byte) (s1 s2 : State), s1.reg = s2.reg → s1.cfgFault = s2.cfgFault →
    s1.cfg.statusFlags = s2.cfg.statusFlags → Registry.keyed s1.cfg.statusFlags s1.reg →
    ∃ r, exec (.dispatch f) s1 = .next (({ s1 with sealed := s1.sealed || !s1.cfgFault } : State).respond r) ∧
      exec (.dispatch f) s2 = .next (({ s2 with sealed := s2.sealed || !s2.cfgFault } : State).respond r)

/-- R143: what each descriptor type reads, in arithmetic on the frame's bytes; the fields of a descriptor list are those of
its descriptors, in its order (R141), and the first failing descriptor is the one reported. -/
def Obligations.FieldExtractionValues : Prop :=
  ∀ (fl : List (String × Fin 32)) (g : List Byte) (x : String) (o : Nat),
    let b := fun i => (byteAt g (o + i)).toNat
    let v16 : Int := b 0 + 256 * b 1
    let v32 : Int := b 0 + 256 * b 1 + 65536 * b 2 + 16777216 * b 3
    let u := fun w : Nat => if w = 1 then b 0 else if w = 2 then v16.toNat else v32.toNat
    decodeField fl g ⟨x, o, .u8⟩ = .ok [(x, .int (b 0))] ∧
    decodeField fl g ⟨x, o, .u16⟩ = .ok [(x, .int v16)] ∧
    decodeField fl g ⟨x, o, .i16⟩ = .ok [(x, .int (if v16 < 32768 then v16 else v16 - 65536))] ∧
    decodeField fl g ⟨x, o, .u32⟩ = .ok [(x, .int v32)] ∧
    decodeField fl g ⟨x, o, .i32⟩ = .ok [(x, .int (if v32 < 2147483648 then v32 else v32 - 4294967296))] ∧
    (∀ n, decodeField fl g ⟨x, o, .bytes n⟩ = .ok [(x, .bytes (sub g o n))]) ∧
    decodeField fl g ⟨x, o, .status32⟩ = .ok (fl.map (fun p => (p.1, .bool (decide (v32.toNat / 2 ^ p.2.val % 2 = 1))))) ∧
    decodeField fl g ⟨x, o, .adc16⟩ = .ok [(x, .volt ((v16 : ℚ) * 5 / 32768))] ∧
    (∀ w n, (w = 1 ∨ w = 2 ∨ w = 4) → decodeField fl g ⟨x, o, .bits w n⟩
      = .ok [(x, .flags ((List.range n).map (fun i => decide (u w / 2 ^ i % 2 = 1))))]) ∧
    (∀ w, (w = 1 ∨ w = 2) → decodeField fl g ⟨x, o, .boolEnum w⟩ =
      if u w = 1 then .ok [(x, .bool true)] else if u w = 2 then .ok [(x, .bool false)]
      else .error (.badEnum (hdrMsgid g) (hdrDest g) (hdrSource g) x (u w))) ∧
    (∀ pre d post i fs, decodeFields fl g pre = .ok fs → decodeField fl g d = .error i →
      decodeFields fl g (pre ++ d :: post) = .error i) ∧
    (∀ ds fss, List.Forall₂ (fun d fs => decodeField fl g d = .ok fs) ds fss → decodeFields fl g ds = .ok fss.flatten)

/-- R37, R38, R39, R44 (INV3), R72: but for RESET, no step clears `sealed`, `cfg_fault` or `ovf_fault`, and no step changes
the registry once it is sealed. -/
def Obligations.SealAndFaultsAreSticky : Prop :=
  ∀ s t : State, step s = .next t → s.resetNext = false →
    (s.sealed = true → t.sealed = true ∧ t.reg = s.reg) ∧ (s.cfgFault = true → t.cfgFault = true) ∧
      (s.ovfFault = true → t.ovfFault = true)

/-! ### The streaming unpacker -/

/-- R190. -/
def Obligations.FeedOutcome : Prop :=
  ∀ (bs : List Byte) (s : State),
    encode (.feed bs) = .command ⟨0b00010#5, .bytes bs⟩ ∧
    (s.cfgFault = true → exec (.feed bs) s = .next (s.respond (.err (.configuration .fatal)))) ∧
    (s.cfgFault = false → s.ovfFault = true → exec (.feed bs) s = .next (s.respond (.err (.bufferOverflow .fatal)))) ∧
    (∀ cap, s.cfgFault = false → s.ovfFault = false → s.cfg.bufCap = some cap → cap < s.buf.length + bs.length →
      exec (.feed bs) s = .next (({ s with ovfFault := true } : State).respond
        (.err (.bufferOverflow (.feed s.buf.length bs.length cap))))) ∧
    (s.cfgFault = false → s.ovfFault = false → (∀ cap, s.cfg.bufCap = some cap → s.buf.length + bs.length ≤ cap) →
      exec (.feed bs) s = .next (({ s with buf := s.buf ++ bs } : State).respond (.ok .unit)))

/-- R191, R192: a pull without a source answers NotReady and keeps every byte while no whole frame is buffered; else it
answers the record of the head frame and removes that frame. -/
def Obligations.PullWithoutSource : Prop :=
  ∀ s : State, s.mayPull → s.cfg.sourceAttached = false → Registry.keyed s.cfg.statusFlags s.reg →
    (phase s.buf ≠ .frameReady → exec .pull s = .next (s.respond (.ok .notReady))) ∧
    (phase s.buf = .frameReady → ∃ rec ds, ds.length ≤ 1 ∧
      exec .pull s = .next (({ s with buf := s.buf.drop (frameSize s.buf), sealed := true, diag := s.diag ++ ds } : State).respond
        (.ok (.item rec))))

/-- R193: what a pull makes of the three outcomes of the dispatch of the head frame, attached source or not. -/
def Obligations.EmissionFollowsDispatch : Prop :=
  ∀ (s : State) (r : Response), s.mayPull → phase s.buf = .frameReady → Registry.keyed s.cfg.statusFlags s.reg →
    let n := frameSize s.buf
    let f := s.buf.take n
    let t : State := { s with buf := s.buf.drop n, sealed := true }
    exec (.dispatch f) s = .next (({ s with sealed := true } : State).respond r) →
    (∀ rec, r = .ok (.record rec) → exec .pull s = .next (t.respond (.ok (.item rec)))) ∧
    (∀ m d so, r = .err (.unknownMessage m d so) →
      exec .pull s = .next (({ t with diag := s.diag ++ [.unknown m d so n] } : State).respond (.ok (.item
        { kind := .unknown, name := "unknown", msgid := m, dest := d, source := so, fields := [], error := none })))) ∧
    (∀ i, r = .err (.format i) → ∃ e, Registry.find (hdrMsgid f) s.reg = some e ∧
      exec .pull s = .next (({ t with diag := s.diag ++ [.malformed (hdrMsgid f) (hdrDest f) (hdrSource f) n i] } : State).respond
        (.ok (.item { kind := .malformed, name := e.name, msgid := hdrMsgid f, dest := hdrDest f, source := hdrSource f,
                      fields := [], error := some i }))))

/-- R62, R194, R197: what a step other than RESET does to the buffer. A FEED appends its operand's bytes, or nothing. Any other
step appends the bytes that its reads of the source bring (none without a source, or with a whole frame buffered), and removes
nothing, or from the head of that exactly the bytes the first header declares. (A pass overtaken by a configuration fault reads
like any other: log entry 10.) -/
def Obligations.StepsConsumeWholeFrames : Prop :=
  ∀ s t : State, step s = .next t → s.resetNext = false →
    ∃ sizes : List Nat, t.reads = s.reads ++ sizes ∧ t.src = s.src.drop sizes.length ∧
      ((s.cfg.sourceAttached = false ∨ phase s.buf = .frameReady) → sizes = []) ∧
      (∀ bs u, fetch s = .run (.feed bs) u → sizes = [] ∧ (t.buf = s.buf ∨ t.buf = s.buf ++ bs)) ∧
      ((∀ bs u, fetch s ≠ .run (.feed bs) u) →
        let buf := s.buf ++ bytesRead s sizes
        t.buf = buf ∨ (phase buf = .frameReady ∧ t.buf = buf.drop (frameSize buf)))

/-- R195, R196, R198, R199, R241: with no whole frame buffered a pull asks the source for exactly the missing bytes; NoneYet
answers NotReady, Eof answers End, an I/O error is passed through unchanged, and the buffer is kept. An answer outside the
alphabet has no step (the model stops: log entry 6). -/
def Obligations.PullEndsAtFirstNonData : Prop :=
  ∀ (s : State) (rest : List Answer), s.mayPull → s.cfg.sourceAttached = true → phase s.buf ≠ .frameReady →
    let t : State := { s with src := rest, reads := s.reads ++ [missing s.buf] }
    (s.src = .noneYet :: rest → exec .pull s = .next (t.respond (.ok .notReady))) ∧
    (s.src = .eof :: rest → exec .pull s = .next (t.respond (.ok .ended))) ∧
    (∀ x, s.src = .ioErr x :: rest → exec .pull s = .next (t.respond (.err (.sourceIo x)))) ∧
    (∀ bs, s.src = .data bs :: rest → (bs.length = 0 ∨ missing s.buf < bs.length) →
      exec .pull s = .fault .sourceOutsideAlphabet)

/-- R195: a data answer is appended and the pull goes on as a pull of the longer buffer. -/
def Obligations.PullReadsOnAfterData : Prop :=
  ∀ (s : State) (bs : List Byte) (rest : List Answer), s.mayPull → s.cfg.sourceAttached = true →
    phase s.buf ≠ .frameReady → s.src = .data bs :: rest → 1 ≤ bs.length → bs.length ≤ missing s.buf →
      exec .pull s = exec .pull { s with buf := s.buf ++ bs, src := rest, reads := s.reads ++ [missing s.buf] }

/-- R195, R276 (6): with a source whose scripted answers are legal for the reads they answer, every pull operation completes. -/
def Obligations.PullsCompleteWithLegalSource : Prop :=
  ∀ s : State, sourceKeeps s.buf s.src = true → s.cfgFault = false → s.ovfFault = false →
    (s.coopPending = false → (∃ t, exec .pull s = .next t) ∧ (∃ t, exec .coopPull s = .next t) ∧
      (∃ t, exec .iterate s = .next t)) ∧
    (s.coopPending = true → ∃ t, exec .coopResume s = .next t)

/-- R200: COOP_PULL suspends where PULL would answer NotReady, and else is the PULL. -/
def Obligations.CoopPullSuspendsOrPulls : Prop :=
  ∀ s : State, s.mayPull →
    (s.cfg.sourceAttached = false → phase s.buf ≠ .frameReady →
      exec .coopPull s = .next (({ s with coopPending := true } : State).respond (.ok .suspended))) ∧
    (phase s.buf = .frameReady → Registry.keyed s.cfg.statusFlags s.reg → ∃ rec ds, ds.length ≤ 1 ∧
      exec .coopPull s = .next (({ s with buf := s.buf.drop (frameSize s.buf), sealed := true, diag := s.diag ++ ds } : State).respond
        (.ok (.item rec))) ∧ exec .pull s = exec .coopPull s) ∧
    (∀ t, exec .pull s = .next t → exec .coopPull s = .next
      (if t.out = s.out ++ [.ok .notReady] then { t with coopPending := true, out := s.out ++ [.ok .suspended] } else t))

/-- R201, R203: COOP_RESUME is refused with nothing pending; it stays suspended where a PULL would answer NotReady, and else
ends the pending pull with the PULL's answer. With a source attached and no whole frame: NoneYet leaves it pending, Eof and an
I/O error end it. -/
def Obligations.CoopResumeOutcome : Prop :=
  ∀ s : State,
    (s.coopPending = false → exec .coopResume s = .next (s.respond (.err (.illegalCommand .notPending)))) ∧
    (s.coopPending = true → s.cfgFault = false → s.ovfFault = false → s.cfg.sourceAttached = false →
      phase s.buf ≠ .frameReady → exec .coopResume s = .next (s.respond (.ok .suspended))) ∧
    (s.coopPending = true → s.cfgFault = false → s.ovfFault = false → phase s.buf = .frameReady →
      Registry.keyed s.cfg.statusFlags s.reg → ∃ rec ds, ds.length ≤ 1 ∧
        exec .coopResume s = .next (({ s with coopPending := false, buf := s.buf.drop (frameSize s.buf), sealed := true,
                                              diag := s.diag ++ ds } : State).respond (.ok (.item rec))) ∧
        exec .coopResume s = exec .pull { s with coopPending := false }) ∧
    (∀ rest, s.coopPending = true → s.cfgFault = false → s.ovfFault = false → s.cfg.sourceAttached = true →
      phase s.buf ≠ .frameReady →
      let t : State := { s with src := rest, reads := s.reads ++ [missing s.buf] }
      (s.src = .noneYet :: rest → exec .coopResume s = .next (t.respond (.ok .suspended))) ∧
      (s.src = .eof :: rest → exec .coopResume s = .next (({ t with coopPending := false } : State).respond (.ok .ended))) ∧
      (∀ x, s.src = .ioErr x :: rest →
        exec .coopResume s = .next (({ t with coopPending := false } : State).respond (.err (.sourceIo x))))) ∧
    (∀ t, s.coopPending = true → s.cfgFault = false → s.ovfFault = false → Registry.keyed s.cfg.statusFlags s.reg →
      exec .pull { s with coopPending := false } = .next t → exec .coopResume s = .next
        (if t.out = s.out ++ [.ok .notReady] then { t with coopPending := true, out := s.out ++ [.ok .suspended] } else t))

/-- R202. -/
def Obligations.CoopCancelKeepsEveryByte : Prop :=
  ∀ s : State, encode .coopCancel = .command ⟨0b00110#5, .none⟩ ∧
    exec .coopCancel s = .next (({ s with coopPending := false } : State).respond (.ok .unit))

/-- R204: the first pass of an ITERATE. Without a source it ends with NotReady, or keeps the record a PULL gives; with a source
attached and no whole frame buffered, Eof and an I/O error are stop reasons; and whatever a PULL would give, the pass makes of
it what R204 says. -/
def Obligations.IterateFirstPass : Prop :=
  ∀ s : State, s.mayPull →
    (s.cfg.sourceAttached = false → phase s.buf ≠ .frameReady →
      exec .iterate s = .next (({ s with iter := none } : State).respond (.ok (.iterated [] .notReady)))) ∧
    (phase s.buf = .frameReady → Registry.keyed s.cfg.statusFlags s.reg → ∃ rec ds, ds.length ≤ 1 ∧
      let t : State := { s with buf := s.buf.drop (frameSize s.buf), sealed := true, diag := s.diag ++ ds }
      exec .pull s = .next (t.respond (.ok (.item rec))) ∧ exec .iterate s = .next { t with iter := some [rec] }) ∧
    (∀ rest, s.cfg.sourceAttached = true → phase s.buf ≠ .frameReady →
      let t : State := { s with src := rest, reads := s.reads ++ [missing s.buf], iter := none }
      (s.src = .noneYet :: rest → exec .iterate s = .next (t.respond (.ok (.iterated [] .notReady)))) ∧
      (s.src = .eof :: rest → exec .iterate s = .next (t.respond (.ok (.iterated [] .ended)))) ∧
      (∀ x, s.src = .ioErr x :: rest → exec .iterate s = .next (t.respond (.ok (.iterated [] (.ioErr x)))))) ∧
    (∀ t r, exec .pull s = .next t → t.out = s.out ++ [r] → exec .iterate s = .next (iterateAfter [] s.out t r))

/-- R204, R277: a later pass of an ITERATE does what a PULL at the same point would: a record joins the records pulled so far,
in order; NotReady, Eof and an I/O error end the ITERATE with all of them. (That a turn is one step: log entry 8.) -/
def Obligations.IterateLaterPass : Prop :=
  ∀ (s : State) (items : List Record), s.mayPull → s.iter = some items →
    (∀ t r, exec .pull s = .next t → t.out = s.out ++ [r] →
      step { s with inbox := .turn :: s.inbox } = .next (iterateAfter items s.out t r) ∧
      (s.inbox = [] → step s = .next (iterateAfter items s.out t r))) ∧
    (phase s.buf = .frameReady → Registry.keyed s.cfg.statusFlags s.reg → ∃ rec ds, ds.length ≤ 1 ∧
      let t : State := { s with buf := s.buf.drop (frameSize s.buf), sealed := true, diag := s.diag ++ ds }
      exec .pull s = .next (t.respond (.ok (.item rec))) ∧
        step { s with inbox := .turn :: s.inbox } = .next { t with iter := some (items ++ [rec]) }) ∧
    (∀ rest, s.cfg.sourceAttached = true → phase s.buf ≠ .frameReady →
      let t : State := { s with src := rest, reads := s.reads ++ [missing s.buf], iter := none }
      (s.src = .noneYet :: rest →
        step { s with inbox := .turn :: s.inbox } = .next (t.respond (.ok (.iterated items .notReady)))) ∧
      (s.src = .eof :: rest →
        step { s with inbox := .turn :: s.inbox } = .next (t.respond (.ok (.iterated items .ended)))) ∧
      (∀ x, s.src = .ioErr x :: rest →
        step { s with inbox := .turn :: s.inbox } = .next (t.respond (.ok (.iterated items (.ioErr x))))))

/-- R204 corner case (1), R66: an undisturbed ITERATE over k whole frames answers k records, in the order of the frames, and
NotReady, and leaves the rest of the buffer. -/
def Obligations.IterateDrainsWholeFrames : Prop :=
  ∀ (is : List Instr) (rest : List Byte) (s : State),
    (∀ i ∈ is, isFrameInstr i = true ∧ i.wellFormed = true) → s.buf = is.flatMap wireBytes ++ rest →
    phase rest ≠ .frameReady → s.mayPull → s.cfg.sourceAttached = false → Registry.keyed s.cfg.statusFlags s.reg →
    s.iter = none → s.inbox = [.command ⟨0b00111#5, .none⟩] →
    ∃ recs t, Sys2Proof.core.run (is.length + 1) s = .next t ∧
      List.Forall₂ (fun i rec => rec.msgid = hdrMsgid (wireBytes i) ∧ rec.dest = hdrDest (wireBytes i) ∧
        rec.source = hdrSource (wireBytes i)) is recs ∧
      t.buf = rest ∧ t.iter = none ∧ t.inbox = [] ∧ t.out = s.out ++ [.ok (.iterated recs .notReady)]

/-- R205: fragmentation independence. Any schedule of FEEDs and PULLs, drained by PULLs, yields the records, the diagnostics
and the remaining bytes of feeding everything at once and pulling. -/
def Obligations.FragmentationIndependence : Prop :=
  ∀ (l : List Instr) (s : State) (n m : Nat),
    (∀ i ∈ l, i = .pull ∨ ∃ bs, i = .feed bs) → s.mayPull → s.cfg.sourceAttached = false → s.cfg.bufCap = none →
    Registry.keyed s.cfg.statusFlags s.reg →
    (s.buf ++ l.flatMap fedBytes).length ≤ n → (s.buf ++ l.flatMap fedBytes).length ≤ m →
    ∃ t u, runInstrs (l ++ List.replicate n .pull) s = .next t ∧
      runInstrs (.feed (l.flatMap fedBytes) :: List.replicate m .pull) s = .next u ∧
      itemsOf (t.out.drop s.out.length) = itemsOf (u.out.drop s.out.length) ∧ t.buf = u.buf ∧ t.diag = u.diag ∧
      phase t.buf ≠ .frameReady

/-- R193, R194, R248: a whole frame, long or short, that stands at the head of the buffer: it leaves the buffer, and its record goes
to the ITERATE in progress, or is the answer of the pull when there is none; the record is the one DISPATCH answers for the
frame, where it answers one. (The model's choice, log entry 8: a frame is run as an instruction, a pass of an ITERATE is that
run, and a frame run with no ITERATE in progress answers as a PULL.) -/
def Obligations.FrameRunEmitsOneRecord : Prop :=
  ∀ (i : Instr) (rest : List Byte) (s : State), isFrameInstr i = true → i.wellFormed = true →
    s.buf = wireBytes i ++ rest → s.cfgFault = false → Registry.keyed s.cfg.statusFlags s.reg →
    ∃ rec ds, ds.length ≤ 1 ∧ rec.msgid = hdrMsgid (wireBytes i) ∧ rec.dest = hdrDest (wireBytes i) ∧
      rec.source = hdrSource (wireBytes i) ∧
      (∀ r, exec (.dispatch (wireBytes i)) s = .next (({ s with sealed := true } : State).respond (.ok (.record r))) →
        rec = r ∧ ds = []) ∧
      (s.iter = none →
        exec i s = .next (({ s with buf := rest, sealed := true, diag := s.diag ++ ds } : State).respond (.ok (.item rec)))) ∧
      (∀ items, s.iter = some items →
        exec i s = .next { s with buf := rest, sealed := true, diag := s.diag ++ ds, iter := some (items ++ [rec]) })

/-- R191, R193, R241: a PULL with a whole frame buffered, whether a source is attached or not, runs the frame instruction
decoded from the head of the buffer. (The model's choice, log entry 8: a frame is run as an instruction, and run with no
ITERATE in progress it answers as a PULL.) -/
def Obligations.PullRunsHeadFrame : Prop :=
  ∀ (s : State) (i : Instr) (tail : List Byte), s.mayPull → s.iter = none → decodeFrame s.buf = .ok (i, tail) →
    exec .pull s = exec i s

/-- R200, R201, R251: with a whole frame buffered and no fault set, a step that takes COOP_RESUME ends the pending pull, and
every other step keeps the head frame while the pull is pending. Hence in every run of the machine among its agents that is
weakly fair to the suspended consumer, the pull ends, unless a sticky fault is set. Fairness alone does not end it (R279 (c),
U17): from a state with no whole frame and no source there is a weakly fair run in which COOP_RESUME is taken at every step and
answers Suspended for ever. -/
def Obligations.FairCooperativePullReturns : Prop :=
  (∀ s : State, s.Inv → s.coopPending = true → s.cfgFault = false → s.ovfFault = false → phase s.buf = .frameReady →
    (∀ u, fetch s = .run .coopResume u → ∃ t rec, step s = .next t ∧ t.coopPending = false ∧
      t.buf = s.buf.drop (frameSize s.buf) ∧ t.out = s.out ++ [.ok (.item rec)]) ∧
    (∀ t, step s = .next t → t.coopPending = true →
      phase t.buf = .frameReady ∧ t.buf.take (frameSize s.buf) = s.buf.take (frameSize s.buf))) ∧
  (∀ (r : Nat → State) (issued : Nat → List Event) (answers : Nat → List Answer), IsRun r issued answers →
    CoopFair r issued answers → ∀ n, (r n).Inv → (r n).coopPending = true → phase (r n).buf = .frameReady →
      ∃ m, n ≤ m ∧ ((r m).coopPending = false ∨ (r m).cfgFault = true ∨ (r m).ovfFault = true)) ∧
  (∀ s : State, s.coopPending = true → s.cfgFault = false → s.ovfFault = false → s.cfg.sourceAttached = false →
    phase s.buf ≠ .frameReady → s.iter = none → s.inbox = [] →
    ∃ (r : Nat → State) (issued : Nat → List Event) (answers : Nat → List Answer), r 0 = s ∧ IsRun r issued answers ∧
      CoopFair r issued answers ∧ (∀ n, fetch ((r n).arrive (issued n) (answers n)) = .run .coopResume (r n)) ∧
      ∀ n, (r n).coopPending = true ∧ (r n).buf = s.buf ∧ (r n).out = s.out ++ List.replicate n (.ok .suspended))

/-! ### Errors, reset and the whole machine -/

/-- R240: the order of refusals of the stateful operations; a refused operation writes nothing of S. -/
def Obligations.StickyRefusalOrder : Prop :=
  ∀ (s : State) (e : Entry) (f bs : List Byte),
    let fatal := Host.Outcome.next (s.respond (.err (.configuration .fatal)))
    let overflow := Host.Outcome.next (s.respond (.err (.bufferOverflow .fatal)))
    let busy := Host.Outcome.next (s.respond (.err (.illegalCommand .busy)))
    (s.coopPending = false → exec .coopResume s = .next (s.respond (.err (.illegalCommand .notPending)))) ∧
    (s.cfgFault = true → exec (.register e) s = fatal ∧ exec (.dispatch f) s = fatal ∧ exec (.feed bs) s = fatal ∧
      exec .pull s = fatal ∧ exec .coopPull s = fatal ∧ exec .iterate s = fatal ∧
      (s.coopPending = true → exec .coopResume s = fatal)) ∧
    (s.cfgFault = false → s.ovfFault = true → exec (.feed bs) s = overflow ∧ exec .pull s = overflow ∧
      exec .coopPull s = overflow ∧ exec .iterate s = overflow ∧ (s.coopPending = true → exec .coopResume s = overflow)) ∧
    (s.cfgFault = false → s.ovfFault = false → s.coopPending = true →
      exec .pull s = busy ∧ exec .coopPull s = busy ∧ exec .iterate s = busy)

/-- R69, R240: a pure operation's response depends on its operands and STATUS_FLAGS alone, and it writes nothing of S. -/
def Obligations.PureOperationsIgnoreState : Prop :=
  ∀ (i : Instr) (fl : List (String × Fin 32)), isPureInstr i = true →
    ∃ r, ∀ s : State, s.cfg.statusFlags = fl → exec i s = .next (s.respond r)

/-- R270: every element of S is cleared, in every state; the parameters, the source's side and the port are outside S and stay.
(Of an ITERATE in progress nothing is said: what RESET does with it is the model's choice, log entry 10.) -/
def Obligations.ResetClearsEveryElement : Prop :=
  ∀ s : State, encode .reset = .command ⟨0b00000#5, .none⟩ ∧
    ∃ it, exec .reset s = .next {
      buf := [], reg := [], sealed := false, cfgFault := false, ovfFault := false, coopPending := false,
      diag := [], cfg := s.cfg, iter := it, src := s.src, reads := s.reads, inbox := s.inbox,
      out := s.out ++ [.ok .unit] }

/-- R43: the values of S at power-on, and after RESET from any state. -/
def Obligations.PowerOnIsResetState : Prop :=
  (∀ p : Params, (State.resetWith p).buf = [] ∧ (∀ k, Registry.find k (State.resetWith p).reg = none) ∧
    (State.resetWith p).sealed = false ∧ (State.resetWith p).cfgFault = false ∧ (State.resetWith p).ovfFault = false ∧
    (State.resetWith p).coopPending = false ∧ (State.resetWith p).diag = []) ∧
  ∀ s t : State, exec .reset s = .next t → t.buf = [] ∧ (∀ k, Registry.find k t.reg = none) ∧ t.sealed = false ∧
    t.cfgFault = false ∧ t.ovfFault = false ∧ t.coopPending = false ∧ t.diag = []

/-- The invariant holds at the power-on state of every instance whose parameters R6 allows, State.reset among them (log entry 1:
State.reset stands for the instance with the default parameters, the model's choice). -/
def Obligations.InvariantHoldsAtReset : Prop :=
  (∀ p : Params, p.wf = true → (State.resetWith p).Inv) ∧ State.reset = State.resetWith Params.default ∧ State.reset.Inv

/-- R44 (INV1, INV2), R39, R250: every step keeps the invariant, from every state that has it. -/
def Obligations.StepKeepsInvariant : Prop :=
  ∀ s t : State, s.Inv → step s = .next t → t.Inv

/-- R30, R271: no step changes the parameters of the instance. -/
def Obligations.ParametersNeverChange : Prop :=
  ∀ s t : State, step s = .next t → t.cfg = s.cfg

/-- R92: every operation but ITERATE gives exactly one response. A step gives at most one, a pass of an ITERATE among them,
and gives none only when it leaves an ITERATE in progress, or when there is none and no command is issued. -/
def Obligations.EveryOperationAnswersOnce : Prop :=
  (∀ (i : Instr) (s t : State), exec i s = .next t →
    (i ≠ .iterate → isFrameInstr i = false → ∃ r, t.out = s.out ++ [r]) ∧
    (t.out = s.out ∨ ∃ r, t.out = s.out ++ [r]) ∧ (t.out = s.out → t.iter.isSome = true)) ∧
  (∀ s t : State, step s = .next t →
    (t.out = s.out ∨ ∃ r, t.out = s.out ++ [r]) ∧
    (t.out = s.out → t.iter.isSome = true ∨ (s.iter = none ∧ (s.inbox = [] ∨ ∃ rest, s.inbox = .turn :: rest))))

/-- R91, R272, R273: BOOT succeeds exactly when CATALOG's entries are well-formed and their msgids distinct, and then the
registry is CATALOG. -/
def Obligations.BootFillsRegistry : Prop :=
  ∀ p : Params, ∃ t, Sys2Proof.core.run p.catalog.length { State.resetWith p with inbox := bootEvents p } = .next t ∧
    t.inbox = [] ∧ t.sealed = false ∧
    (t.cfgFault = false ↔ (∀ e ∈ p.catalog, entryWF p.statusFlags e = true) ∧ (p.catalog.map Entry.msgid).Nodup) ∧
    (t.cfgFault = false → ∀ k : MsgId, Registry.find k t.reg = p.catalog.find? (fun e => decide (e.msgid = (k.toNat : Int))))

/-- R196, D40: no step is refused, and the machine stops only when a pull takes a scripted answer outside the alphabet for its
read: after data answers legal for theirs, with no whole frame buffered yet, an empty one, or one longer than the bytes still
missing, which is what the read asks for (R195). -/
def Obligations.StepStopsOnlyOnIllegalAnswer : Prop :=
  ∀ s : State, (∀ r, step s ≠ .refused r) ∧
    (∀ r, step s = .fault r → r = .sourceOutsideAlphabet ∧ s.cfg.sourceAttached = true ∧
      ∃ (pre : List (List Byte)) (bs : List Byte) (rest : List Answer),
        s.src = pre.map Answer.data ++ .data bs :: rest ∧ sourceKeeps s.buf (pre.map Answer.data) = true ∧
        phase (s.buf ++ pre.flatten) ≠ .frameReady ∧ (bs = [] ∨ missing (s.buf ++ pre.flatten) < bs.length))

/-- R248: but for RESET, the diagnostic log grows by at most one event a step, and only by a step that emits an unknown or
malformed frame: the head frame of the buffer with the bytes its reads brought, removed from it, its record given as the answer
of a pull or to an ITERATE in progress, the event that frame's. -/
def Obligations.DiagnosticsOnlyFromEmission : Prop :=
  ∀ s t : State, step s = .next t → s.resetNext = false →
    t.diag = s.diag ∨ ∃ sizes rec d, t.reads = s.reads ++ sizes ∧
      ((s.cfg.sourceAttached = false ∨ phase s.buf = .frameReady) → sizes = []) ∧
      let buf := s.buf ++ bytesRead s sizes
      let f := buf.take (frameSize buf)
      phase buf = .frameReady ∧ t.buf = buf.drop (frameSize buf) ∧ t.diag = s.diag ++ [d] ∧
      (t.out = s.out ++ [.ok (.item rec)] ∨
        (t.out = s.out ∧ ∃ items, t.iter = some (items ++ [rec]) ∧ (items = [] ∨ s.iter = some items))) ∧
      rec.msgid = hdrMsgid f ∧ rec.dest = hdrDest f ∧ rec.source = hdrSource f ∧ rec.fields = [] ∧
      ((rec.kind = .unknown ∧ rec.name = "unknown" ∧ rec.error = none ∧
          d = .unknown (hdrMsgid f) (hdrDest f) (hdrSource f) (frameSize buf)) ∨
        ∃ i, rec.kind = .malformed ∧ rec.error = some i ∧
          d = .malformed (hdrMsgid f) (hdrDest f) (hdrSource f) (frameSize buf) i)
end

