-- ==== Sys2Proof/Laws/Bytes.lean ====
section
/-! SUPPORT. Byte order, header fields and frame sizes: one lemma for what each helper of Machine/Bytes.lean computes. -/

namespace Sys2Proof.Machine

@[simp] theorem byteAt_cons_zero (b : Byte) (bs : List Byte) : byteAt (b :: bs) 0 = b := rfl
@[simp] theorem byteAt_cons_succ (b : Byte) (bs : List Byte) (i : Nat) : byteAt (b :: bs) (i + 1) = byteAt bs i := by
  simp [byteAt]

theorem byteAt_append_left {a b : List Byte} {i : Nat} (h : i < a.length) : byteAt (a ++ b) i = byteAt a i := by
  simp [byteAt, List.getElem?_append_left h]

theorem byteAt_append_right {a b : List Byte} {i : Nat} (h : a.length ≤ i) :
    byteAt (a ++ b) i = byteAt b (i - a.length) := by
  simp [byteAt, List.getElem?_append_right h]

theorem byteAt_take {bs : List Byte} {i n : Nat} (h : i < n) : byteAt (bs.take n) i = byteAt bs i := by
  simp [byteAt, List.getElem?_take_of_lt h]

theorem le16_toNat (bs : List Byte) (o : Nat) :
    (le16 bs o).toNat = (byteAt bs o).toNat + 256 * (byteAt bs (o + 1)).toNat := by
  have := (byteAt bs o).isLt
  rw [le16, BitVec.toNat_append, Nat.shiftLeft_eq, ← Nat.shiftLeft_eq, ← Nat.shiftLeft_add_eq_or_of_lt (by omega),
    Nat.shiftLeft_eq]
  omega

theorem le32_toNat (bs : List Byte) (o : Nat) :
    (le32 bs o).toNat = (byteAt bs o).toNat + 256 * (byteAt bs (o + 1)).toNat + 65536 * (byteAt bs (o + 2)).toNat
      + 16777216 * (byteAt bs (o + 3)).toNat := by
  have h := (le16 bs o).isLt
  rw [le32, BitVec.toNat_append, ← Nat.shiftLeft_add_eq_or_of_lt (by omega), Nat.shiftLeft_eq, le16_toNat, le16_toNat,
    show o + 2 + 1 = o + 3 from rfl]
  omega

@[simp] theorem bytesLE_length (v n : Nat) : (bytesLE v n).length = n := by
  induction n generalizing v with
  | zero => rfl
  | succ n ih => simp [bytesLE, ih]

theorem byteAt_bytesLE {v n i : Nat} (h : i < n) : byteAt (bytesLE v n) i = BitVec.ofNat 8 (v / 256 ^ i) := by
  induction n generalizing v i with
  | zero => omega
  | succ n ih =>
    cases i with
    | zero => simp [bytesLE]
    | succ i => rw [bytesLE, byteAt_cons_succ, ih (by omega), Nat.div_div_eq_div_mul, Nat.pow_succ, Nat.mul_comm 256]

@[simp] theorem sub_length (bs : List Byte) (a n : Nat) : (sub bs a n).length = min n (bs.length - a) := by
  simp [sub]

theorem frameSize_ge (f : List Byte) : 6 ≤ frameSize f := by unfold frameSize; split <;> simp [hdrSize]

theorem frameSize_le (f : List Byte) : frameSize f ≤ 65541 := by
  have := (hdrLength f).isLt
  unfold frameSize; split <;> simp only [hdrSize] <;> omega

theorem frameSize_congr {f g : List Byte} (h : ∀ i, i < 6 → byteAt f i = byteAt g i) : frameSize f = frameSize g := by
  have hl : hdrLength f = hdrLength g := by
    show byteAt f 3 ++ byteAt f 2 = byteAt g 3 ++ byteAt g 2
    rw [h 2 (by omega), h 3 (by omega)]
  have hb : hdrIsLong f = hdrIsLong g := by rw [hdrIsLong, h 4 (by omega), hdrIsLong]
  rw [frameSize, frameSize, hb, hl]

theorem frameSize_append {a : List Byte} (b : List Byte) (h : 6 ≤ a.length) : frameSize (a ++ b) = frameSize a :=
  frameSize_congr (fun _ hi => byteAt_append_left (by omega))

theorem frameSize_take {a : List Byte} {n : Nat} (h : 6 ≤ n) : frameSize (a.take n) = frameSize a :=
  frameSize_congr (fun _ hi => byteAt_take (by omega))

theorem phase_frameReady (buf : List Byte) : phase buf = .frameReady ↔ 6 ≤ buf.length ∧ frameSize buf ≤ buf.length := by
  unfold phase; simp only [hdrSize]
  split
  · simp; omega
  · split <;> simp <;> omega

/-- A buffer that holds a whole frame still does when bytes are appended, and its frame is the same. -/
theorem phase_frameReady_append {buf : List Byte} (bs : List Byte) (h : phase buf = .frameReady) :
    phase (buf ++ bs) = .frameReady ∧ frameSize (buf ++ bs) = frameSize buf := by
  rw [phase_frameReady] at h
  have hf := frameSize_append bs h.1
  refine ⟨(phase_frameReady _).2 ?_, hf⟩
  rw [hf, List.length_append]
  omega

@[simp] theorem shortFrameBytes_length (m : MsgId) (p1 p2 : Byte) (d : Dest) (so : Byte) :
    (shortFrameBytes m p1 p2 d so).length = 6 := rfl

@[simp] theorem longFrameBytes_length (m : MsgId) (d : Dest) (so : Byte) (pl : List Byte) :
    (longFrameBytes m d so pl).length = 6 + pl.length := by
  simp [longFrameBytes]; omega

/-- A short frame is 6 bytes and says so. -/
theorem frameSize_shortFrameBytes (m : MsgId) (p1 p2 : Byte) (d : Dest) (so : Byte) (tail : List Byte) :
    frameSize (shortFrameBytes m p1 p2 d so ++ tail) = 6 := by
  rw [frameSize_append tail (by simp)]
  have : hdrIsLong (shortFrameBytes m p1 p2 d so) = false := by
    show (0#1 ++ d).getLsbD 7 = false
    rw [BitVec.getLsbD_append]
    simp
  simp [frameSize, this, hdrSize]

/-- A long frame is as long as its header says. -/
theorem frameSize_longFrameBytes (m : MsgId) (d : Dest) (so : Byte) (pl tail : List Byte) (h : pl.length ≤ 65535) :
    frameSize (longFrameBytes m d so pl ++ tail) = 6 + pl.length := by
  rw [frameSize_append tail (by simp)]
  have h1 : hdrIsLong (longFrameBytes m d so pl) = true := by
    show (1#1 ++ d).getLsbD 7 = true
    rw [BitVec.getLsbD_append]
    simp
  have h2 : (hdrLength (longFrameBytes m d so pl)).toNat = pl.length := by
    rw [hdrLength, le16_toNat]
    simp only [longFrameBytes, List.cons_append, byteAt_cons_succ, byteAt_cons_zero, BitVec.extractLsb'_toNat,
      BitVec.toNat_ofNat, Nat.shiftRight_eq_div_pow]
    omega
  simp [frameSize, h1, h2, hdrSize]

end Sys2Proof.Machine
end

