-- ==== Sys2Proof/Laws/Registry.lean ====
section
/-! SUPPORT. The registry as a finite map: what `find` reads after `add`, and that `add` keeps the canonical form. -/

namespace Sys2Proof.Machine

theorem Registry.find_add_self {k : MsgId} {r : Registry} (e : Entry) (h : Registry.find k r = none) :
    Registry.find k (Registry.add k e r) = some e := by
  induction r with
  | nil => simp [Registry.add, Registry.find]
  | cons p rest ih =>
    obtain ⟨k', e'⟩ := p
    simp only [Registry.find] at h
    split at h
    · cases h
    · simp only [Registry.add]
      split
      · simp [Registry.find]
      · rename_i hne _
        simp [Registry.find, hne, ih h]

theorem Registry.find_add_other {k k' : MsgId} (r : Registry) (e : Entry) (h : k' ≠ k) :
    Registry.find k' (Registry.add k e r) = Registry.find k' r := by
  induction r with
  | nil => simp [Registry.add, Registry.find, Ne.symm h]
  | cons p rest ih =>
    obtain ⟨k'', e''⟩ := p
    simp only [Registry.add]
    split
    · simp [Registry.find, Ne.symm h]
    · simp [Registry.find, ih]

theorem Registry.mem_add {k : MsgId} {e : Entry} {r : Registry} {p : MsgId × Entry} :
    p ∈ Registry.add k e r ↔ p = (k, e) ∨ p ∈ r := by
  induction r with
  | nil => simp [Registry.add]
  | cons q rest ih =>
    obtain ⟨k', e'⟩ := q
    simp only [Registry.add]
    split
    · simp
    · simp only [List.mem_cons, ih]
      tauto

theorem Registry.find_mem {k : MsgId} {r : Registry} {e : Entry} (h : Registry.find k r = some e) : (k, e) ∈ r := by
  induction r with
  | nil => simp [Registry.find] at h
  | cons q rest ih =>
    obtain ⟨k', e'⟩ := q
    simp only [Registry.find] at h
    split at h
    · rename_i hk
      cases h
      simp [hk]
    · exact List.mem_cons_of_mem _ (ih h)

theorem Registry.find_none {k : MsgId} {r : Registry} (h : Registry.find k r = none) : ∀ p ∈ r, p.1 ≠ k := by
  induction r with
  | nil => simp
  | cons q rest ih =>
    obtain ⟨k', e'⟩ := q
    simp only [Registry.find] at h
    split at h
    · cases h
    · rename_i hk
      intro p hp
      rcases List.mem_cons.1 hp with rfl | hp
      · exact hk
      · exact ih h p hp

/-- Writing an entry under a new key keeps the keys strictly rising. -/
theorem Registry.canonical_add {k : MsgId} {r : Registry} (e : Entry) (h : Registry.canonical r)
    (hk : Registry.find k r = none) : Registry.canonical (Registry.add k e r) := by
  induction r with
  | nil => simp [Registry.add]
  | cons q rest ih =>
    obtain ⟨k', e'⟩ := q
    have hne : k' ≠ k := Registry.find_none hk _ (List.mem_cons_self ..)
    rw [Registry.canonical, List.pairwise_cons] at h
    have hrest : Registry.find k rest = none := by simpa [Registry.find, hne] using hk
    simp only [Registry.add]
    split
    · rename_i hlt
      refine List.pairwise_cons.2 ⟨?_, List.pairwise_cons.2 h⟩
      intro p hp
      rcases List.mem_cons.1 hp with rfl | hp
      · exact hlt
      · exact Nat.lt_trans hlt (h.1 p hp)
    · rename_i hlt
      refine List.pairwise_cons.2 ⟨?_, ih h.2 hrest⟩
      intro p hp
      rcases Registry.mem_add.1 hp with rfl | hp
      · have : k'.toNat ≠ k.toNat := fun hc => hne (BitVec.eq_of_toNat_eq hc)
        simp only [gt_iff_lt]
        omega
      · exact h.1 p hp

/-- Registering a well-formed entry under its own msgid keeps INV2. -/
theorem Registry.keyed_add {fl : List (String × Fin 32)} {r : Registry} {e : Entry} (h : Registry.keyed fl r)
    (hw : entryWF fl e = true) : Registry.keyed fl (Registry.add (entryKey e) e r) := by
  intro p hp
  rcases Registry.mem_add.1 hp with rfl | hp
  · refine ⟨?_, hw⟩
    have hr : 0 ≤ e.msgid ∧ e.msgid ≤ 65535 := by
      simp only [entryWF, Bool.and_eq_true, decide_eq_true_eq] at hw
      tauto
    simp only [entryKey, BitVec.toNat_ofInt]
    omega
  · exact h p hp

end Sys2Proof.Machine
end

