-- ==== Sys2Proof/Laws/State.lean ====
section
/-! SUPPORT. One lemma per field and per update of the state: what each single write of Machine/Ops.lean, and an
arrival between steps (Machine/Fetch.lean), leaves there. -/

namespace Sys2Proof.Machine

variable (s : State)

@[simp] theorem State.respond_buf (r : Response) : (s.respond r).buf = s.buf := rfl
@[simp] theorem State.respond_reg (r : Response) : (s.respond r).reg = s.reg := rfl
@[simp] theorem State.respond_sealed (r : Response) : (s.respond r).sealed = s.sealed := rfl
@[simp] theorem State.respond_cfgFault (r : Response) : (s.respond r).cfgFault = s.cfgFault := rfl
@[simp] theorem State.respond_ovfFault (r : Response) : (s.respond r).ovfFault = s.ovfFault := rfl
@[simp] theorem State.respond_coopPending (r : Response) : (s.respond r).coopPending = s.coopPending := rfl
@[simp] theorem State.respond_diag (r : Response) : (s.respond r).diag = s.diag := rfl
@[simp] theorem State.respond_cfg (r : Response) : (s.respond r).cfg = s.cfg := rfl
@[simp] theorem State.respond_iter (r : Response) : (s.respond r).iter = s.iter := rfl
@[simp] theorem State.respond_src (r : Response) : (s.respond r).src = s.src := rfl
@[simp] theorem State.respond_reads (r : Response) : (s.respond r).reads = s.reads := rfl
@[simp] theorem State.respond_inbox (r : Response) : (s.respond r).inbox = s.inbox := rfl
@[simp] theorem State.respond_out (r : Response) : (s.respond r).out = s.out ++ [r] := rfl

@[simp] theorem State.append_buf (bs : List Byte) : (s.append bs).buf = s.buf ++ bs := rfl
@[simp] theorem State.append_reg (bs : List Byte) : (s.append bs).reg = s.reg := rfl
@[simp] theorem State.append_sealed (bs : List Byte) : (s.append bs).sealed = s.sealed := rfl
@[simp] theorem State.append_cfgFault (bs : List Byte) : (s.append bs).cfgFault = s.cfgFault := rfl
@[simp] theorem State.append_ovfFault (bs : List Byte) : (s.append bs).ovfFault = s.ovfFault := rfl
@[simp] theorem State.append_coopPending (bs : List Byte) : (s.append bs).coopPending = s.coopPending := rfl
@[simp] theorem State.append_diag (bs : List Byte) : (s.append bs).diag = s.diag := rfl
@[simp] theorem State.append_cfg (bs : List Byte) : (s.append bs).cfg = s.cfg := rfl
@[simp] theorem State.append_iter (bs : List Byte) : (s.append bs).iter = s.iter := rfl
@[simp] theorem State.append_src (bs : List Byte) : (s.append bs).src = s.src := rfl
@[simp] theorem State.append_reads (bs : List Byte) : (s.append bs).reads = s.reads := rfl
@[simp] theorem State.append_inbox (bs : List Byte) : (s.append bs).inbox = s.inbox := rfl
@[simp] theorem State.append_out (bs : List Byte) : (s.append bs).out = s.out := rfl

@[simp] theorem State.consume_buf (n : Nat) : (s.consume n).buf = s.buf.drop n := rfl
@[simp] theorem State.consume_reg (n : Nat) : (s.consume n).reg = s.reg := rfl
@[simp] theorem State.consume_sealed (n : Nat) : (s.consume n).sealed = s.sealed := rfl
@[simp] theorem State.consume_cfgFault (n : Nat) : (s.consume n).cfgFault = s.cfgFault := rfl
@[simp] theorem State.consume_ovfFault (n : Nat) : (s.consume n).ovfFault = s.ovfFault := rfl
@[simp] theorem State.consume_coopPending (n : Nat) : (s.consume n).coopPending = s.coopPending := rfl
@[simp] theorem State.consume_diag (n : Nat) : (s.consume n).diag = s.diag := rfl
@[simp] theorem State.consume_cfg (n : Nat) : (s.consume n).cfg = s.cfg := rfl
@[simp] theorem State.consume_iter (n : Nat) : (s.consume n).iter = s.iter := rfl
@[simp] theorem State.consume_src (n : Nat) : (s.consume n).src = s.src := rfl
@[simp] theorem State.consume_reads (n : Nat) : (s.consume n).reads = s.reads := rfl
@[simp] theorem State.consume_inbox (n : Nat) : (s.consume n).inbox = s.inbox := rfl
@[simp] theorem State.consume_out (n : Nat) : (s.consume n).out = s.out := rfl

@[simp] theorem State.seal_buf : (s.seal).buf = s.buf := rfl
@[simp] theorem State.seal_reg : (s.seal).reg = s.reg := rfl
@[simp] theorem State.seal_sealed : (s.seal).sealed = true := rfl
@[simp] theorem State.seal_cfgFault : (s.seal).cfgFault = s.cfgFault := rfl
@[simp] theorem State.seal_ovfFault : (s.seal).ovfFault = s.ovfFault := rfl
@[simp] theorem State.seal_coopPending : (s.seal).coopPending = s.coopPending := rfl
@[simp] theorem State.seal_diag : (s.seal).diag = s.diag := rfl
@[simp] theorem State.seal_cfg : (s.seal).cfg = s.cfg := rfl
@[simp] theorem State.seal_iter : (s.seal).iter = s.iter := rfl
@[simp] theorem State.seal_src : (s.seal).src = s.src := rfl
@[simp] theorem State.seal_reads : (s.seal).reads = s.reads := rfl
@[simp] theorem State.seal_inbox : (s.seal).inbox = s.inbox := rfl
@[simp] theorem State.seal_out : (s.seal).out = s.out := rfl

@[simp] theorem State.setCfgFault_buf : (s.setCfgFault).buf = s.buf := rfl
@[simp] theorem State.setCfgFault_reg : (s.setCfgFault).reg = s.reg := rfl
@[simp] theorem State.setCfgFault_sealed : (s.setCfgFault).sealed = s.sealed := rfl
@[simp] theorem State.setCfgFault_cfgFault : (s.setCfgFault).cfgFault = true := rfl
@[simp] theorem State.setCfgFault_ovfFault : (s.setCfgFault).ovfFault = s.ovfFault := rfl
@[simp] theorem State.setCfgFault_coopPending : (s.setCfgFault).coopPending = s.coopPending := rfl
@[simp] theorem State.setCfgFault_diag : (s.setCfgFault).diag = s.diag := rfl
@[simp] theorem State.setCfgFault_cfg : (s.setCfgFault).cfg = s.cfg := rfl
@[simp] theorem State.setCfgFault_iter : (s.setCfgFault).iter = s.iter := rfl
@[simp] theorem State.setCfgFault_src : (s.setCfgFault).src = s.src := rfl
@[simp] theorem State.setCfgFault_reads : (s.setCfgFault).reads = s.reads := rfl
@[simp] theorem State.setCfgFault_inbox : (s.setCfgFault).inbox = s.inbox := rfl
@[simp] theorem State.setCfgFault_out : (s.setCfgFault).out = s.out := rfl

@[simp] theorem State.setOvfFault_buf : (s.setOvfFault).buf = s.buf := rfl
@[simp] theorem State.setOvfFault_reg : (s.setOvfFault).reg = s.reg := rfl
@[simp] theorem State.setOvfFault_sealed : (s.setOvfFault).sealed = s.sealed := rfl
@[simp] theorem State.setOvfFault_cfgFault : (s.setOvfFault).cfgFault = s.cfgFault := rfl
@[simp] theorem State.setOvfFault_ovfFault : (s.setOvfFault).ovfFault = true := rfl
@[simp] theorem State.setOvfFault_coopPending : (s.setOvfFault).coopPending = s.coopPending := rfl
@[simp] theorem State.setOvfFault_diag : (s.setOvfFault).diag = s.diag := rfl
@[simp] theorem State.setOvfFault_cfg : (s.setOvfFault).cfg = s.cfg := rfl
@[simp] theorem State.setOvfFault_iter : (s.setOvfFault).iter = s.iter := rfl
@[simp] theorem State.setOvfFault_src : (s.setOvfFault).src = s.src := rfl
@[simp] theorem State.setOvfFault_reads : (s.setOvfFault).reads = s.reads := rfl
@[simp] theorem State.setOvfFault_inbox : (s.setOvfFault).inbox = s.inbox := rfl
@[simp] theorem State.setOvfFault_out : (s.setOvfFault).out = s.out := rfl

@[simp] theorem State.setCoop_buf (b : Bool) : (s.setCoop b).buf = s.buf := rfl
@[simp] theorem State.setCoop_reg (b : Bool) : (s.setCoop b).reg = s.reg := rfl
@[simp] theorem State.setCoop_sealed (b : Bool) : (s.setCoop b).sealed = s.sealed := rfl
@[simp] theorem State.setCoop_cfgFault (b : Bool) : (s.setCoop b).cfgFault = s.cfgFault := rfl
@[simp] theorem State.setCoop_ovfFault (b : Bool) : (s.setCoop b).ovfFault = s.ovfFault := rfl
@[simp] theorem State.setCoop_coopPending (b : Bool) : (s.setCoop b).coopPending = b := rfl
@[simp] theorem State.setCoop_diag (b : Bool) : (s.setCoop b).diag = s.diag := rfl
@[simp] theorem State.setCoop_cfg (b : Bool) : (s.setCoop b).cfg = s.cfg := rfl
@[simp] theorem State.setCoop_iter (b : Bool) : (s.setCoop b).iter = s.iter := rfl
@[simp] theorem State.setCoop_src (b : Bool) : (s.setCoop b).src = s.src := rfl
@[simp] theorem State.setCoop_reads (b : Bool) : (s.setCoop b).reads = s.reads := rfl
@[simp] theorem State.setCoop_inbox (b : Bool) : (s.setCoop b).inbox = s.inbox := rfl
@[simp] theorem State.setCoop_out (b : Bool) : (s.setCoop b).out = s.out := rfl

@[simp] theorem State.logDiag_buf (d : Diag) : (s.logDiag d).buf = s.buf := rfl
@[simp] theorem State.logDiag_reg (d : Diag) : (s.logDiag d).reg = s.reg := rfl
@[simp] theorem State.logDiag_sealed (d : Diag) : (s.logDiag d).sealed = s.sealed := rfl
@[simp] theorem State.logDiag_cfgFault (d : Diag) : (s.logDiag d).cfgFault = s.cfgFault := rfl
@[simp] theorem State.logDiag_ovfFault (d : Diag) : (s.logDiag d).ovfFault = s.ovfFault := rfl
@[simp] theorem State.logDiag_coopPending (d : Diag) : (s.logDiag d).coopPending = s.coopPending := rfl
@[simp] theorem State.logDiag_diag (d : Diag) : (s.logDiag d).diag = s.diag ++ [d] := rfl
@[simp] theorem State.logDiag_cfg (d : Diag) : (s.logDiag d).cfg = s.cfg := rfl
@[simp] theorem State.logDiag_iter (d : Diag) : (s.logDiag d).iter = s.iter := rfl
@[simp] theorem State.logDiag_src (d : Diag) : (s.logDiag d).src = s.src := rfl
@[simp] theorem State.logDiag_reads (d : Diag) : (s.logDiag d).reads = s.reads := rfl
@[simp] theorem State.logDiag_inbox (d : Diag) : (s.logDiag d).inbox = s.inbox := rfl
@[simp] theorem State.logDiag_out (d : Diag) : (s.logDiag d).out = s.out := rfl

@[simp] theorem State.addEntry_buf (k : MsgId) (e : Entry) : (s.addEntry k e).buf = s.buf := rfl
@[simp] theorem State.addEntry_reg (k : MsgId) (e : Entry) : (s.addEntry k e).reg = Registry.add k e s.reg := rfl
@[simp] theorem State.addEntry_sealed (k : MsgId) (e : Entry) : (s.addEntry k e).sealed = s.sealed := rfl
@[simp] theorem State.addEntry_cfgFault (k : MsgId) (e : Entry) : (s.addEntry k e).cfgFault = s.cfgFault := rfl
@[simp] theorem State.addEntry_ovfFault (k : MsgId) (e : Entry) : (s.addEntry k e).ovfFault = s.ovfFault := rfl
@[simp] theorem State.addEntry_coopPending (k : MsgId) (e : Entry) : (s.addEntry k e).coopPending = s.coopPending := rfl
@[simp] theorem State.addEntry_diag (k : MsgId) (e : Entry) : (s.addEntry k e).diag = s.diag := rfl
@[simp] theorem State.addEntry_cfg (k : MsgId) (e : Entry) : (s.addEntry k e).cfg = s.cfg := rfl
@[simp] theorem State.addEntry_iter (k : MsgId) (e : Entry) : (s.addEntry k e).iter = s.iter := rfl
@[simp] theorem State.addEntry_src (k : MsgId) (e : Entry) : (s.addEntry k e).src = s.src := rfl
@[simp] theorem State.addEntry_reads (k : MsgId) (e : Entry) : (s.addEntry k e).reads = s.reads := rfl
@[simp] theorem State.addEntry_inbox (k : MsgId) (e : Entry) : (s.addEntry k e).inbox = s.inbox := rfl
@[simp] theorem State.addEntry_out (k : MsgId) (e : Entry) : (s.addEntry k e).out = s.out := rfl

@[simp] theorem State.setIter_buf (it : Option (List Record)) : (s.setIter it).buf = s.buf := rfl
@[simp] theorem State.setIter_reg (it : Option (List Record)) : (s.setIter it).reg = s.reg := rfl
@[simp] theorem State.setIter_sealed (it : Option (List Record)) : (s.setIter it).sealed = s.sealed := rfl
@[simp] theorem State.setIter_cfgFault (it : Option (List Record)) : (s.setIter it).cfgFault = s.cfgFault := rfl
@[simp] theorem State.setIter_ovfFault (it : Option (List Record)) : (s.setIter it).ovfFault = s.ovfFault := rfl
@[simp] theorem State.setIter_coopPending (it : Option (List Record)) : (s.setIter it).coopPending = s.coopPending := rfl
@[simp] theorem State.setIter_diag (it : Option (List Record)) : (s.setIter it).diag = s.diag := rfl
@[simp] theorem State.setIter_cfg (it : Option (List Record)) : (s.setIter it).cfg = s.cfg := rfl
@[simp] theorem State.setIter_iter (it : Option (List Record)) : (s.setIter it).iter = it := rfl
@[simp] theorem State.setIter_src (it : Option (List Record)) : (s.setIter it).src = s.src := rfl
@[simp] theorem State.setIter_reads (it : Option (List Record)) : (s.setIter it).reads = s.reads := rfl
@[simp] theorem State.setIter_inbox (it : Option (List Record)) : (s.setIter it).inbox = s.inbox := rfl
@[simp] theorem State.setIter_out (it : Option (List Record)) : (s.setIter it).out = s.out := rfl

@[simp] theorem State.clear_buf : (s.clear).buf = [] := rfl
@[simp] theorem State.clear_reg : (s.clear).reg = [] := rfl
@[simp] theorem State.clear_sealed : (s.clear).sealed = false := rfl
@[simp] theorem State.clear_cfgFault : (s.clear).cfgFault = false := rfl
@[simp] theorem State.clear_ovfFault : (s.clear).ovfFault = false := rfl
@[simp] theorem State.clear_coopPending : (s.clear).coopPending = false := rfl
@[simp] theorem State.clear_diag : (s.clear).diag = [] := rfl
@[simp] theorem State.clear_cfg : (s.clear).cfg = s.cfg := rfl
@[simp] theorem State.clear_iter : (s.clear).iter = s.iter := rfl
@[simp] theorem State.clear_src : (s.clear).src = s.src := rfl
@[simp] theorem State.clear_reads : (s.clear).reads = s.reads := rfl
@[simp] theorem State.clear_inbox : (s.clear).inbox = s.inbox := rfl
@[simp] theorem State.clear_out : (s.clear).out = s.out := rfl

variable (issued : List Event) (answers : List Answer)

@[simp] theorem State.arrive_buf : (s.arrive issued answers).buf = s.buf := rfl
@[simp] theorem State.arrive_reg : (s.arrive issued answers).reg = s.reg := rfl
@[simp] theorem State.arrive_sealed : (s.arrive issued answers).sealed = s.sealed := rfl
@[simp] theorem State.arrive_cfgFault : (s.arrive issued answers).cfgFault = s.cfgFault := rfl
@[simp] theorem State.arrive_ovfFault : (s.arrive issued answers).ovfFault = s.ovfFault := rfl
@[simp] theorem State.arrive_coopPending : (s.arrive issued answers).coopPending = s.coopPending := rfl
@[simp] theorem State.arrive_diag : (s.arrive issued answers).diag = s.diag := rfl
@[simp] theorem State.arrive_cfg : (s.arrive issued answers).cfg = s.cfg := rfl
@[simp] theorem State.arrive_iter : (s.arrive issued answers).iter = s.iter := rfl
@[simp] theorem State.arrive_src : (s.arrive issued answers).src = s.src ++ answers := rfl
@[simp] theorem State.arrive_reads : (s.arrive issued answers).reads = s.reads := rfl
@[simp] theorem State.arrive_inbox : (s.arrive issued answers).inbox = s.inbox ++ issued := rfl
@[simp] theorem State.arrive_out : (s.arrive issued answers).out = s.out := rfl

end Sys2Proof.Machine
end

