-- ==== Sys2Proof/Laws/Ops.lean ====
section
/-! SUPPORT. What each shared operation of Machine/Ops.lean can do, said once. -/

namespace Sys2Proof.Machine

/-! ### Sticky refusals -/

theorem fatalStream_eq_none {s : State} : fatalStream s = none ↔ s.cfgFault = false ∧ s.ovfFault = false := by
  unfold fatalStream
  cases s.cfgFault <;> cases s.ovfFault <;> simp

theorem refusePull_eq_none {s : State} : refusePull s = none ↔ s.mayPull := by
  unfold refusePull fatalStream State.mayPull
  cases s.cfgFault <;> cases s.ovfFault <;> cases s.coopPending <;> simp

/-! ### Dispatch -/

/-- With every entry under its own msgid the defensive cross-check of R141 never fails. -/
theorem decodeRecord_ne_mismatch {fl : List (String × Fin 32)} {reg : Registry} (h : Registry.keyed fl reg)
    (f : List Byte) (m : MsgId) : decodeRecord fl reg f ≠ .error (.mismatch m) := by
  unfold decodeRecord
  split
  · simp
  · split
    · simp
    · rename_i e he
      have := (h _ (Registry.find_mem he)).1
      rw [if_neg (by simpa using this)]
      split
      · simp
      · split <;> simp

/-- DISPATCH writes nothing but `sealed`, and `cfg_fault` on a mismatch (R141, R146). -/
theorem dispatchFrame_state (f : List Byte) (s : State) :
    (dispatchFrame f s).2 = s ∨ (dispatchFrame f s).2 = s.seal ∨ (dispatchFrame f s).2 = s.seal.setCfgFault := by
  unfold dispatchFrame
  split
  · simp
  · split <;> simp

/-- DISPATCH with no configuration fault in a keyed registry: the response of `decodeRecord`, and the registry sealed. -/
theorem dispatchFrame_of_keyed {s : State} (hk : Registry.keyed s.cfg.statusFlags s.reg) (hc : s.cfgFault = false)
    (f : List Byte) : dispatchFrame f s = (decodeRecord s.cfg.statusFlags s.reg f, s.seal) := by
  have hm := decodeRecord_ne_mismatch hk f
  simp only [dispatchFrame, hc, Bool.false_eq_true, if_false]
  split
  · rename_i h; simp [h]
  · rename_i m h; exact absurd h (hm m)
  · rename_i e _ h; simp [h]

/-! ### Frame emission -/

/-- What EMIT makes of the outcome of a dispatch (R193), for a frame f of a state s. -/
def emitted (reg : Registry) (f : List Byte) : Except DispatchError Record → Record × List Diag
  | .ok r => (r, [])
  | .error (.unknown m d so) => (placeholder m d so, [.unknown m d so f.length])
  | .error (.format i) =>
    (malformedRecord reg f i, [.malformed (hdrMsgid f) (hdrDest f) (hdrSource f) f.length i])
  | .error .fatal => (placeholder 0 0 0, [])
  | .error (.mismatch _) => (placeholder 0 0 0, [])

theorem decodeRecord_ne_fatal (fl : List (String × Fin 32)) (reg : Registry) (f : List Byte) :
    decodeRecord fl reg f ≠ .error .fatal := by
  unfold decodeRecord
  split
  · simp
  · split
    · simp
    · split
      · simp
      · split
        · simp
        · split <;> simp

/-- EMIT with no configuration fault in a keyed registry: exactly the frame's bytes leave the buffer, one record is pulled,
and an unknown or malformed frame logs one event (R193, R194, R248). -/
theorem emitFrame_of_keyed {s : State} (hk : Registry.keyed s.cfg.statusFlags s.reg) (hc : s.cfgFault = false)
    (f : List Byte) :
    emitFrame f s =
      (.item (emitted s.reg f (decodeRecord s.cfg.statusFlags s.reg f)).1,
        { s with buf := s.buf.drop f.length, sealed := true,
                 diag := s.diag ++ (emitted s.reg f (decodeRecord s.cfg.statusFlags s.reg f)).2 }) := by
  have hm := decodeRecord_ne_mismatch hk f
  have hf := decodeRecord_ne_fatal s.cfg.statusFlags s.reg f
  rw [emitFrame, dispatchFrame_of_keyed hk hc]
  cases h : decodeRecord s.cfg.statusFlags s.reg f with
  | ok r => simp [emitted, State.consume, State.seal]
  | error e =>
    cases e with
    | fatal => exact absurd h hf
    | mismatch m => exact absurd h (hm m)
    | unknown m d so => simp [emitted, State.consume, State.seal, State.logDiag]
    | format i => simp [emitted, State.consume, State.seal, State.logDiag]

/-- The record and the event of a frame that is unknown or malformed (R193, R248). -/
def Logged (f : List Byte) (rec : Record) (d : Diag) : Prop :=
  (rec = placeholder (hdrMsgid f) (hdrDest f) (hdrSource f) ∧ d = .unknown (hdrMsgid f) (hdrDest f) (hdrSource f) f.length) ∨
    ∃ i reg, rec = malformedRecord reg f i ∧ d = .malformed (hdrMsgid f) (hdrDest f) (hdrSource f) f.length i

/-- The frame an UnknownMessage names is the frame dispatched (R145). -/
theorem decodeRecord_unknown {fl : List (String × Fin 32)} {reg : Registry} {f : List Byte} {m d so}
    (h : decodeRecord fl reg f = .error (.unknown m d so)) : m = hdrMsgid f ∧ d = hdrDest f ∧ so = hdrSource f := by
  unfold decodeRecord at h
  split at h
  · cases h
  · split at h
    · cases h; exact ⟨rfl, rfl, rfl⟩
    · split at h
      · cases h
      · split at h
        · cases h
        · split at h <;> cases h

/-- EMIT in any state: either nothing is written, or `sealed` is set, exactly the frame's bytes leave the buffer, and only
`cfg_fault` may be set, and one diagnostic event added, that of the unknown or malformed record given. -/
theorem emitFrame_state (f : List Byte) (s : State) :
    (emitFrame f s).2 = s ∨
      ∃ b ds, ds.length ≤ 1 ∧ (∀ d ∈ ds, ∃ rec, (emitFrame f s).1 = .item rec ∧ Logged f rec d) ∧
        (emitFrame f s).2 = { s with buf := s.buf.drop f.length, sealed := true, cfgFault := s.cfgFault || b, diag := s.diag ++ ds } := by
  by_cases hc : s.cfgFault = true
  · left; simp [emitFrame, dispatchFrame, hc]
  · right
    simp only [Bool.not_eq_true] at hc
    simp only [emitFrame, dispatchFrame, hc, Bool.false_eq_true, if_false]
    have hf := decodeRecord_ne_fatal s.cfg.statusFlags s.reg f
    cases h : decodeRecord s.cfg.statusFlags s.reg f with
    | ok r => exact ⟨false, [], by simp, by simp, by simp [State.consume, State.seal, hc]⟩
    | error e =>
      cases e with
      | fatal => exact absurd h hf
      | mismatch m => exact ⟨true, [], by simp, by simp, by simp [State.consume, State.seal, State.setCfgFault]⟩
      | unknown m d so =>
        obtain ⟨rfl, rfl, rfl⟩ := decodeRecord_unknown h
        exact ⟨false, [.unknown (hdrMsgid f) (hdrDest f) (hdrSource f) f.length], by simp, by simp [Logged],
          by simp [State.consume, State.seal, State.logDiag, hc]⟩
      | format i =>
        exact ⟨false, [.malformed (hdrMsgid f) (hdrDest f) (hdrSource f) f.length i], by simp,
          by simp only [List.mem_singleton, forall_eq]; exact ⟨_, rfl, .inr ⟨i, _, rfl, rfl⟩⟩,
          by simp [State.consume, State.seal, State.logDiag, hc]⟩

/-! ### The byte source -/

/-- Clamping gives an answer of the alphabet. -/
theorem answerLegal_clamp (n : Nat) (a : Answer) : answerLegal n (clampAnswer n a) = true := by
  cases a with
  | data bs =>
    simp only [clampAnswer]
    split
    · rfl
    · rename_i h
      have : 0 < (bs.take n).length := List.length_pos_iff.2 h
      simp only [answerLegal, Bool.and_eq_true, decide_eq_true_eq]
      exact ⟨this, by simp⟩
  | noneYet => rfl
  | eof => rfl
  | ioErr x => rfl

/-- Every answer of the alphabet is a possible free answer. -/
theorem clampAnswer_of_legal {n : Nat} {a : Answer} (h : answerLegal n a = true) : clampAnswer n a = a := by
  cases a with
  | data bs =>
    simp only [answerLegal, Bool.and_eq_true, decide_eq_true_eq] at h
    have : bs.take n = bs := List.take_of_length_le h.2
    have hne : bs ≠ [] := by rintro rfl; simp at h
    simp [clampAnswer, this, hne]
  | noneYet => rfl
  | eof => rfl
  | ioErr x => rfl

/-- A read writes only the source's side, and takes at most one scripted answer. -/
theorem readSource_state (n : Nat) (s : State) :
    (readSource n s).2 = { s with src := s.src.drop 1, reads := s.reads ++ [n] } := by
  unfold readSource
  split
  · rename_i h; simp [h]
  · rename_i h; simp [h]

theorem readSource_buf (n : Nat) (s : State) : (readSource n s).2.buf = s.buf := by rw [readSource_state]

/-- The answer to a read is the next scripted one, or a legal free one. -/
theorem readSource_answer (n : Nat) (s : State) :
    (readSource n s).1 ∈ s.src ∨ answerLegal n (readSource n s).1 = true := by
  unfold readSource
  split
  · rename_i h; left; simp [h]
  · right; exact answerLegal_clamp _ _

/-- Reads do not look at the buffer. -/
theorem readSource_append (n : Nat) (s : State) (bs : List Byte) :
    readSource n (s.append bs) = ((readSource n s).1, (readSource n s).2.append bs) := by
  unfold readSource
  simp only [State.append_src, State.append_reads]
  split <;> rfl

theorem bytesRead_append (s : State) (bs : List Byte) (ns : List Nat) : bytesRead (s.append bs) ns = bytesRead s ns := by
  induction ns generalizing s with
  | nil => rfl
  | cons n ns ih => simp only [bytesRead, readSource_append, ih]

/-- What is read depends on the source's side alone. -/
theorem bytesRead_congr {s t : State} (h1 : s.src = t.src) (h2 : s.reads = t.reads) (ns : List Nat) :
    bytesRead s ns = bytesRead t ns := by
  induction ns generalizing s t with
  | nil => rfl
  | cons n ns ih =>
    have ha : (readSource n s).1 = (readSource n t).1 := by unfold readSource; rw [h1, h2]; split <;> rfl
    rw [bytesRead, bytesRead, ha, ih (s := (readSource n s).2) (t := (readSource n t).2)
      (by simp only [readSource_state, h1]) (by simp only [readSource_state, h2])]

theorem bytesRead_concat (s : State) (ns ms : List Nat) :
    bytesRead s (ns ++ ms)
      = bytesRead s ns ++ bytesRead { s with src := s.src.drop ns.length, reads := s.reads ++ ns } ms := by
  induction ns generalizing s with
  | nil => simp [bytesRead]
  | cons n ns ih =>
    simp only [List.cons_append, bytesRead, ih, List.append_assoc]
    congr 2
    exact bytesRead_congr (by simp [readSource_state]) (by simp [readSource_state]) ms

/-- The writes of a run of reads of sizes `ns`: the bytes they bring are appended, the answers taken, the reads recorded;
never more bytes than were missing (R195). -/
def Filled (target : Nat) (s t : State) : Prop :=
  ∃ ns, t = { s with buf := s.buf ++ bytesRead s ns, src := s.src.drop ns.length, reads := s.reads ++ ns } ∧
    (bytesRead s ns = [] ∨ s.buf.length + (bytesRead s ns).length ≤ target)

theorem Filled.refl (target : Nat) (s : State) : Filled target s s :=
  ⟨[], by simp [bytesRead], Or.inl rfl⟩

theorem fillTo_filled (target fuel : Nat) (s : State) : Filled target s (fillTo target fuel s).2 := by
  induction fuel generalizing s with
  | zero => exact Filled.refl _ _
  | succ fuel ih =>
    rw [fillTo]
    split
    · exact Filled.refl _ _
    · have hst := readSource_state (target - s.buf.length) s
      have hone : answerBytes (target - s.buf.length) (readSource (target - s.buf.length) s).1 = [] →
          Filled target s (readSource (target - s.buf.length) s).2 := fun h =>
        ⟨[target - s.buf.length], by rw [hst]; simp [bytesRead, h], Or.inl (by simp [bytesRead, h])⟩
      split
      · rename_i bs t heq
        have ht : t = { s with src := s.src.drop 1, reads := s.reads ++ [target - s.buf.length] } := by
          rw [← hst, heq]
        split
        · rename_i hlegal
          obtain ⟨ns, hfin, hle⟩ := ih (t.append bs)
          have hb : bytesRead s ((target - s.buf.length) :: ns) = bs ++ bytesRead (t.append bs) ns := by
            rw [bytesRead_append, bytesRead, heq]
            simp only [answerBytes, if_pos hlegal]
          refine ⟨(target - s.buf.length) :: ns, ?_, ?_⟩
          · rw [hfin, hb, ht]; simp [State.append]
          · right
            rw [hb]
            simp only [answerLegal, Bool.and_eq_true, decide_eq_true_eq] at hlegal
            simp only [State.append_buf, List.length_append] at hle ⊢
            rw [show t.buf = s.buf by rw [ht]] at hle
            rcases hle with hle | hle
            · rw [hle]; simp; omega
            · omega
        · rename_i hil
          rw [heq] at hone
          exact hone (by simp only [answerBytes, if_neg hil])
      all_goals (rename_i heq; rw [heq] at hone; exact hone rfl)

/-- Filling with enough fuel ends with the target reached, or with an answer that is not data. -/
theorem fillTo_full {target fuel : Nat} {s t : State} (hf : target ≤ s.buf.length + fuel)
    (h : fillTo target fuel s = (.full, t)) : target ≤ t.buf.length := by
  induction fuel generalizing s with
  | zero => simp only [fillTo, Prod.mk.injEq] at h; rw [← h.2]; omega
  | succ fuel ih =>
    rw [fillTo] at h
    split at h
    · simp only [Prod.mk.injEq] at h; rw [← h.2]; assumption
    · split at h
      · rename_i bs u heq
        split at h
        · rename_i hlegal
          have hu : u.buf = s.buf := by
            have := readSource_buf (target - s.buf.length) s
            rwa [heq] at this
          simp only [answerLegal, Bool.and_eq_true, decide_eq_true_eq] at hlegal
          refine ih ?_ h
          simp only [State.append_buf, List.length_append, hu]
          omega
        · simp at h
      all_goals simp at h

/-- The outcome of a run of reads does not depend on fuel beyond the missing bytes. -/
theorem fillTo_fuel {target f1 f2 : Nat} {s : State} (h1 : target ≤ s.buf.length + f1) (h2 : target ≤ s.buf.length + f2) :
    fillTo target f1 s = fillTo target f2 s := by
  induction f1 generalizing s f2 with
  | zero =>
    cases f2 with
    | zero => rfl
    | succ f2 => rw [fillTo, fillTo, if_pos (by omega)]
  | succ f1 ih =>
    cases f2 with
    | zero => rw [fillTo, fillTo, if_pos (by omega)]
    | succ f2 =>
      rw [fillTo, fillTo]
      split
      · rfl
      · split
        · rename_i bs u heq
          split
          · rename_i hlegal
            have hu : u.buf = s.buf := by
              have := readSource_buf (target - s.buf.length) s
              rwa [heq] at this
            simp only [answerLegal, Bool.and_eq_true, decide_eq_true_eq] at hlegal
            refine ih ?_ ?_ <;> simp only [State.append_buf, List.length_append, hu] <;> omega
          · rfl
        all_goals rfl

/-- A run of reads that stops short produces no record. -/
theorem fillTo_stopped {target fuel : Nat} {s t : State} {q : PullResult} (h : fillTo target fuel s = (.stopped q, t)) :
    ∀ r, q ≠ .item r := by
  induction fuel generalizing s with
  | zero => simp [fillTo] at h
  | succ fuel ih =>
    rw [fillTo] at h
    split at h
    · simp at h
    · split at h
      · split at h
        · exact ih h
        · simp only [Prod.mk.injEq, FillResult.stopped.injEq] at h; rw [← h.1]; simp
      all_goals (simp only [Prod.mk.injEq, FillResult.stopped.injEq] at h; rw [← h.1]; simp)

/-! ### The pull -/

/-- One PULL_CORE: reads, then nothing or one EMIT of the head frame. The reads never fill past the head frame, and there
are none without a source, or with a whole frame buffered (R197). -/
theorem pullCore_state (s : State) :
    ∃ t, Filled (max 6 (frameSize t.buf)) s t ∧ ((s.cfg.sourceAttached = false ∨ phase s.buf = .frameReady) → t = s) ∧
      (((pullCore s).2 = t ∧ ∀ r, (pullCore s).1 ≠ .item r) ∨
        (phase t.buf = .frameReady ∧ pullCore s = emit t)) := by
  unfold pullCore
  split
  · rename_i ha
    unfold pullAttached
    split
    · rename_i h; exact ⟨s, Filled.refl _ _, fun _ => rfl, Or.inr ⟨h, rfl⟩⟩
    · rename_i hnp
      have hno : ¬ (s.cfg.sourceAttached = false ∨ phase s.buf = .frameReady) := by simp [ha, hnp]
      have h1 := fillTo_filled hdrSize (hdrSize - s.buf.length) s
      split
      · rename_i r t heq
        rw [heq] at h1
        obtain ⟨ns, ht, hle⟩ := h1
        exact ⟨t, ⟨ns, ht, hle.imp id (fun h => Nat.le_trans h (Nat.le_max_left _ _))⟩,
          fun h => absurd h hno, Or.inl ⟨rfl, fillTo_stopped heq⟩⟩
      · rename_i t heq
        have hfull := fillTo_full (by omega) heq
        rw [heq] at h1
        replace h1 : Filled hdrSize s t := h1
        have h2 := fillTo_filled (frameSize t.buf) (frameSize t.buf - t.buf.length) t
        have hsame : ∀ u, Filled (frameSize t.buf) t u → Filled (max 6 (frameSize u.buf)) s u := by
          rintro u ⟨ms, hu, hle'⟩
          obtain ⟨ns, ht, hle⟩ := h1
          have hfs : frameSize u.buf = frameSize t.buf := by rw [hu]; exact frameSize_append _ hfull
          have hms : bytesRead t ms
              = bytesRead { s with src := s.src.drop ns.length, reads := s.reads ++ ns } ms :=
            bytesRead_congr (by rw [ht]) (by rw [ht]) ms
          have hb : bytesRead s (ns ++ ms) = bytesRead s ns ++ bytesRead t ms := by rw [bytesRead_concat, hms]
          have hlen : t.buf.length = s.buf.length + (bytesRead s ns).length := by rw [ht]; simp
          refine ⟨ns ++ ms, ?_, ?_⟩
          · rw [hb, hu, ht]; simp [List.drop_drop]
          · rw [hfs, hb, List.length_append]
            rcases hle' with hle' | hle'
            · rw [hle']
              rcases hle with hle | hle
              · left; simp [hle]
              · right; exact Nat.le_trans hle (Nat.le_max_left _ _)
            · right
              exact Nat.le_trans (by omega) (Nat.le_max_right _ _)
        split
        · rename_i r u heq2
          rw [heq2] at h2
          exact ⟨u, hsame u h2, fun h => absurd h hno, Or.inl ⟨rfl, fillTo_stopped heq2⟩⟩
        · rename_i u heq2
          have hfull2 := fillTo_full (by omega) heq2
          rw [heq2] at h2
          have hu := hsame u h2
          refine ⟨u, hu, fun h => absurd h hno, Or.inr ⟨?_, rfl⟩⟩
          replace h2 : Filled (frameSize t.buf) t u := h2
          obtain ⟨ms, hueq, _⟩ := h2
          rw [phase_frameReady]
          have hfs : frameSize u.buf = frameSize t.buf := by rw [hueq]; exact frameSize_append _ hfull
          have : t.buf.length ≤ u.buf.length := by rw [hueq]; simp
          simp only [hdrSize] at hfull
          omega
  · unfold pullBuffered
    split
    · rename_i h; exact ⟨s, Filled.refl _ _, fun _ => rfl, Or.inr ⟨h, rfl⟩⟩
    · exact ⟨s, Filled.refl _ _, fun _ => rfl, Or.inl ⟨rfl, by simp⟩⟩

/-- A run of reads with bytes missing begins with one read of all of them. -/
theorem fillTo_first {s : State} (target : Nat) (h : s.buf.length < target) : fillTo target (target - s.buf.length) s = 
   (match readSource (target - s.buf.length) s with
      | (.data bs, t) =>
        if answerLegal (target - s.buf.length) (.data bs) then fillTo target (target - s.buf.length - 1) (t.append bs)
        else (.stopped .illegal, t)
      | (.noneYet, t) => (.stopped .notReady, t)
      | (.eof, t) => (.stopped .ended, t)
      | (.ioErr x, t) => (.stopped (.raised (.sourceIo x)), t)) := by
  obtain ⟨k, hk⟩ : ∃ k, target - s.buf.length = k + 1 := ⟨target - s.buf.length - 1, by omega⟩
  conv => lhs; rw [hk, fillTo]
  rw [if_neg (by omega)]; simp only [hk]; rfl

/-- With no byte missing there is no read. -/
theorem fillTo_done {s : State} (target fuel : Nat) (h : target ≤ s.buf.length) : fillTo target fuel s = (.full, s) := by
  cases fuel <;> simp [fillTo, h]

/-- A pull that has to read asks for at least one byte. -/
theorem missing_pos {s : State} (hp : phase s.buf ≠ .frameReady) : 1 ≤ missing s.buf := by
  rw [Ne, phase_frameReady] at hp
  unfold missing
  simp only [hdrSize] at *
  split <;> omega

/-- A pull with a source, one read at a time: a data answer is appended and the pull goes on (R195). -/
theorem pullCore_attached {s : State} (ha : s.cfg.sourceAttached = true) (hp : phase s.buf ≠ .frameReady) :
   pullCore s = (match readSource (missing s.buf) s with
      | (.data bs, t) =>
        if answerLegal (missing s.buf) (.data bs) then pullCore (t.append bs)
        else (.illegal, t)
      | (.noneYet, t) => (.notReady, t)
      | (.eof, t) => (.ended, t)
      | (.ioErr x, t) => (.raised (.sourceIo x), t)) := by
  have hcfg : (readSource (missing s.buf) s).2 = { s with src := s.src.drop 1, reads := s.reads ++ [missing s.buf] } := readSource_state _ _
  have hp' := hp
  rw [Ne, phase_frameReady] at hp
  conv => lhs; rw [pullCore, if_pos ha, pullAttached, if_neg hp']
  by_cases h6 : s.buf.length < 6
  · have hm : missing s.buf = hdrSize - s.buf.length := by rw [missing, if_pos h6]
    rw [hm] at hcfg ⊢
    rw [fillTo_first hdrSize h6]
    rcases hr : readSource (hdrSize - s.buf.length) s with ⟨a, t⟩
    rw [hr] at hcfg; simp only at hcfg
    cases a with
    | data bs =>
      simp only
      by_cases hl : answerLegal (hdrSize - s.buf.length) (.data bs) = true
      · rw [if_pos hl, if_pos hl]
        have hl' := hl
        simp only [answerLegal, Bool.and_eq_true, decide_eq_true_eq] at hl'
        have hb : (t.append bs).buf = s.buf ++ bs := by rw [hcfg]; rfl
        have hlen : (t.append bs).buf.length = s.buf.length + bs.length := by rw [hb]; simp
        have ha' : (t.append bs).cfg.sourceAttached = true := by rw [hcfg]; exact ha
        rw [fillTo_fuel (f1 := hdrSize - s.buf.length - 1) (f2 := hdrSize - (t.append bs).buf.length) (by rw [hlen]; omega) (by omega)]
        rw [pullCore, if_pos ha', pullAttached]
        by_cases hpr : phase (t.append bs).buf = .frameReady
        · rw [if_pos hpr]
          have := (phase_frameReady _).1 hpr
          rw [fillTo_done _ _ this.1]
          simp only
          rw [fillTo_done _ _ this.2]
        · rw [if_neg hpr]
      · rw [if_neg hl, if_neg hl]
    | _ => rfl
  · rw [fillTo_done _ _ (by simp only [hdrSize]; omega)]
    simp only
    have hm : missing s.buf = frameSize s.buf - s.buf.length := by rw [missing, if_neg h6]
    rw [hm] at hcfg ⊢
    rw [fillTo_first (frameSize s.buf) (by omega)]
    rcases hr : readSource (frameSize s.buf - s.buf.length) s with ⟨a, t⟩
    rw [hr] at hcfg; simp only at hcfg
    cases a with
    | data bs =>
      simp only
      by_cases hl : answerLegal (frameSize s.buf - s.buf.length) (.data bs) = true
      · rw [if_pos hl, if_pos hl]
        have hl' := hl
        simp only [answerLegal, Bool.and_eq_true, decide_eq_true_eq] at hl'
        have hb : (t.append bs).buf = s.buf ++ bs := by rw [hcfg]; rfl
        have hlen : (t.append bs).buf.length = s.buf.length + bs.length := by rw [hb]; simp
        have hfs : frameSize (t.append bs).buf = frameSize s.buf := by rw [hb]; exact frameSize_append _ (by omega)
        have ha' : (t.append bs).cfg.sourceAttached = true := by rw [hcfg]; exact ha
        rw [fillTo_fuel (f1 := frameSize s.buf - s.buf.length - 1) (f2 := frameSize s.buf - (t.append bs).buf.length) (by rw [hlen]; omega) (by omega)]
        rw [pullCore, if_pos ha', pullAttached]
        by_cases hpr : phase (t.append bs).buf = .frameReady
        · rw [if_pos hpr]
          have := (phase_frameReady _).1 hpr
          rw [fillTo_done _ _ (by rw [← hfs]; exact this.2)]
        · rw [if_neg hpr, fillTo_done hdrSize _ (by simp only [hdrSize]; omega)]
          simp only
          rw [hfs]
      · rw [if_neg hl, if_neg hl]
    | _ => rfl

/-- A run of reads that stops with an error stops with the source's own. -/
theorem fillTo_raised {target fuel : Nat} {s t : State} {e : Error}
    (h : fillTo target fuel s = (.stopped (.raised e), t)) : ∃ x, e = .sourceIo x := by
  induction fuel generalizing s with
  | zero => simp [fillTo] at h
  | succ fuel ih =>
    rw [fillTo] at h
    split at h
    · simp at h
    · split at h
      · split at h
        · exact ih h
        · simp at h
      · simp at h
      · simp at h
      · rename_i x _ _; simp only [Prod.mk.injEq, FillResult.stopped.injEq, PullResult.raised.injEq] at h; exact ⟨x, h.1.symm⟩

/-- With no configuration fault in a keyed registry the only error a pull raises is the source's (R199). -/
theorem pullCore_raised {s : State} (hk : Registry.keyed s.cfg.statusFlags s.reg) (hc : s.cfgFault = false) {e : Error}
    (h : (pullCore s).1 = .raised e) : ∃ x, e = .sourceIo x := by
  have hemit : ∀ u : State, u.cfg = s.cfg → u.reg = s.reg → u.cfgFault = s.cfgFault → (emit u).1 ≠ .raised e := by
    intro u h1 h2 h3
    rw [emit, emitFrame_of_keyed (by rw [h1, h2]; exact hk) (by rw [h3]; exact hc)]
    simp
  unfold pullCore pullAttached pullBuffered at h
  split at h
  · split at h
    · exact absurd h (hemit s rfl rfl rfl)
    · have h1 := fillTo_filled hdrSize (hdrSize - s.buf.length) s
      split at h
      · rename_i heq; simp only at h; subst h; exact fillTo_raised heq
      · rename_i t heq
        rw [heq] at h1
        obtain ⟨ns, ht, -⟩ := h1
        have h2 := fillTo_filled (frameSize t.buf) (frameSize t.buf - t.buf.length) t
        split at h
        · rename_i heq; simp only at h; subst h; exact fillTo_raised heq
        · rename_i u heq
          rw [heq] at h2
          obtain ⟨ms, hu, -⟩ := h2
          simp only at ht hu
          exact absurd h (hemit u (by rw [hu, ht]) (by rw [hu, ht]) (by rw [hu, ht]))
  · split at h
    · exact absurd h (hemit s rfl rfl rfl)
    · simp at h

/-! ### A pull does not look at `coop_pending` -/

theorem readSource_setCoop (n : Nat) (s : State) (b : Bool) :
    readSource n (s.setCoop b) = ((readSource n s).1, (readSource n s).2.setCoop b) := by
  unfold readSource
  simp only [State.setCoop_src]
  split <;> rfl

theorem fillTo_setCoop (target fuel : Nat) (s : State) (b : Bool) :
    fillTo target fuel (s.setCoop b) = ((fillTo target fuel s).1, (fillTo target fuel s).2.setCoop b) := by
  induction fuel generalizing s with
  | zero => rfl
  | succ fuel ih =>
    simp only [fillTo, State.setCoop_buf, readSource_setCoop]
    split
    · rfl
    · rcases readSource (target - s.buf.length) s with ⟨a, t⟩
      cases a with
      | data bs =>
        by_cases hl : answerLegal (target - s.buf.length) (.data bs) = true
        · simp only [hl, if_true]; exact ih (t.append bs)
        · simp only [hl, Bool.false_eq_true, if_false]
      | _ => rfl

theorem emit_setCoop (s : State) (b : Bool) : emit (s.setCoop b) = ((emit s).1, (emit s).2.setCoop b) := by
  simp only [emit, emitFrame, dispatchFrame, State.setCoop_buf, State.setCoop_cfgFault, State.setCoop_cfg, State.setCoop_reg]
  by_cases hc : s.cfgFault = true
  · simp only [hc, if_true]
  · simp only [hc, Bool.false_eq_true, if_false]
    rcases decodeRecord s.cfg.statusFlags s.reg (sub s.buf 0 (frameSize s.buf)) with e | r
    · cases e <;> rfl
    · rfl

/-- What a pull does is the same whether a cooperative pull is pending or not (R201). -/
theorem pullCore_setCoop (s : State) (b : Bool) :
    pullCore (s.setCoop b) = ((pullCore s).1, (pullCore s).2.setCoop b) := by
  simp only [pullCore, pullAttached, pullBuffered, State.setCoop_cfg, State.setCoop_buf, fillTo_setCoop, emit_setCoop]
  split
  · split
    · rfl
    · rcases fillTo hdrSize (hdrSize - s.buf.length) s with ⟨r, t⟩
      cases r with
      | stopped r => rfl
      | full =>
        simp only [State.setCoop_buf, fillTo_setCoop]
        rcases fillTo (frameSize t.buf) (frameSize t.buf - t.buf.length) t with ⟨r, u⟩
        cases r with
        | stopped r => rfl
        | full => simp only [emit_setCoop]
  · split <;> rfl

/-- The head frame is a frame of its own declared size. -/
theorem headFrame_length {buf : List Byte} (h : phase buf = .frameReady) :
    (sub buf 0 (frameSize buf)).length = frameSize buf := by
  rw [phase_frameReady] at h
  simp; omega

/-! ### Decoding the head of the buffer -/

/-- The decoder reads an instruction from the head of the buffer exactly when the unpacker's phase is FrameReady (R33). -/
theorem decodeFrame_ok_iff (buf : List Byte) : (∃ i tail, decodeFrame buf = .ok (i, tail)) ↔ phase buf = .frameReady := by
  unfold decodeFrame phase
  split
  · simp
  · split
    · simp
    · split <;> simp

end Sys2Proof.Machine
end

