-- ==== Sys2Proof/Laws/Codec.lean ====
section
/-! SUPPORT. The header's fields in arithmetic, and the frame the decoder reads at the head of a buffer. -/

namespace Sys2Proof.Machine

theorem hdrIsLong_eq (f : List Byte) : hdrIsLong f = decide (128 ≤ (byteAt f 4).toNat) := by
  rw [hdrIsLong, BitVec.getLsbD, Nat.testBit_eq_decide_div_mod_eq]
  have := (byteAt f 4).isLt
  simp only [decide_eq_decide]; omega

/-- Two bytes glued little-endian and taken apart again. -/
theorem extract_le16 (lo hi : Byte) : (hi ++ lo).extractLsb' 0 8 = lo ∧ (hi ++ lo).extractLsb' 8 8 = hi := by
  have h0 := lo.isLt; have h1 := hi.isLt
  have : (hi ++ lo).toNat = hi.toNat * 256 + lo.toNat := by
    rw [BitVec.toNat_append, ← Nat.shiftLeft_add_eq_or_of_lt h0, Nat.shiftLeft_eq]
  constructor <;> apply BitVec.eq_of_toNat_eq <;> rw [BitVec.extractLsb'_toNat, this, Nat.shiftRight_eq_div_pow] <;> omega

/-- A dest byte is its long-form flag and its address. -/
theorem flag_append_dest (b : Byte) (x : BitVec 1) (h : x.toNat = b.toNat / 128) : x ++ b.setWidth 7 = b := by
  apply BitVec.eq_of_toNat_eq
  have h0 := b.isLt
  rw [BitVec.toNat_append, ← Nat.shiftLeft_add_eq_or_of_lt (BitVec.isLt _), Nat.shiftLeft_eq, BitVec.toNat_setWidth, h]
  omega

theorem exists_header {h : List Byte} (hl : 6 ≤ h.length) :
    ∃ a b c d e f t, h = a :: b :: c :: d :: e :: f :: t := by
  match h, hl with
  | a :: b :: c :: d :: e :: f :: t, _ => exact ⟨a, b, c, d, e, f, t, rfl⟩

/-- What the decoder reads at the head of a buffer is a frame instruction, and its bytes are the head frame. -/
theorem decodeFrame_head {buf : List Byte} {i : Instr} {tail : List Byte} (h : decodeFrame buf = .ok (i, tail)) :
    isFrameInstr i = true ∧ phase buf = .frameReady ∧ wireBytes i = sub buf 0 (frameSize buf) := by
  have hp := (decodeFrame_ok_iff buf).1 ⟨i, tail, h⟩
  obtain ⟨h6, hfs⟩ := (phase_frameReady buf).1 hp
  have hl := hdrIsLong_eq buf
  obtain ⟨a, b, c, d, e, f, t, rfl⟩ := exists_header h6
  simp only [byteAt_cons_succ, byteAt_cons_zero] at hl
  unfold decodeFrame at h
  rw [if_neg (by simp only [hdrSize]; omega), if_neg (by omega)] at h
  have he := e.isLt
  have e1 : hdrMsgid (a :: b :: c :: d :: e :: f :: t) = b ++ a := rfl
  have e2 : hdrDest (a :: b :: c :: d :: e :: f :: t) = e.setWidth 7 := rfl
  have e3 : hdrLength (a :: b :: c :: d :: e :: f :: t) = d ++ c := rfl
  have hlen : (d ++ c : BitVec 16).toNat = c.toNat + 256 * d.toNat := by
    rw [BitVec.toNat_append, ← Nat.shiftLeft_add_eq_or_of_lt c.isLt, Nat.shiftLeft_eq]; omega
  split at h
  · rename_i hh
    rw [hh] at hl
    have hge := of_decide_eq_true hl.symm
    cases h
    refine ⟨rfl, hp, ?_⟩
    have hsz : frameSize (a :: b :: c :: d :: e :: f :: t) = (c.toNat + 256 * d.toNat) + 6 := by
      rw [frameSize, hh, if_pos rfl, e3, hlen, Nat.add_comm]
    have hpl : sub (a :: b :: c :: d :: e :: f :: t) hdrSize (d ++ c : BitVec 16).toNat = t.take (c.toNat + 256 * d.toNat) := by
      rw [hlen]; simp [sub, hdrSize]
    have hpln : (t.take (c.toNat + 256 * d.toNat)).length = c.toNat + 256 * d.toNat := by
      rw [hsz] at hfs; simp at hfs ⊢; omega
    show longFrameBytes _ _ _ _ = _
    rw [e3, hpl, hsz, e1, e2]
    have hlen' : BitVec.ofNat 16 (c.toNat + 256 * d.toNat) = d ++ c := by
      apply BitVec.eq_of_toNat_eq
      rw [hlen, BitVec.toNat_ofNat]
      have := c.isLt; have := d.isLt; omega
    simp only [longFrameBytes, hpln, hlen', (extract_le16 _ _).1, (extract_le16 _ _).2,
      flag_append_dest e 1#1 (by simp; omega)]
    simp [sub, hdrSource]
  · rename_i hh
    simp only [Bool.not_eq_true] at hh
    rw [hh] at hl
    have hlt := of_decide_eq_false hl.symm
    cases h
    refine ⟨rfl, hp, ?_⟩
    have hsz : frameSize (a :: b :: c :: d :: e :: f :: t) = 6 := by simp [frameSize, hh, hdrSize]
    show shortFrameBytes _ _ _ _ _ = _
    rw [hsz, e1, e2]
    simp only [shortFrameBytes, (extract_le16 _ _).1, (extract_le16 _ _).2, flag_append_dest e 0#1 (by simp; omega)]
    simp [sub, hdrSource]

/-- A command never decodes to a wire frame. -/
theorem decodeCommand_notFrame {c : Command} {i : Instr} (h : decodeCommand c = .ok i) : isFrameInstr i = false := by
  unfold decodeCommand at h
  repeat' (split at h)
  all_goals first | (cases h; rfl) | (cases h)

end Sys2Proof.Machine
end

