-- ==== Sys2Proof/Laws/Effect.lean ====
section
/-! SUPPORT. What one step can do to S, said once: `exec_effect` for an instruction other than RESET, `step_effect` for a
step. An invariant follows by one case for each kind of effect. -/

namespace Sys2Proof.Machine

/-- Equal in S but for `coop_pending`, in the parameters, and in the source's side. -/
def Keeps (s t : State) : Prop :=
  t.buf = s.buf ∧ t.reg = s.reg ∧ t.sealed = s.sealed ∧ t.cfgFault = s.cfgFault ∧ t.ovfFault = s.ovfFault ∧
    t.diag = s.diag ∧ t.cfg = s.cfg ∧ t.src = s.src ∧ t.reads = s.reads

/-- The record is given: as the answer of a pull, or to an ITERATE that goes on. -/
def Given (s t : State) (rec : Record) : Prop :=
  t.out = s.out ++ [.ok (.item rec)] ∨
    (t.out = s.out ∧ ∃ items, t.iter = some (items ++ [rec]) ∧ (items = [] ∨ s.iter = some items))

/-- The bytes an instruction feeds, none for every instruction but FEED. -/
def feedOf : Instr → Option (List Byte)
  | .feed bs => some bs
  | _ => none

/-- The bytes the next step feeds. -/
def feedFetched : Fetched → Option (List Byte)
  | .run i _ => feedOf i
  | _ => none

/-- The kinds of effect of a step on S, other than RESET; `feed` is what the step is asked to feed. -/
inductive Effect (feed : Option (List Byte)) (s t : State) : Prop
  | keeps (h : Keeps s t)
  | fed (bs : List Byte) (hb : feed = some bs) (hc : withinCap s.cfg (s.buf ++ bs) = true) (h : Keeps { s with buf := s.buf ++ bs } t)
  | registered (e : Entry) (hs : s.sealed = false) (hw : entryWF s.cfg.statusFlags e = true)
      (hn : Registry.find (entryKey e) s.reg = none) (h : Keeps { s with reg := Registry.add (entryKey e) e s.reg } t)
  | configFault (h : Keeps { s with cfgFault := true } t)
  | overflow (hc : s.cfg.bufCap ≠ none) (h : Keeps { s with ovfFault := true } t)
  | dispatched (b : Bool) (h : Keeps { s with sealed := true, cfgFault := s.cfgFault || b } t)
  | read (u : State) (hf : Filled (max 6 (frameSize u.buf)) s u)
      (hn : (s.cfg.sourceAttached = false ∨ phase s.buf = .frameReady) → u = s) (h : Keeps u t)
  | emitted (u : State) (hf : Filled (max 6 (frameSize u.buf)) s u)
      (hn : (s.cfg.sourceAttached = false ∨ phase s.buf = .frameReady) → u = s) (hp : phase u.buf = .frameReady)
      (hg : ∀ rec, (emit u).1 = .item rec → Given s t rec) (h : Keeps (emit u).2 t)

/-- One response is given, and nothing else of S and of the ITERATE in progress changes. -/
def Answered (s t : State) : Prop :=
  Keeps s t ∧ t.iter = s.iter ∧ t.coopPending = s.coopPending ∧ ∃ r, t.out = s.out ++ [r]

theorem Keeps.refl (s : State) : Keeps s s := ⟨rfl, rfl, rfl, rfl, rfl, rfl, rfl, rfl, rfl⟩

/-- Whatever a pull answers with, its effect is that of its reads, and at most one emission. -/
theorem pull_effect (s t : State) (hg : ∀ rec, (pullCore s).1 = .item rec → Given s t rec)
    (ht : Keeps (pullCore s).2 t) (feed : Option (List Byte)) : Effect feed s t := by
  obtain ⟨u, hf, hn, ⟨h1, -⟩ | ⟨hp, h1⟩⟩ := pullCore_state s
  · exact .read u hf hn (h1 ▸ ht)
  · exact .emitted u hf hn hp (by rw [← h1]; exact hg) (by rw [← h1]; exact ht)

/-- A pull that returns a record gives it as its response. -/
theorem finishPull_gives {p t} (h : finishPull p = .next t) : ∀ rec, p.1 = .item rec → t.out = p.2.out ++ [.ok (.item rec)] := by
  rintro rec hr
  obtain ⟨q, u⟩ := p
  simp only at hr; subst hr; cases h; rfl

/-- A pass that pulls a record keeps it for its ITERATE. -/
theorem finishPass_gives {items p t} (h : finishPass items p = .next t) :
    ∀ rec, p.1 = .item rec → t.out = p.2.out ∧ t.iter = some (items ++ [rec]) := by
  rintro rec hr
  obtain ⟨q, u⟩ := p
  simp only at hr; subst hr; cases h; exact ⟨rfl, rfl⟩

/-- A pull that returns gives one response. -/
theorem finishPull_keeps {p t} (h : finishPull p = .next t) : Answered p.2 t := by
  obtain ⟨q, u⟩ := p
  cases q <;> cases h <;> exact ⟨Keeps.refl _, rfl, rfl, _, rfl⟩

/-- A pass of an ITERATE either goes on without a response, or ends it with one. -/
theorem finishPass_keeps {items p t} (h : finishPass items p = .next t) :
    Keeps p.2 t ∧ t.coopPending = p.2.coopPending ∧
      ((t.out = p.2.out ∧ t.iter.isSome = true) ∨ (∃ r, t.out = p.2.out ++ [r]) ∧ t.iter = none) := by
  obtain ⟨q, u⟩ := p
  cases q with
  | raised e => cases e <;> cases h <;> exact ⟨Keeps.refl _, rfl, .inr ⟨⟨_, rfl⟩, rfl⟩⟩
  | item r => cases h; exact ⟨Keeps.refl _, rfl, .inl ⟨rfl, rfl⟩⟩
  | illegal => cases h
  | _ => cases h; exact ⟨Keeps.refl _, rfl, .inr ⟨⟨_, rfl⟩, rfl⟩⟩

/-- What a pull never writes. -/
theorem pullCore_rest (s : State) :
    (pullCore s).2.iter = s.iter ∧ (pullCore s).2.coopPending = s.coopPending ∧ (pullCore s).2.out = s.out ∧
      (pullCore s).2.cfg = s.cfg ∧ (pullCore s).2.inbox = s.inbox := by
  obtain ⟨u, ⟨ns, hu, -⟩, -, ⟨h1, -⟩ | ⟨hp, h1⟩⟩ := pullCore_state s
  · rw [h1, hu]; simp
  · rw [h1, emit]
    rcases emitFrame_state (sub u.buf 0 (frameSize u.buf)) u with h | ⟨b, ds, -, -, h⟩ <;> rw [h, hu] <;> simp

theorem raise_keeps {e s t} (h : raise e s = .next t) : Answered s t := by
  simp only [raise, Host.Outcome.next.injEq] at h; subst h; exact ⟨Keeps.refl _, rfl, rfl, _, rfl⟩
theorem answer_keeps {e s t} (h : answer e s = .next t) : Answered s t := by
  simp only [answer, Host.Outcome.next.injEq] at h; subst h; exact ⟨Keeps.refl _, rfl, rfl, _, rfl⟩
theorem answerPure_keeps {e s t} (h : answerPure e s = .next t) : Answered s t := by
  cases e <;> simp only [answerPure] at h
  · exact raise_keeps h
  · exact answer_keeps h

/-- What an instruction other than RESET does: its effect on S, its response, and when it starts or ends a pull. -/
structure ExecEffect (i : Instr) (s t : State) : Prop where
  core : Effect (feedOf i) s t
  answers : isFrameInstr i = false → i ≠ .iterate → (∃ r, t.out = s.out ++ [r]) ∧ t.iter = s.iter
  out : (t.out = s.out ∧ t.iter.isSome = true) ∨ ∃ r, t.out = s.out ++ [r]
  coop : i ≠ .coopPull → t.coopPending = true → s.coopPending = true
  iter : s.iter = none → i ≠ .iterate → t.iter = none
  busy : i = .iterate → s.coopPending = true → t.iter = s.iter

/-- The effect of every instruction but RESET; a wire frame stands at the head of the buffer when it runs. -/
theorem exec_effect (i : Instr) (s t : State) (h : exec i s = .next t) (hr : i ≠ .reset)
    (hfr : isFrameInstr i = true → phase s.buf = .frameReady ∧ wireBytes i = sub s.buf 0 (frameSize s.buf)) :
    ExecEffect i s t := by
  have pure : ∀ {t : State}, Answered s t → ExecEffect i s t := by
    rintro t ⟨h1, h2, h3, h4⟩
    exact ⟨.keeps h1, fun _ _ => ⟨h4, h2⟩, .inr h4, fun _ h => by rw [← h3]; exact h,
      fun h _ => by rw [h2]; exact h, fun _ _ => h2⟩
  have gen : ∀ {u t : State}, Effect (feedOf i) s t → u.iter = s.iter → u.coopPending = s.coopPending → u.out = s.out →
      (t.iter = u.iter ∧ t.coopPending = u.coopPending ∧ ∃ r, t.out = u.out ++ [r]) → ExecEffect i s t := by
    rintro u t he u1 u2 u3 ⟨h2, h3, h4⟩
    rw [u1] at h2; rw [u2] at h3; rw [u3] at h4
    exact ⟨he, fun _ _ => ⟨h4, h2⟩, .inr h4, fun _ h => by rw [← h3]; exact h,
      fun h _ => by rw [h2]; exact h, fun _ _ => h2⟩
  have frame : ∀ f, isFrameInstr i = true → runFrame f s = .next t → wireBytes i = f → ExecEffect i s t := by
    intro f hi hrun hw
    obtain ⟨hp, hb⟩ := hfr hi
    have hf : f = sub s.buf 0 (frameSize s.buf) := hw ▸ hb
    have heq : emitFrame f s = emit s := by rw [hf]; rfl
    have hit : i ≠ .iterate := by rintro rfl; simp [isFrameInstr] at hi
    have heff : ∀ t, (∀ rec, (emitFrame f s).1 = .item rec → Given s t rec) → Keeps (emitFrame f s).2 t →
        Effect (feedOf i) s t :=
      fun t hg ht => .emitted s (Filled.refl _ _) (fun _ => rfl) hp (by rw [← heq]; exact hg) (by rw [← heq]; exact ht)
    have hrest : (emitFrame f s).2.iter = s.iter ∧ (emitFrame f s).2.coopPending = s.coopPending ∧
        (emitFrame f s).2.out = s.out := by
      rcases emitFrame_state f s with h | ⟨b, ds, -, -, h⟩ <;> rw [h] <;> simp
    obtain ⟨r1, r2, r3⟩ := hrest
    unfold runFrame at hrun
    split at hrun
    · rename_i items hitm
      obtain ⟨k1, k2, k3⟩ := finishPass_keeps hrun
      rw [r2] at k2; rw [r3] at k3
      have hg := finishPass_gives hrun
      rw [r3] at hg
      exact ⟨heff t (fun rec h => .inr ⟨(hg rec h).1, items, (hg rec h).2, .inr hitm⟩) k1, fun h => by simp [hi] at h,
        k3.imp id And.left,
        fun _ h => by rw [← k2]; exact h, fun h => (by rw [hitm] at h; cases h), fun h => absurd h hit⟩
    · rename_i hitm
      obtain ⟨k1, k2, k3, k4⟩ := finishPull_keeps hrun
      rw [r1] at k2; rw [r2] at k3; rw [r3] at k4
      have hg := finishPull_gives hrun
      rw [r3] at hg
      exact ⟨heff t (fun rec h => .inl (hg rec h)) k1, fun h => by simp [hi] at h, .inr k4, fun _ h => by rw [← k3]; exact h,
        fun h _ => by rw [k2]; exact h, fun h => absurd h hit⟩
  cases i <;> simp only [exec] at h
  case frameShort => exact frame _ rfl h rfl
  case frameLong => exact frame _ rfl h rfl
  case reset => exact absurd rfl hr
  case register e =>
    simp only [execRegister] at h
    split at h
    · exact pure (raise_keeps h)
    · split at h
      · have := raise_keeps h; exact gen (.configFault this.1) (u := s.setCfgFault) rfl rfl rfl this.2
      · rename_i hs
        split at h
        · have := raise_keeps h; exact gen (.configFault this.1) (u := s.setCfgFault) rfl rfl rfl this.2
        · rename_i hw
          split at h
          · have := raise_keeps h; exact gen (.configFault this.1) (u := s.setCfgFault) rfl rfl rfl this.2
          · rename_i hn
            have := answer_keeps h
            exact gen (.registered e (by simpa using hs) (by simpa using hw) (by simpa using hn) this.1)
              (u := s.addEntry (entryKey e) e) rfl rfl rfl this.2
  case feed bs =>
    simp only [execFeed] at h
    split at h
    · exact pure (raise_keeps h)
    · split at h
      · rename_i cap hcap
        split at h
        · have := raise_keeps h; exact gen (.overflow (by simp [hcap]) this.1) (u := s.setOvfFault) rfl rfl rfl this.2
        · have := answer_keeps h
          exact gen (.fed bs rfl (by simp [withinCap, hcap]; omega) this.1) (u := s.append bs) rfl rfl rfl this.2
      · rename_i hcap
        have := answer_keeps h
        exact gen (.fed bs rfl (by simp [withinCap, hcap]) this.1) (u := s.append bs) rfl rfl rfl this.2
  case pull =>
    simp only [execPull] at h
    split at h
    · exact pure (raise_keeps h)
    · have := finishPull_keeps h
      have hg := finishPull_gives h
      obtain ⟨a, b, c, -⟩ := pullCore_rest s
      rw [c] at hg
      exact gen (pull_effect s t (fun rec h => .inl (hg rec h)) this.1 _) a b c this.2
  case coopPull =>
    simp only [execCoopPull] at h
    split at h
    · exact pure (raise_keeps h)
    · obtain ⟨a, b, c, -⟩ := pullCore_rest s
      split at h
      · rename_i u hu
        have := answer_keeps h
        rw [hu] at a b c
        have hk : Keeps (pullCore s).2 t := by rw [hu]; exact this.1
        obtain ⟨_, x, y, z⟩ := this
        exact ⟨pull_effect s t (by rw [hu]; simp) hk _, fun _ _ => ⟨by rw [← c]; exact z, by rw [x]; exact a⟩, .inr (by rw [← c]; exact z),
          fun h => absurd rfl h, fun h _ => by rw [x]; exact a.trans h, fun h => by cases h⟩
      · rename_i r u _ hu
        rw [hu] at a b c
        have := finishPull_keeps h
        have hg := finishPull_gives h
        rw [c] at hg
        exact gen (pull_effect s t (by rw [hu]; exact fun rec h => .inl (hg rec h)) (by rw [hu]; exact this.1) _) a b c this.2
  case coopResume =>
    simp only [execCoopResume] at h
    split at h
    · exact pure (raise_keeps h)
    · rename_i hcp
      simp only [Bool.not_eq_false] at hcp
      split at h
      · exact pure (raise_keeps h)
      · obtain ⟨a, b, c, -⟩ := pullCore_rest s
        have fin : ∀ (u : State), Keeps (pullCore s).2 u → u.iter = (pullCore s).2.iter →
            (∃ r, u.out = (pullCore s).2.out ++ [r]) →
            (∀ rec, (pullCore s).1 = .item rec → u.out = (pullCore s).2.out ++ [.ok (.item rec)]) →
            ExecEffect .coopResume s u := by
          intro u k1 k2 k3 k4
          rw [c] at k4
          exact ⟨pull_effect s u (fun rec h => .inl (k4 rec h)) k1 _, fun _ _ => ⟨by rw [← c]; exact k3, k2.trans a⟩, .inr (by rw [← c]; exact k3),
            fun _ _ => hcp, fun h _ => (k2.trans a).trans h, fun h => by cases h⟩
        split at h <;> rename_i hu
        · have := answer_keeps h
          exact fin t (by rw [hu]; exact this.1) (by rw [hu]; exact this.2.1) (by rw [hu]; exact this.2.2.2)
            (by rw [hu]; simp)
        all_goals
          have := finishPull_keeps h
          have hg := finishPull_gives h
          exact fin t (by rw [hu]; exact this.1) (by rw [hu]; exact this.2.1) (by rw [hu]; exact this.2.2.2)
            (by rw [hu]; exact hg)
  case coopCancel =>
    simp only [execCoopCancel] at h
    have := answer_keeps h
    exact ⟨.keeps this.1, fun _ _ => ⟨this.2.2.2, this.2.1⟩, .inr this.2.2.2,
      fun _ h => (by rw [this.2.2.1] at h; simp at h), fun h _ => this.2.1.trans h, fun h => by cases h⟩
  case iterate =>
    simp only [execIterate] at h
    split at h
    · exact pure (raise_keeps h)
    · rename_i hok
      rw [refusePull_eq_none] at hok
      obtain ⟨a, b, c, -⟩ := pullCore_rest s
      obtain ⟨k1, k2, k3⟩ := finishPass_keeps h
      rw [c] at k3; rw [b] at k2
      have hg := finishPass_gives h
      rw [c] at hg
      exact ⟨pull_effect s t (fun rec h => .inr ⟨(hg rec h).1, [], (hg rec h).2, .inl rfl⟩) k1 _, fun _ h => absurd rfl h,
        k3.imp id And.left, fun _ h => by rw [← k2]; exact h,
        fun _ h => absurd rfl h, fun _ h => (by have := hok.2.2; rw [h] at this; cases this)⟩
  case dispatch f =>
    simp only [execDispatch] at h
    have hst := dispatchFrame_state f s
    have heff : ∀ t, Keeps (dispatchFrame f s).2 t → Effect none s t := by
      intro t ht
      rcases hst with h | h | h <;> rw [h] at ht
      · exact .keeps ht
      · exact .dispatched false (by rw [Bool.or_false]; exact ht)
      · exact .dispatched true (by rw [Bool.or_true]; exact ht)
    have a : (dispatchFrame f s).2.iter = s.iter := by rcases hst with h | h | h <;> rw [h] <;> rfl
    have b : (dispatchFrame f s).2.coopPending = s.coopPending := by rcases hst with h | h | h <;> rw [h] <;> rfl
    have c : (dispatchFrame f s).2.out = s.out := by rcases hst with h | h | h <;> rw [h] <;> rfl
    split at h <;> rename_i hd
    · have := answer_keeps h; rw [hd] at heff a b c; exact gen (heff _ this.1) a b c this.2
    · have := raise_keeps h; rw [hd] at heff a b c; exact gen (heff _ this.1) a b c this.2
  case decHdr h' =>
    simp only [execDecHdr] at h
    split at h
    · exact pure (answer_keeps h)
    · exact pure (raise_keeps h)
  case encHdr => exact pure (answerPure_keeps h)
  case encLongHdr => exact pure (answerPure_keeps h)
  case encFrame => exact pure (answerPure_keeps h)
  case packFields => exact pure (answerPure_keeps h)
  case packBits => exact pure (answerPure_keeps h)
  case packFilter => exact pure (answer_keeps h)
  case encBool => exact pure (answer_keeps h)
  case decStatus => exact pure (answer_keeps h)
  case decAdc => exact pure (answer_keeps h)
  case unpackBits => exact pure (answer_keeps h)
  case decBool =>
    simp only [execDecBool] at h
    split at h
    · exact pure (answer_keeps h)
    · exact pure (raise_keeps h)

/-- What a step does with what it fetched. -/
def runFetched : Fetched → Host.Outcome State Fault Refusal
  | .idle t => .next t
  | .run i t => exec i t
  | .reject e t => raise e t
  | .pass items t => iteratePass items t

theorem step_eq (s) : step s = runFetched (fetch s) := by unfold step runFetched; rfl

/-- A turn of the ITERATE in progress feeds nothing. -/
theorem feedFetched_fetchIter (u : State) : feedFetched (fetchIter u) = none := by
  unfold fetchIter
  cases u.iter with
  | none => rfl
  | some items =>
    cases hd : decodeFrame u.buf with
    | error e => rfl
    | ok p =>
      obtain ⟨i, tail⟩ := p
      obtain ⟨hf, -⟩ := decodeFrame_head hd
      cases i <;> first | rfl | simp [isFrameInstr] at hf

/-- The effect of a turn of the ITERATE in progress. -/
theorem fetchIter_effect (u t : State) (h : runFetched (fetchIter u) = .next t) :
    Effect none u t ∧ (t.coopPending = true → u.coopPending = true) ∧ (u.iter = none → t.iter = none) := by
  unfold fetchIter at h
  cases hi : u.iter with
  | none => rw [hi] at h; simp [runFetched] at h; subst h; exact ⟨.keeps (Keeps.refl _), id, fun _ => hi⟩
  | some items =>
    rw [hi] at h; simp only at h
    cases hd : decodeFrame u.buf with
    | ok p =>
      obtain ⟨i, tail⟩ := p
      rw [hd] at h
      simp only [runFetched] at h
      obtain ⟨hf, hp, hw⟩ := decodeFrame_head hd
      have := exec_effect i u t h (by rintro rfl; simp [isFrameInstr] at hf) (fun _ => ⟨hp, hw⟩)
      have hnf : feedOf i = none := by cases i <;> first | rfl | simp [isFrameInstr] at hf
      exact ⟨hnf ▸ this.core, this.coop (by rintro rfl; simp [isFrameInstr] at hf), fun h => by cases h⟩
    | error e =>
      rw [hd] at h
      simp only [runFetched, iteratePass] at h
      obtain ⟨a, b, c, -⟩ := pullCore_rest u
      obtain ⟨k1, k2, k3⟩ := finishPass_keeps h
      have hg := finishPass_gives h
      rw [c] at hg
      exact ⟨pull_effect u t (fun rec h => .inr ⟨(hg rec h).1, items, (hg rec h).2, .inr hi⟩) k1 _,
        fun h => by rw [← b, ← k2]; exact h, fun h => by cases h⟩

/-- What a step other than RESET does: its effect on S from the state whose port is at `inbox`, and that a cooperative pull
and an ITERATE do not start beside one another. -/
structure StepEffect (inbox : List Event) (s t : State) : Prop where
  core : Effect (feedFetched (fetch s)) { s with inbox := inbox } t
  coop : t.coopPending = true → s.coopPending = true ∨ (s.iter = none ∧ t.iter = none)
  iter : t.iter.isSome = true → s.iter.isSome = true ∨ (s.iter = none ∧ t.coopPending = false)

/-- The effect of every step but RESET. -/
theorem step_effect (s t : State) (h : step s = .next t) (hr : s.resetNext = false) :
    ∃ inbox, StepEffect inbox s t := by
  unfold State.resetNext at hr
  rw [step_eq] at h
  have hun : fetch s = fetch s := rfl
  conv at hun => rhs; unfold fetch
  unfold fetch at h hr
  have fi : ∀ u : State, u.iter = s.iter → u.coopPending = s.coopPending → (∃ ib, u = { s with inbox := ib }) →
      fetch s = fetchIter u → runFetched (fetchIter u) = .next t → ∃ inbox, StepEffect inbox s t := by
    rintro u h1 h2 ⟨ib, hib⟩ hfe h
    obtain ⟨a, b, c⟩ := fetchIter_effect u t h
    refine ⟨ib, ⟨?_, fun h => .inl (h2 ▸ b h), fun h => .inl ?_⟩⟩
    · rw [hfe, feedFetched_fetchIter]; exact hib ▸ a
    rw [h1] at c
    cases hs : s.iter with
    | none => rw [c hs] at h; cases h
    | some => rfl
  cases hib : s.inbox with
  | nil => rw [hib] at h hun; exact fi s rfl rfl ⟨s.inbox, rfl⟩ hun h
  | cons ev rest =>
    rw [hib] at h hr hun
    cases ev with
    | turn => exact fi { s with inbox := rest } rfl rfl ⟨rest, rfl⟩ hun h
    | command c =>
      simp only at h hr hun
      by_cases hw : (s.iter.isSome && isConsumerCode c.code) = true
      · rw [if_pos hw] at h hun; exact fi s rfl rfl ⟨s.inbox, rfl⟩ hun h
      · rw [if_neg hw] at h hr hun
        cases hd : decodeCommand c with
        | error e =>
          rw [hd] at h
          have := raise_keeps h
          exact ⟨rest, ⟨.keeps this.1, fun h => .inl (by rw [this.2.2.1] at h; exact h),
            fun h => .inl (by rw [this.2.1] at h; exact h)⟩⟩
        | ok i =>
          rw [hd] at h hr hun
          simp only at h hr hun
          have hnr : i ≠ .reset := by rintro rfl; simp at hr
          have hnf := decodeCommand_notFrame hd
          have := exec_effect i { s with inbox := rest } t h hnr (fun hf => by rw [hnf] at hf; cases hf)
          obtain ⟨e1, e2, e3, e4, e5, e6⟩ := this
          refine ⟨rest, ⟨by rw [hun]; exact e1, ?_, ?_⟩⟩
          · intro hcp
            by_cases hi : i = .coopPull
            · subst hi
              have hcc : isConsumerCode c.code = true := by
                unfold decodeCommand at hd
                simp only [isConsumerCode, Bool.and_eq_true, decide_eq_true_eq]
                repeat' (split at hd)
                all_goals first | (cases hd; done) | (rename_i hh; omega)
              rw [hcc, Bool.and_true] at hw
              have hn : s.iter = none := by simpa using hw
              exact .inr ⟨hn, e5 hn (by simp)⟩
            · exact .inl (e4 hi hcp)
          · intro hit
            by_cases hsi : s.iter = none
            · right
              refine ⟨hsi, ?_⟩
              have hi : i = .iterate := by
                by_contra hne
                rw [e5 hsi hne] at hit; cases hit
              subst hi
              by_contra hcp
              simp only [Bool.not_eq_false] at hcp
              have := e4 (by simp) hcp
              rw [e6 rfl this] at hit
              simp [hsi] at hit
            · left; exact Option.isSome_iff_ne_none.2 hsi

/-- The reads of a pull keep INV1: no frame is longer than the least legal capacity. -/
theorem filled_withinCap {p : Params} {s u : State} (hp : p.wf = true) (hf : Filled (max 6 (frameSize u.buf)) s u)
    (h : withinCap p s.buf = true) : withinCap p u.buf = true := by
  obtain ⟨ns, rfl, hb⟩ := hf
  unfold withinCap at *
  unfold Params.wf at hp
  cases hc : p.bufCap with
  | none => rfl
  | some cap =>
    rw [hc] at hp h
    simp at hp h ⊢
    have := frameSize_le (s.buf ++ bytesRead s ns)
    rcases hb with hb | hb
    · simpa [hb] using h
    · simp only [maxFrame] at hp
      simp at hb; omega

/-- EMIT of a whole head frame, in any state. -/
theorem emit_state (u : State) (hp : phase u.buf = .frameReady) :
    (emit u).2 = u ∨ ∃ b ds, ds.length ≤ 1 ∧
      (∀ d ∈ ds, ∃ rec, (emit u).1 = .item rec ∧ Logged (sub u.buf 0 (frameSize u.buf)) rec d) ∧
      (emit u).2 = { u with buf := u.buf.drop (frameSize u.buf), sealed := true, cfgFault := u.cfgFault || b,
                            diag := u.diag ++ ds } := by
  have := emitFrame_state (sub u.buf 0 (frameSize u.buf)) u
  simp only [headFrame_length hp] at this
  exact this

end Sys2Proof.Machine
end

