-- ==== Sys2Proof/Laws/Flags.lean ====
section
/-! SUPPORT. The bitmask operations, bit by bit. -/

namespace Sys2Proof.Machine

theorem testBit_orFlags (i j : Nat) (fl : List Bool) :
    (orFlags i fl).testBit j = (decide (i ≤ j) && fl.getD (j - i) false) := by
  induction fl generalizing i with
  | nil => simp [orFlags]
  | cons b fl ih =>
    rw [orFlags, Nat.testBit_or, ih]
    rcases Nat.lt_trichotomy i j with h | h | h
    · obtain ⟨d, hd⟩ : ∃ d, j - i = d + 1 := ⟨j - i - 1, by omega⟩
      have h2 : j - (i + 1) = d := by omega
      have h3 : (if b = true then 1 <<< i else 0 : Nat).testBit j = false := by
        split
        · simp [Nat.testBit_shiftLeft, hd, Nat.testBit_succ]
        · simp
      simp [h3, hd, h2, Nat.le_of_lt h, Nat.succ_le_of_lt h]
    · subst h
      cases b <;> simp [Nat.testBit_shiftLeft]
    · have h3 : (if b = true then 1 <<< i else 0 : Nat).testBit j = false := by
        split
        · simp [Nat.testBit_shiftLeft, Nat.not_le.2 h]
        · simp
      simp [h3, Nat.not_le.2 h, Nat.not_le.2 (Nat.lt_succ_of_lt h)]

/-- Bit j of a packed mask is flag j. -/
theorem testBit_packed (fl : List Bool) (j : Nat) : (orFlags 0 fl).testBit j = fl.getD j false := by
  simp [testBit_orFlags]

@[simp] theorem unpackFlags_length (v n : Nat) : (unpackFlags v n).length = n := by simp [unpackFlags]

/-- Unpacking as many flags as were packed gives them back (R173, R121). -/
theorem unpackFlags_orFlags (fl : List Bool) : unpackFlags (orFlags 0 fl) fl.length = fl := by
  apply List.ext_getElem (by simp)
  intro i h1 h2
  simp [unpackFlags, testBit_packed, h2]

/-- A mask fits a field of w bytes iff no true flag lies past bit 8w - 1. -/
theorem orFlags_lt_iff (fl : List Bool) (n : Nat) : orFlags 0 fl < 2 ^ n ↔ (fl.drop n).all (fun b => !b) = true := by
  constructor
  · intro h
    simp only [List.all_eq_true]
    intro b hb
    obtain ⟨i, hi, rfl⟩ := List.mem_iff_getElem.1 hb
    have hz := Nat.testBit_lt_two_pow (Nat.lt_of_lt_of_le h (Nat.pow_le_pow_right (by omega) (Nat.le_add_right n i)))
    rw [testBit_packed] at hz
    simp only [List.length_drop] at hi
    simpa [List.getD_eq_getElem?_getD, show n + i < fl.length by omega] using hz
  · intro h
    apply Nat.lt_pow_two_of_testBit
    intro i hi
    rw [testBit_packed, List.getD_eq_getElem?_getD]
    by_cases hl : i < fl.length
    · have := (List.all_eq_true.1 h) (fl[i]) (List.mem_iff_getElem.2 ⟨i - n, by simp; omega, by simp [Nat.add_sub_cancel' hi]⟩)
      simpa [hl] using this
    · simp [Nat.not_lt.1 hl]

end Sys2Proof.Machine
end

