-- ==== Sys2Proof/Laws/PerInstr.lean ====
section
/-! SUPPORT. A family over all instructions: the packet of a well-formed instruction describes itself. An operation's packet
carries one of the 21 command codes (R90); a frame's packet is as long as its own header declares (R83). -/

namespace Sys2Proof.Laws

open Sys2Proof.Machine

/-- The packet carries a command code of the table, or is a frame of the size its header declares. -/
def PacketSelfDescribing.Statement (i : Instr) : Prop :=
  i.wellFormed = true →
    match encode i with
    | .command c => c.code.toNat < 21
    | .frame bs => 6 ≤ bs.length ∧ bs.length = frameSize bs

theorem PacketSelfDescribing.frameShort (m : MsgId) (p1 p2 : Byte) (d : Dest) (so : Byte) :
    PacketSelfDescribing.Statement (.frameShort m p1 p2 d so) := by
  intro _
  refine ⟨Nat.le_refl 6, ?_⟩
  have h := frameSize_shortFrameBytes m p1 p2 d so []
  rw [List.append_nil] at h
  exact h.symm

theorem PacketSelfDescribing.frameLong (m : MsgId) (d : Dest) (so : Byte) (pl : List Byte) :
    PacketSelfDescribing.Statement (.frameLong m d so pl) := by
  intro hw
  have hl : pl.length ≤ 65535 := by simpa [Instr.wellFormed] using hw
  have h := frameSize_longFrameBytes m d so pl [] hl
  rw [List.append_nil] at h
  show 6 ≤ (longFrameBytes m d so pl).length ∧ _
  refine ⟨?_, ?_⟩
  · rw [longFrameBytes_length]; omega
  · rw [h, longFrameBytes_length]

theorem PacketSelfDescribing.reset : PacketSelfDescribing.Statement .reset :=
  fun _ => (by decide : (0 : Nat) < 21)
theorem PacketSelfDescribing.register (e : Entry) : PacketSelfDescribing.Statement (.register e) :=
  fun _ => (by decide : (1 : Nat) < 21)
theorem PacketSelfDescribing.feed (bs : List Byte) : PacketSelfDescribing.Statement (.feed bs) :=
  fun _ => (by decide : (2 : Nat) < 21)
theorem PacketSelfDescribing.pull : PacketSelfDescribing.Statement .pull :=
  fun _ => (by decide : (3 : Nat) < 21)
theorem PacketSelfDescribing.coopPull : PacketSelfDescribing.Statement .coopPull :=
  fun _ => (by decide : (4 : Nat) < 21)
theorem PacketSelfDescribing.coopResume : PacketSelfDescribing.Statement .coopResume :=
  fun _ => (by decide : (5 : Nat) < 21)
theorem PacketSelfDescribing.coopCancel : PacketSelfDescribing.Statement .coopCancel :=
  fun _ => (by decide : (6 : Nat) < 21)
theorem PacketSelfDescribing.iterate : PacketSelfDescribing.Statement .iterate :=
  fun _ => (by decide : (7 : Nat) < 21)
theorem PacketSelfDescribing.dispatch (f : List Byte) : PacketSelfDescribing.Statement (.dispatch f) :=
  fun _ => (by decide : (8 : Nat) < 21)
theorem PacketSelfDescribing.decHdr (h : List Byte) : PacketSelfDescribing.Statement (.decHdr h) :=
  fun _ => (by decide : (9 : Nat) < 21)
theorem PacketSelfDescribing.encHdr (m d so p1 p2 : Int) : PacketSelfDescribing.Statement (.encHdr m d so p1 p2) :=
  fun _ => (by decide : (10 : Nat) < 21)
theorem PacketSelfDescribing.encLongHdr (m d so n : Int) : PacketSelfDescribing.Statement (.encLongHdr m d so n) :=
  fun _ => (by decide : (11 : Nat) < 21)
theorem PacketSelfDescribing.encFrame (m d so p1 p2 : Int) (pl : Option (List Byte)) :
    PacketSelfDescribing.Statement (.encFrame m d so p1 p2 pl) := fun _ => (by decide : (12 : Nat) < 21)
theorem PacketSelfDescribing.packFields (l : List (Ty × PackValue)) : PacketSelfDescribing.Statement (.packFields l) :=
  fun _ => (by decide : (13 : Nat) < 21)
theorem PacketSelfDescribing.packBits (w : Nat) (fl : List Bool) : PacketSelfDescribing.Statement (.packBits w fl) :=
  fun _ => (by decide : (14 : Nat) < 21)
theorem PacketSelfDescribing.packFilter (l : List (Option Int)) : PacketSelfDescribing.Statement (.packFilter l) :=
  fun _ => (by decide : (15 : Nat) < 21)
theorem PacketSelfDescribing.encBool (b : Bool) : PacketSelfDescribing.Statement (.encBool b) :=
  fun _ => (by decide : (16 : Nat) < 21)
theorem PacketSelfDescribing.decStatus (w : BitVec 32) : PacketSelfDescribing.Statement (.decStatus w) :=
  fun _ => (by decide : (17 : Nat) < 21)
theorem PacketSelfDescribing.decAdc (raw : BitVec 16) : PacketSelfDescribing.Statement (.decAdc raw) :=
  fun _ => (by decide : (18 : Nat) < 21)
theorem PacketSelfDescribing.unpackBits (v n : Nat) : PacketSelfDescribing.Statement (.unpackBits v n) :=
  fun _ => (by decide : (19 : Nat) < 21)
theorem PacketSelfDescribing.decBool (v : Nat) : PacketSelfDescribing.Statement (.decBool v) :=
  fun _ => (by decide : (20 : Nat) < 21)

end Sys2Proof.Laws
end

