-- ==== Sys2Proof/Tests/Slice0.lean ====
section
/-! SUPPORT. Tests. Expected results are the spec's own vectors (spec/95_test_vectors.md, cited by their names: HC1, FP2, ...)
or worked out by hand from the rule named. -/

namespace Sys2Proof.Tests

open Sys2Proof Sys2Proof.Machine

/-! ### Helpers -/

/-- The response a run ends with. -/
def response (o : Host.Outcome State Fault Refusal) : Option Response :=
  match o with
  | .next t => t.out.getLast?
  | .fault _ => none
  | .refused _ => none

/-- One fact about the next state. -/
def holds (o : Host.Outcome State Fault Refusal) (p : State → Bool) : Bool :=
  match o with
  | .next t => p t
  | .fault _ => false
  | .refused _ => false

/-- FIX_A of the fixture catalog (spec/95_test_vectors.md section 2). -/
def fixA : Entry := ⟨0x1001, "fix_a", [⟨"chan_ident", 2, .u8⟩, ⟨"enable", 3, .boolEnum 1⟩]⟩

/-- FIX_B. -/
def fixB : Entry := ⟨0x1002, "fix_b", [⟨"chan_ident", 6, .u16⟩, ⟨"position", 8, .i32⟩]⟩

/-- The frame F_A. -/
def frameA : List Byte := [0x01, 0x10, 0x03, 0x01, 0x22, 0x11]

/-- The frame F_B. -/
def frameB : List Byte := [0x02, 0x10, 0x06, 0x00, 0x81, 0x50, 0x01, 0x00, 0xFE, 0xFF, 0xFF, 0xFF]

/-- The frame F_B4: FIX_B with a declared length of 4. -/
def frameB4 : List Byte := [0x02, 0x10, 0x04, 0x00, 0x81, 0x50, 0x01, 0x00, 0xFE, 0xFF]

/-- The frame F_U of an unregistered msgid. -/
def frameU : List Byte := [0x77, 0x77, 0x00, 0x00, 0x01, 0x50]

/-- FIX_A's frame with a boolean-enum byte of 0 (DP3). -/
def frameA0 : List Byte := [0x01, 0x10, 0x03, 0x00, 0x22, 0x11]

/-- The record of F_A (DP1). -/
def recA : Record := ⟨.known, "fix_a", 0x1001, 0x22, 0x11, [("chan_ident", .int 3), ("enable", .bool true)], none⟩

/-- The record of F_B (DP6). -/
def recB : Record := ⟨.known, "fix_b", 0x1002, 0x01, 0x50, [("chan_ident", .int 1), ("position", .int (-2))], none⟩

/-- After reset and the registration of FIX_A and FIX_B. -/
def booted : State := { State.reset with reg := [(0x1001, fixA), (0x1002, fixB)] }

/-- The same with bytes buffered. -/
def buffered (bs : List Byte) : State := { booted with buf := bs }

/-- The same with a source attached whose next answers are scripted. -/
def sourced (bs : List Byte) (answers : List Answer) : State :=
  { booted with buf := bs, src := answers, cfg := { Params.default with sourceAttached := true } }

/-- A bounded instance with the least legal capacity. -/
def bounded (bs : List Byte) : State := { booted with buf := bs, cfg := { Params.default with bufCap := some 65541 } }

/-! ### Well-formedness refuses each ill-formed term -/

theorem test_wf_long_payload : (Instr.frameLong 0 0 0 (List.replicate 65536 0)).wellFormed = false := by
  show decide ((List.replicate 65536 (0 : Byte)).length ≤ 65535) = false
  rw [List.length_replicate]
  decide
theorem test_wf_pack_bits_width : (Instr.packBits 3 []).wellFormed = false := by decide
theorem test_wf_unpack_bits_count : (Instr.unpackBits 5 0).wellFormed = false := by decide
theorem test_wf_accepts : (Instr.packBits 4 [true]).wellFormed = true ∧ (Instr.unpackBits 5 1).wellFormed = true := by decide
theorem test_params_wf : ({ Params.default with bufCap := some 65540 } : Params).wf = false ∧
    ({ Params.default with nDigout := 0 } : Params).wf = false ∧ Params.default.wf = true := by decide

/-! ### Decoding: each constructor from a word written out from R80, R81 and R90 -/

/-- Bits 47..40 source 0x11, 39 L = 0, 38..32 dest 0x22, 31..24 param2 0x01, 23..16 param1 0x03, 15..0 msgid 0x1001: F_A. -/
theorem test_decode_frame_short :
    decodeTableWord 48 0b000100010010001000000001000000110001000000000001 = some (.frameShort 0x1001 0x03 0x01 0x22 0x11) := by
  decide
/-- The header of F_ADC, as spec/95_test_vectors.md section 2 writes it out in bits; its payload bytes are zero here. -/
theorem test_decode_frame_long :
    decodeTableWord 48 0b010100001000000100000000000001000001000000000100 = some (.frameLong 0x1004 0x01 0x50 [0, 0, 0, 0]) := by
  decide
/-- Every payload byte has its place: byte 6 of the frame is bits 55..48 of the word. -/
theorem test_decode_frame_payload :
    decodeTableWord 64 0x0201508100021004 = some (.frameLong 0x1004 0x01 0x50 [0x01, 0x02]) := by decide
theorem test_decode_reset : decodeTableWord 8 0b00000 = some .reset := by decide
theorem test_decode_register : decodeTableWord 8 0b00001 = some (.register ⟨0, "", []⟩) := by decide
theorem test_decode_feed : decodeTableWord 8 0b00010 = some (.feed []) := by decide
theorem test_decode_pull : decodeTableWord 8 0b00011 = some .pull := by decide
theorem test_decode_coop_pull : decodeTableWord 8 0b00100 = some .coopPull := by decide
theorem test_decode_coop_resume : decodeTableWord 8 0b00101 = some .coopResume := by decide
theorem test_decode_coop_cancel : decodeTableWord 8 0b00110 = some .coopCancel := by decide
theorem test_decode_iterate : decodeTableWord 8 0b00111 = some .iterate := by decide
theorem test_decode_dispatch : decodeTableWord 8 0b01000 = some (.dispatch []) := by decide
theorem test_decode_dec_hdr : decodeTableWord 8 0b01001 = some (.decHdr []) := by decide
theorem test_decode_enc_hdr : decodeTableWord 8 0b01010 = some (.encHdr 0 0 0 0 0) := by decide
theorem test_decode_enc_long_hdr : decodeTableWord 8 0b01011 = some (.encLongHdr 0 0 0 0) := by decide
theorem test_decode_enc_frame : decodeTableWord 8 0b01100 = some (.encFrame 0 0 0 0 0 none) := by decide
theorem test_decode_pack_fields : decodeTableWord 8 0b01101 = some (.packFields []) := by decide
theorem test_decode_pack_bits : decodeTableWord 8 0b01110 = some (.packBits 1 []) := by decide
theorem test_decode_pack_filter : decodeTableWord 8 0b01111 = some (.packFilter []) := by decide
theorem test_decode_enc_bool : decodeTableWord 8 0b10000 = some (.encBool false) := by decide
theorem test_decode_dec_status : decodeTableWord 8 0b10001 = some (.decStatus 0) := by decide
theorem test_decode_dec_adc : decodeTableWord 8 0b10010 = some (.decAdc 0) := by decide
theorem test_decode_unpack_bits : decodeTableWord 8 0b10011 = some (.unpackBits 0 1) := by decide
theorem test_decode_dec_bool : decodeTableWord 8 0b10100 = some (.decBool 0) := by decide
/-- The first and the last undefined code, and a truncated header (R90, R33). -/
theorem test_decode_refuses :
    decodeTableWord 8 0b10101 = none ∧ decodeTableWord 8 0b11111 = none ∧ decodeTableWord 40 0 = none := by decide
/-- Operands travel with the code; one outside the operand type is refused (R90, R170, R231). -/
theorem test_decode_operand_types :
    (decodeCommand ⟨0b10010#5, .int 65535⟩).toOption = some (.decAdc 0xFFFF) ∧
    (decodeCommand ⟨0b10010#5, .int 65536⟩).toOption = none ∧ (decodeCommand ⟨0b10010#5, .int (-1)⟩).toOption = none ∧
    (decodeCommand ⟨0b01010#5, .hdr 1 2 3 none (some 5)⟩).toOption = some (.encHdr 1 2 3 0 5) ∧
    (decodeCommand ⟨0b10011#5, .intCount 5 0⟩).toOption = none ∧ (decodeCommand ⟨0b00010#5, .int 5⟩).toOption = none := by
  decide

/-! ### The host's two questions: the placed word is what the next step runs -/

theorem test_fetch_word_command :
    response (step (State.reset.withFetchWord 8 0b10010)) = some (.ok (.volt 0)) := by decide
theorem test_fetch_word_frame :
    holds (step (State.reset.withFetchWord 48 0x112201031001))
      (fun t => t.buf == [] && t.sealed && t.iter == some [placeholder 0x1001 0x22 0x11]) = true := by decide

/-! ### One step of each instruction -/

/-- UP6, second pull: F_A after the malformed frame. -/
theorem test_frame_short :
    response (exec (.frameShort 0x1001 0x03 0x01 0x22 0x11) (buffered frameA)) = some (.ok (.item recA)) := by decide
/-- UP4: an unknown frame is a placeholder record and one diagnostic event of its size. -/
theorem test_frame_short_unknown :
    holds (exec (.frameShort 0x7777 0 0 0x01 0x50) (buffered (frameU ++ [0xAA])))
      (fun t => t.buf == [0xAA] && t.diag == [.unknown 0x7777 0x01 0x50 6]) = true := by decide
/-- DP6, as a pass of an ITERATE. -/
theorem test_frame_long :
    holds (exec (.frameLong 0x1002 0x01 0x50 [0x01, 0x00, 0xFE, 0xFF, 0xFF, 0xFF]) { buffered frameB with iter := some [recA] })
      (fun t => t.iter == some [recA, recB] && t.buf == [] && t.out == []) = true := by decide
/-- UP6, first pull: a malformed frame keeps its entry's name and its error. -/
theorem test_frame_long_malformed :
    response (exec (.frameLong 0x1002 0x01 0x50 [0x01, 0x00, 0xFE, 0xFF]) (buffered (frameB4 ++ frameA)))
      = some (.ok (.item ⟨.malformed, "fix_b", 0x1002, 0x01, 0x50, [], some (.tooShort 0x1002 0x01 0x50 10 12)⟩)) := by decide
/-- XR5. -/
theorem test_reset :
    holds (exec .reset { buffered frameA with sealed := true, cfgFault := true, ovfFault := true, coopPending := true,
                                              diag := [.unknown 0 0 0 6] })
      (fun t => t == { State.reset with out := [.ok .unit] }) = true := by decide
/-- RG1. -/
theorem test_register :
    holds (exec (.register fixA) State.reset) (fun t => t.reg == [(0x1001, fixA)] && !t.cfgFault) = true := by decide
/-- RG7: BAD_ENTRY before DUPLICATE. -/
theorem test_register_priority :
    response (exec (.register ⟨0x1001, "x", [⟨"dest", 2, .u8⟩]⟩) booted)
      = some (.err (.configuration (.badEntry 0x1001))) := by decide
/-- UP3: bytes enter at the tail. -/
theorem test_feed : holds (exec (.feed [0x22, 0x11]) (buffered [0x01, 0x10])) (fun t => t.buf == [0x01, 0x10, 0x22, 0x11]) = true := by
  decide
/-- XR2: cfg_fault is checked before ovf_fault. -/
theorem test_feed_priority :
    response (exec (.feed [0]) { bounded [] with cfgFault := true, ovfFault := true }) = some (.err (.configuration .fatal)) := by
  decide
/-- UP12: end of stream keeps a partial frame; the read asks for the four bytes missing. -/
theorem test_pull_eof :
    holds (exec .pull (sourced [0x01, 0x10] [.eof]))
      (fun t => t.out == [.ok .ended] && t.buf == [0x01, 0x10] && t.reads == [4]) = true := by decide
/-- P2, step 3: a header and a payload from reads of 4, 4 and 1 bytes; here FIX_A's six bytes from reads of 6, 4. -/
theorem test_pull_reads :
    holds (exec .pull (sourced [] [.data [0x01, 0x10], .data [0x03, 0x01, 0x22, 0x11]]))
      (fun t => t.out == [.ok (.item recA)] && t.reads == [6, 4]) = true := by decide
/-- UP18, first step. -/
theorem test_coop_pull :
    holds (exec .coopPull booted) (fun t => t.out == [.ok .suspended] && t.coopPending) = true := by decide
/-- UP20. -/
theorem test_coop_pull_ready :
    holds (exec .coopPull (buffered frameA)) (fun t => t.out == [.ok (.item recA)] && !t.coopPending) = true := by decide
/-- UP18, last step. -/
theorem test_coop_resume :
    holds (exec .coopResume { buffered frameA with coopPending := true })
      (fun t => t.out == [.ok (.item recA)] && !t.coopPending) = true := by decide
/-- XR3: NOT_PENDING comes first. -/
theorem test_coop_resume_not_pending :
    response (exec .coopResume { booted with cfgFault := true }) = some (.err (.illegalCommand .notPending)) := by decide
/-- UP19: a cancelled pull loses no byte. -/
theorem test_coop_cancel :
    holds (exec .coopCancel { buffered [0x01] with coopPending := true }) (fun t => t.buf == [0x01] && !t.coopPending) = true := by
  decide
/-- UP13: the first pass keeps the record; the ITERATE goes on. -/
theorem test_iterate :
    holds (exec .iterate (buffered (frameA ++ [0x01, 0x10, 0x03])))
      (fun t => t.iter == some [recA] && t.buf == [0x01, 0x10, 0x03] && t.out == []) = true := by decide
/-- UP14, second pass: a source error ends the ITERATE and keeps the records pulled. -/
theorem test_iterate_source_error :
    response (step { sourced [] [.ioErr "X"] with iter := some [recA] }) = some (.ok (.iterated [recA] (.ioErr "X"))) := by decide
/-- R230: the classes of the pull family's answers, ITERATE's stop reasons among them. -/
theorem test_class_codes :
    [Response.ok .notReady, .ok .ended, .err (.sourceIo "X"), .ok (.iterated [] .notReady), .ok (.iterated [] .ended),
      .ok (.iterated [] (.ioErr "X")), .ok .unit].map responseClassCode
      = [some 4, some 9, some 5, some 4, some 9, some 5, none] := by decide
/-- DP10: bytes past the declared frame are ignored. -/
theorem test_dispatch : response (exec (.dispatch (frameB ++ [0xAA, 0xBB])) booted) = some (.ok (.record recB)) := by decide
/-- DP3. -/
theorem test_dispatch_bad_enum :
    response (exec (.dispatch frameA0) booted) = some (.err (.format (.badEnum 0x1001 0x22 0x11 "enable" 0))) := by decide
/-- HC2. -/
theorem test_dec_hdr :
    response (exec (.decHdr [0x04, 0x10, 0x04, 0x00, 0x81, 0x50]) State.reset)
      = some (.ok (.header ⟨0x1004, 4, 0x01, 0x50, true, 0x04, 0x00⟩)) := by decide
/-- HC7. -/
theorem test_dec_hdr_short :
    response (exec (.decHdr [0x01, 0x10, 0x03, 0x01, 0x22]) State.reset) = some (.err (.format (.shortHeader 5 6))) := by decide
/-- HC9. -/
theorem test_enc_hdr :
    response (exec (.encHdr 0x0223 0x50 0x01 1 2) State.reset) = some (.ok (.bytes [0x23, 0x02, 0x01, 0x02, 0x50, 0x01])) := by decide
/-- HC15: msgid is checked before dest. -/
theorem test_enc_hdr_order :
    response (exec (.encHdr 70000 200 0x01 0 0) State.reset) = some (.err (.range .msgid (.int 70000) 16)) := by decide
/-- HC19. -/
theorem test_enc_long_hdr :
    response (exec (.encLongHdr 0x1004 127 1 65535) State.reset) = some (.ok (.bytes [0x04, 0x10, 0xFF, 0xFF, 0xFF, 0x01])) := by decide
/-- HC22. -/
theorem test_enc_frame :
    response (exec (.encFrame 0x1004 0x01 0x50 0 0 (some [0x00, 0x80, 0x00, 0x00])) State.reset)
      = some (.ok (.bytes [0x04, 0x10, 0x04, 0x00, 0x81, 0x50, 0x00, 0x80, 0x00, 0x00])) := by decide
/-- HC25: the conflict comes before the range. -/
theorem test_enc_frame_conflict :
    response (exec (.encFrame 0x10000 0x01 0x50 0 1 (some [0x00])) State.reset) = some (.err (.paramPayloadConflict 0 1)) := by decide
/-- FP2. -/
theorem test_pack_fields :
    response (exec (.packFields [(.u16, .int 1), (.i32, .int (-2))]) State.reset)
      = some (.ok (.bytes [0x01, 0x00, 0xFE, 0xFF, 0xFF, 0xFF])) := by decide
/-- FP11: items are checked in list order. -/
theorem test_pack_fields_order :
    response (exec (.packFields [(.u8, .int 300), (.status32, .int 0)]) State.reset)
      = some (.err (.range (.item 0) (.int 300) 8)) := by decide
/-- S1. -/
theorem test_pack_bits : response (exec (.packBits 1 [true, false, true, false]) State.reset) = some (.ok (.int 5)) := by decide
/-- FP14. -/
theorem test_pack_bits_range :
    response (exec (.packBits 1 [false, false, false, false, false, false, false, false, true]) State.reset)
      = some (.err (.range .flags (.int 256) 8)) := by decide
/-- FP18. -/
theorem test_pack_filter :
    response (exec (.packFilter [some 5, none, some 0, some 7]) State.reset) = some (.ok (.filter [5, 0, 0, 7] 13)) := by decide
/-- FP22. -/
theorem test_enc_bool :
    response (exec (.encBool true) State.reset) = some (.ok (.int 1)) ∧
    response (exec (.encBool false) State.reset) = some (.ok (.int 2)) := by decide
/-- SD6: homing and current_limit_reached, of the 13 flags. -/
theorem test_dec_status :
    holds (exec (.decStatus 0x01000200) State.reset) (fun t => match t.out with
      | [.ok (.status fl)] => fl.length == 13 && (fl.filter Prod.snd).map Prod.fst == ["homing", "current_limit_reached"]
      | _ => false) = true := by decide
/-- S3 and SD8. -/
theorem test_dec_adc :
    response (exec (.decAdc 32768) State.reset) = some (.ok (.volt 5)) ∧
    response (exec (.decAdc 65535) State.reset) = some (.ok (.volt (mkRat 327675 32768))) := by decide
/-- S2 and SD10. -/
theorem test_unpack_bits :
    response (exec (.unpackBits 5 4) State.reset) = some (.ok (.flags [true, false, true, false])) ∧
    response (exec (.unpackBits 0xFF 4) State.reset) = some (.ok (.flags [true, true, true, true])) := by decide
/-- SD13 and SD14. -/
theorem test_dec_bool :
    response (exec (.decBool 2) State.reset) = some (.ok (.bool false)) ∧
    response (exec (.decBool 0) State.reset) = some (.err (.format (.badEnumValue 0))) := by decide

/-! ### Witnesses: the hypotheses of each statement are met, clause by clause, at the boundaries of their ranges -/

/-- Issued with no ITERATE in progress; issued beside one, the commands just outside the consumer's codes. -/
theorem witness_StepRunsIssuedCommand :
    (decodeCommand ⟨3, .none⟩).toOption = some .pull ∧ booted.iter = none ∧
    (decodeCommand ⟨2, .bytes [0x01]⟩).toOption = some (.feed [0x01]) ∧ isConsumerCode 2 = false ∧
    (decodeCommand ⟨8, .bytes frameA⟩).toOption = some (.dispatch frameA) ∧ isConsumerCode 8 = false ∧
    ({ booted with inbox := [.command ⟨2, .bytes [0x01]⟩], iter := some [] } : State).inbox
      = .command ⟨2, .bytes [0x01]⟩ :: [] := by decide
theorem witness_StepRunsIssuedCommand_decodes : decodeCommand ⟨3, .none⟩ = .ok .pull := rfl

theorem witness_StepRunsHeadFrameOfIterate :
    ({ buffered (frameA ++ [0x01]) with iter := some [] } : State).iter = some [] ∧
    decodeFrame (frameA ++ [0x01]) = .ok (.frameShort 0x1001 0x03 0x01 0x22 0x11, [0x01]) ∧
    isConsumerCode 3 = true ∧ isConsumerCode 7 = true := ⟨rfl, rfl, rfl, rfl⟩

theorem witness_UndefinedCodesAreRefused : 21 ≤ (21 : BitVec 5).toNat ∧ 21 ≤ (31 : BitVec 5).toNat ∧
    ({ booted with inbox := [.command ⟨31, .none⟩] } : State).inbox = .command ⟨31, .none⟩ :: [] := by decide

theorem witness_DecodeInvertsEncode :
    (Instr.frameLong 0x1002 0x01 0x50 (List.replicate 65535 0)).wellFormed = true ∧
    (Instr.packBits 1 []).wellFormed = true ∧ (Instr.packBits 4 [true]).wellFormed = true ∧
    (Instr.unpackBits 0 1).wellFormed = true := by
  refine ⟨?_, by decide, by decide, by decide⟩
  show decide ((List.replicate 65535 (0 : Byte)).length ≤ 65535) = true
  rw [List.length_replicate]
  decide

theorem witness_FrameDecodesFromHeadOfStream :
    (Instr.frameShort 0x1001 0x03 0x01 0x22 0x11).wellFormed = true ∧
    encode (.frameShort 0x1001 0x03 0x01 0x22 0x11) = .frame frameA ∧
    (Instr.frameLong 0x1002 0x01 0x50 []).wellFormed = true ∧
    encode (.frameLong 0x1002 0x01 0x50 []) = .frame [0x02, 0x10, 0x00, 0x00, 0x81, 0x50] := by decide

theorem witness_DecodedFrameReencodes :
    (6 ≤ frameA.length ∧ frameSize frameA ≤ frameA.length) ∧
    (6 ≤ (frameB ++ frameU).length ∧ frameSize (frameB ++ frameU) ≤ (frameB ++ frameU).length) := by decide

theorem witness_HeaderFieldsAreBitSlices : 6 ≤ frameA.length := by decide

theorem witness_FormatRowsPartitionHeaders :
    (6 ≤ frameA.length ∧ decodeFrame frameA = .ok (.frameShort 0x1001 0x03 0x01 0x22 0x11, [])) ∧
    (6 ≤ frameB.length ∧
      decodeFrame frameB = .ok (.frameLong 0x1002 0x01 0x50 [0x01, 0x00, 0xFE, 0xFF, 0xFF, 0xFF], [])) :=
  ⟨⟨by decide, rfl⟩, ⟨by decide, rfl⟩⟩

theorem witness_FrameSizeFromHeader : 6 ≤ frameA.length ∧ 6 ≤ frameB.length := by decide

theorem witness_HeaderRoundTripLaws (s : State) :
    exec (.encFrame 0x1001 0x22 0x11 3 1 none) s = .next (s.respond (.ok (.bytes frameA))) ∧
    exec (.encFrame 0x1002 0x01 0x50 0 0 (some [])) s
      = .next (s.respond (.ok (.bytes [0x02, 0x10, 0x00, 0x00, 0x81, 0x50]))) := ⟨rfl, rfl⟩

/-- One item of every packable type, and of field widths only PACK_FIELDS has, the integers at the ends of their ranges. -/
theorem witness_PackFieldsCompletes :
    ∀ p ∈ [(Ty.u8, PackValue.int 255), (.u8, .int 0), (.u16, .int 65535), (.i16, .int (-32768)), (.i16, .int 32767),
        (.u32, .int 4294967295), (.i32, .int (-2147483648)), (.i32, .int 2147483647), (.bytes 0, .bytes []),
        (.bytes 2, .bytes [1, 2]), (.bits 1 9, .flags [true, false, false, false, false, false, false, true, false]),
        (.boolEnum 1, .bool false), (.boolEnum 2, .bool true), (.boolEnum 4, .bool true), (.bits 3 1, .flags [true])],
      packable p = true := by decide

theorem witness_PackedFrameDispatchesBack :
    (∀ p ∈ [("chan_ident", Ty.u16, PackValue.int 1), ("position", .i32, .int (-2))],
      packable p.2 = true ∧ tyWF p.2.1 = true) ∧
    ([("chan_ident", Ty.u16, PackValue.int 1), ("position", .i32, .int (-2))].map (fun p => width p.2.1)).sum ≤ 65535 ∧
    booted.cfgFault = false ∧
    Registry.find 0x1002 booted.reg = some ⟨((0x1002 : MsgId).toNat : Int), "fix_b",
      layoutFrom 6 [("chan_ident", Ty.u16, PackValue.int 1), ("position", .i32, .int (-2))]⟩ := by decide

/-- The first value past each end of a range, and a byte string one short. -/
theorem witness_PackFieldsReportsFirstBadItem :
    (∀ p ∈ [(Ty.u16, PackValue.int 1)], packable p = true) ∧ (Ty.adc16 = .status32 ∨ Ty.adc16 = .adc16) ∧
    (Ty.i16, (-32768 : Int), (32767 : Int)) ∈ [(Ty.u8, (0 : Int), (255 : Int)), (.u16, 0, 65535), (.i16, -32768, 32767),
        (.u32, 0, 4294967295), (.i32, -2147483648, 2147483647)] ∧
    ((-32769 : Int) < -32768 ∨ (32767 : Int) < -32769) ∧ ((32768 : Int) < -32768 ∨ (32767 : Int) < 32768) ∧
    ([0x01, 0x02, 0x03] : List Byte).length ≠ 4 ∧ [true].length ≠ 2 ∧ 8 * 1 ≤ 8 ∧
    ([false, false, false, false, false, false, false, false, true] : List Bool).getD 8 false = true := by decide

theorem witness_PackBitsAnswersMask : (1 = 1 ∨ 1 = 2 ∨ 1 = 4) ∧ orFlags 0 [true, false, true, false] < 2 ^ (8 * 1) := by
  decide

theorem witness_PackFilterAnswersValuesAndMask :
    [some (5 : Int), none][0]? = some (some 5) ∧ [some (5 : Int), none][1]? = some none ∧
    [some (5 : Int), none].length ≤ 2 := by decide

theorem witness_DecStatusAnswersNamedBits :
    booted.cfg.statusFlags[0]? = some ("forward_limit_switch", 0) ∧
    booted.cfg.statusFlags[12]? = some ("channel_enabled", 31) := by decide

theorem witness_UnpackBitsAnswersLowBits : 1 ≤ 1 ∧ 0 < 1 := by decide

theorem witness_BitfieldFidelityLaws : (4 = 1 ∨ 4 = 2 ∨ 4 = 4) ∧
    ∀ i, 8 * 1 ≤ i → ([true, false, true, false] : List Bool).getD i false = false := by
  refine ⟨by decide, fun i hi => ?_⟩
  rw [List.getD_eq_getElem?_getD, List.getElem?_eq_none (by simp; omega)]
  rfl

theorem witness_RegisterOutcome :
    ({ booted with cfgFault := true } : State).cfgFault = true ∧
    (booted.cfgFault = false ∧ ({ booted with sealed := true } : State).sealed = true) ∧
    (booted.sealed = false ∧ entryWF booted.cfg.statusFlags ⟨65536, "x", []⟩ = false) ∧
    (entryWF booted.cfg.statusFlags fixA = true ∧ Registry.find (BitVec.ofInt 16 fixA.msgid) booted.reg ≠ none) ∧
    (entryWF booted.cfg.statusFlags ⟨65535, "x", []⟩ = true ∧ Registry.find (BitVec.ofInt 16 65535) booted.reg = none) := by
  decide

/-- One entry that fails each condition of WF: RG4. -/
theorem witness_EntryWellFormedIff :
    booted.cfgFault = false ∧ booted.sealed = false ∧
    ∀ e ∈ [(⟨-1, "x", []⟩ : Entry), ⟨1, "", []⟩, ⟨1, "unknown", []⟩, ⟨1, "x", [⟨"x", 2, .u8⟩, ⟨"x", 3, .u8⟩]⟩,
        ⟨1, "x", [⟨"dest", 2, .u8⟩]⟩, ⟨1, "x", [⟨"a", 6, .status32⟩, ⟨"b", 6, .status32⟩]⟩,
        ⟨1, "x", [⟨"a", 6, .status32⟩, ⟨"homed", 2, .u8⟩]⟩, ⟨1, "x", [⟨"f", 65540, .u16⟩]⟩, ⟨1, "x", [⟨"f", 6, .bytes 0⟩]⟩,
        ⟨1, "x", [⟨"f", 2, .bits 1 9⟩]⟩, ⟨1, "x", [⟨"f", 2, .boolEnum 4⟩]⟩],
      entryWF booted.cfg.statusFlags e = false := by decide

/-- A row of the decision table each: five bytes, an unknown msgid, one byte short, an illegal enum, a legal frame. -/
theorem witness_DispatchDecisionTable :
    booted.cfgFault = false ∧ Registry.keyed booted.cfg.statusFlags booted.reg ∧ (frameA.take 5).length < 6 ∧
    (6 ≤ frameU.length ∧ Registry.find (hdrMsgid frameU) booted.reg = none) ∧
    (Registry.find (hdrMsgid (frameB.take 11)) booted.reg = some fixB ∧
      min (frameB.take 11).length (frameSize (frameB.take 11)) < minSize fixB.fields) ∧
    (Registry.find (hdrMsgid frameA0) booted.reg = some fixA ∧ minSize fixA.fields ≤ min frameA0.length (frameSize frameA0) ∧
      enumsLegal (frameA0.take (min frameA0.length (frameSize frameA0))) fixA.fields = false) ∧
    (Registry.find (hdrMsgid frameA) booted.reg = some fixA ∧ minSize fixA.fields ≤ min frameA.length (frameSize frameA) ∧
      enumsLegal (frameA.take (min frameA.length (frameSize frameA))) fixA.fields = true) := by decide

/-- Two states that agree in the registry alone. -/
theorem witness_DispatchIsPure :
    (buffered frameA).reg = (sourced [] [.eof]).reg ∧ (buffered frameA).cfgFault = (sourced [] [.eof]).cfgFault ∧
    (buffered frameA).cfg.statusFlags = (sourced [] [.eof]).cfg.statusFlags ∧
    Registry.keyed (buffered frameA).cfg.statusFlags (buffered frameA).reg := by decide

theorem witness_FieldExtractionValues :
    decodeFields [] frameA0 [⟨"chan_ident", 2, .u8⟩] = .ok [("chan_ident", .int 3)] ∧
    decodeField [] frameA0 ⟨"enable", 3, .boolEnum 1⟩ = .error (.badEnum 0x1001 0x22 0x11 "enable" 0) ∧
    List.Forall₂ (fun d fs => decodeField [("a", 0), ("b", 1)] frameA d = .ok fs) [⟨"x", 2, .status32⟩, ⟨"y", 2, .u8⟩]
      [[("a", .bool true), ("b", .bool true)], [("y", .int 3)]] := ⟨rfl, rfl, .cons rfl (.cons rfl .nil)⟩

/-- A FEED, and a REGISTER refused, in a state with every sticky bit set. -/
theorem witness_SealAndFaultsAreSticky :
    (∃ t, step { bounded [] with sealed := true, cfgFault := true, ovfFault := true, inbox := commandEvents (.register fixA) }
      = .next t) ∧
    ({ bounded [] with sealed := true, cfgFault := true, ovfFault := true,
                       inbox := commandEvents (.register fixA) } : State).resetNext = false := ⟨⟨_, rfl⟩, rfl⟩

/-- The capacity met exactly, and missed by one byte. -/
theorem witness_FeedOutcome :
    ({ booted with cfgFault := true } : State).cfgFault = true ∧
    (booted.cfgFault = false ∧ ({ bounded [] with ovfFault := true } : State).ovfFault = true) ∧
    ((bounded frameA).cfg.bufCap = some 65541 ∧ (bounded frameA).ovfFault = false ∧
      65541 < (bounded frameA).buf.length + (List.replicate 65536 (0 : Byte)).length ∧
      (bounded frameA).buf.length + (List.replicate 65535 (0 : Byte)).length ≤ 65541) := by
  refine ⟨by decide, by decide, by decide, by decide, ?_, ?_⟩ <;> rw [List.length_replicate] <;> decide

theorem witness_PullWithoutSource :
    (buffered frameA).mayPull ∧ (buffered frameA).cfg.sourceAttached = false ∧
    Registry.keyed (buffered frameA).cfg.statusFlags (buffered frameA).reg ∧ phase frameA = .frameReady ∧
    phase (frameA.take 5) ≠ .frameReady ∧ phase (frameB.take 11) ≠ .frameReady := by decide

/-- A known, an unknown and a malformed head frame. -/
theorem witness_EmissionFollowsDispatch :
    (∀ f ∈ [frameA, frameU, frameB4], (buffered f).mayPull ∧ phase f = .frameReady ∧
      Registry.keyed (buffered f).cfg.statusFlags (buffered f).reg) ∧
    exec (.dispatch frameA) (buffered frameA)
      = .next (({ buffered frameA with sealed := true } : State).respond (.ok (.record recA))) ∧
    exec (.dispatch frameU) (buffered frameU)
      = .next (({ buffered frameU with sealed := true } : State).respond (.err (.unknownMessage 0x7777 0x01 0x50))) ∧
    exec (.dispatch frameB4) (buffered frameB4) = .next (({ buffered frameB4 with sealed := true } : State).respond
      (.err (.format (.tooShort 0x1002 0x01 0x50 10 12)))) := ⟨by decide, rfl, rfl, rfl⟩

/-- A step that feeds, a step that emits, and a step that reads five bytes and then one. -/
theorem witness_StepsConsumeWholeFrames :
    (∃ t, step { booted with inbox := commandEvents (.feed frameA) } = .next t) ∧
    ({ booted with inbox := commandEvents (.feed frameA) } : State).resetNext = false ∧
    (∃ t, step { buffered frameA with inbox := commandEvents .pull } = .next t) ∧
    ({ buffered frameA with inbox := commandEvents .pull } : State).resetNext = false ∧
    (∃ t, step { sourced [] [.data (frameA.take 5), .data (frameA.drop 5), .eof] with inbox := commandEvents .pull } = .next t ∧
      t.reads = [6, 1] ∧ bytesRead (sourced [] [.data (frameA.take 5), .data (frameA.drop 5), .eof]) [6, 1] = frameA ∧
      t.src = [.eof] ∧ t.buf = []) := ⟨⟨_, rfl⟩, rfl, ⟨_, rfl⟩, rfl, ⟨_, rfl, rfl, rfl, rfl, rfl⟩⟩

/-- Five bytes of a header, and one byte short of a long frame; an empty answer and one byte too many. -/
theorem witness_PullEndsAtFirstNonData :
    (sourced (frameA.take 5) [.noneYet]).mayPull ∧ (sourced (frameA.take 5) [.noneYet]).cfg.sourceAttached = true ∧
    phase (frameA.take 5) ≠ .frameReady ∧ phase (frameB.take 11) ≠ .frameReady ∧
    (sourced (frameA.take 5) [.noneYet]).src = .noneYet :: [] ∧ (sourced [] [.eof]).src = .eof :: [] ∧
    (sourced [] [.ioErr "X"]).src = .ioErr "X" :: [] ∧
    (sourced (frameA.take 5) [.data [0x11, 0x11]]).src = .data [0x11, 0x11] :: [] ∧
    missing (sourced (frameA.take 5) [.data [0x11, 0x11]]).buf < ([0x11, 0x11] : List Byte).length ∧
    ([] : List Byte).length = 0 := by decide

theorem witness_PullReadsOnAfterData :
    (sourced [] [.data frameA]).mayPull ∧ (sourced [] [.data frameA]).cfg.sourceAttached = true ∧
    phase (sourced [] [.data frameA]).buf ≠ .frameReady ∧ (sourced [] [.data frameA]).src = .data frameA :: [] ∧
    1 ≤ frameA.length ∧ frameA.length ≤ missing (sourced [] [.data frameA]).buf := by decide

theorem witness_PullsCompleteWithLegalSource :
    sourceKeeps [] (sourced [] [.data [0x01], .noneYet, .eof]).src = true ∧
    sourceKeeps (frameA.take 2) [.data (frameA.drop 2), .data []] = true ∧
    sourceKeeps (frameA.take 2) [.data (frameA.drop 1)] = false ∧
    (sourced [] [.data [0x01], .noneYet, .eof]).cfgFault = false ∧ (sourced [] [.data [0x01], .noneYet, .eof]).ovfFault = false ∧
    (sourced [] [.data [0x01], .noneYet, .eof]).coopPending = false ∧
    ({ sourced [] [.eof] with coopPending := true } : State).coopPending = true := by decide

theorem witness_CoopPullSuspendsOrPulls :
    booted.mayPull ∧ booted.cfg.sourceAttached = false ∧ phase booted.buf ≠ .frameReady ∧
    (buffered frameA).mayPull ∧ phase (buffered frameA).buf = .frameReady ∧
    Registry.keyed (buffered frameA).cfg.statusFlags (buffered frameA).reg := by decide
theorem witness_CoopPullSuspendsOrPulls_next :
    exec .pull booted = .next { booted with out := booted.out ++ [.ok .notReady] } := rfl

theorem witness_CoopResumeOutcome :
    booted.coopPending = false ∧ ({ booted with coopPending := true } : State).coopPending = true ∧ booted.cfgFault = false ∧
    booted.ovfFault = false ∧ booted.cfg.sourceAttached = false ∧ phase booted.buf ≠ .frameReady ∧
    phase (buffered frameA).buf = .frameReady ∧ Registry.keyed (buffered frameA).cfg.statusFlags (buffered frameA).reg := by decide
/-- With a source: five bytes of a header, and each answer that is not data. -/
theorem witness_CoopResumeOutcome_source :
    (∀ a ∈ [Answer.noneYet, .eof, .ioErr "X"],
      ({ sourced (frameA.take 5) [a] with coopPending := true } : State).cfg.sourceAttached = true ∧
      ({ sourced (frameA.take 5) [a] with coopPending := true } : State).src = a :: []) ∧
    phase (sourced (frameA.take 5) []).buf ≠ .frameReady ∧ (sourced (frameA.take 5) []).cfgFault = false ∧
    (sourced (frameA.take 5) []).ovfFault = false := by decide
theorem witness_CoopResumeOutcome_next :
    exec .pull { ({ booted with coopPending := true } : State) with coopPending := false }
      = .next { booted with out := booted.out ++ [.ok .notReady] } := rfl

theorem witness_IterateFirstPass :
    booted.mayPull ∧ booted.cfg.sourceAttached = false ∧ Registry.keyed booted.cfg.statusFlags booted.reg ∧
    phase booted.buf ≠ .frameReady ∧ (buffered frameA).mayPull ∧ phase (buffered frameA).buf = .frameReady ∧
    (∀ a ∈ [Answer.noneYet, .eof, .ioErr "X"], (sourced (frameA.take 5) [a]).mayPull ∧
      (sourced (frameA.take 5) [a]).cfg.sourceAttached = true ∧ (sourced (frameA.take 5) [a]).src = a :: []) ∧
    phase (sourced (frameA.take 5) []).buf ≠ .frameReady := by decide
theorem witness_IterateFirstPass_next :
    exec .pull booted = .next { booted with out := booted.out ++ [.ok .notReady] } := rfl

theorem witness_IterateLaterPass :
    ({ buffered frameA with iter := some [recB] } : State).mayPull ∧
    ({ buffered frameA with iter := some [recB] } : State).inbox = [] ∧ phase (buffered frameA).buf = .frameReady ∧
    (∀ a ∈ [Answer.noneYet, .eof, .ioErr "X"],
      ({ sourced (frameA.take 5) [a] with iter := some [recB] } : State).mayPull ∧
      (sourced (frameA.take 5) [a]).cfg.sourceAttached = true ∧ (sourced (frameA.take 5) [a]).src = a :: []) ∧
    phase (sourced (frameA.take 5) []).buf ≠ .frameReady := by decide
theorem witness_IterateLaterPass_next :
    exec .pull { buffered frameA with iter := some [recB] } = .next
      { buffered frameA with iter := some [recB], buf := [], sealed := true, out := [.ok (.item recA)] } := rfl

theorem witness_IterateDrainsWholeFrames :
    (∀ i ∈ [Instr.frameShort 0x1001 0x03 0x01 0x22 0x11, .frameLong 0x1002 0x01 0x50 [0x01, 0x00, 0xFE, 0xFF]],
      isFrameInstr i = true ∧ i.wellFormed = true) ∧
    frameA ++ frameB4 ++ [0x01] = [Instr.frameShort 0x1001 0x03 0x01 0x22 0x11,
      .frameLong 0x1002 0x01 0x50 [0x01, 0x00, 0xFE, 0xFF]].flatMap wireBytes ++ [0x01] ∧
    phase [0x01] ≠ .frameReady ∧ booted.mayPull ∧ booted.cfg.sourceAttached = false ∧
    Registry.keyed booted.cfg.statusFlags booted.reg ∧ booted.iter = none := by decide

theorem witness_FragmentationIndependence :
    (∀ i ∈ [Instr.feed (frameA.take 2), .pull, .feed (frameA.drop 2)], i = .pull ∨ ∃ bs, i = .feed bs) ∧
    booted.mayPull ∧ booted.cfg.sourceAttached = false ∧ booted.cfg.bufCap = none ∧
    Registry.keyed booted.cfg.statusFlags booted.reg ∧
    (booted.buf ++ [Instr.feed (frameA.take 2), .pull, .feed (frameA.drop 2)].flatMap fedBytes).length ≤ 6 := by
  refine ⟨?_, by decide, by decide, by decide, by decide, by decide⟩
  simp

theorem witness_FrameRunEmitsOneRecord :
    (∀ i ∈ [Instr.frameShort 0x1001 0x03 0x01 0x22 0x11, .frameLong 0x1002 0x01 0x50 [0x01, 0x00, 0xFE, 0xFF]],
      isFrameInstr i = true ∧ i.wellFormed = true) ∧
    (buffered (frameA ++ [0x01])).buf = wireBytes (.frameShort 0x1001 0x03 0x01 0x22 0x11) ++ [0x01] ∧
    (buffered frameB4).buf = wireBytes (.frameLong 0x1002 0x01 0x50 [0x01, 0x00, 0xFE, 0xFF]) ++ [] ∧
    booted.cfgFault = false ∧ Registry.keyed booted.cfg.statusFlags booted.reg ∧ booted.iter = none ∧
    ({ booted with iter := some [recA] } : State).iter = some [recA] := by decide

theorem witness_PullRunsHeadFrame :
    (buffered frameB).mayPull ∧ (buffered frameB).iter = none ∧
    decodeFrame (buffered frameB).buf = .ok (.frameLong 0x1002 0x01 0x50 [0x01, 0x00, 0xFE, 0xFF, 0xFF, 0xFF], []) :=
  ⟨by decide, rfl, rfl⟩

/-- A fair run: a pull is pending, its frame is buffered, and COOP_RESUME is issued first. After that the agents issue
nothing and the machine waits. -/
def fairStart : State := { buffered frameA with coopPending := true }
def fairEnd : State := { booted with sealed := true, out := [.ok (.item recA)] }
def fairRun (n : Nat) : State := if n = 0 then fairStart else fairEnd
def fairIssued (n : Nat) : List Event := if n = 0 then commandEvents .coopResume else []

theorem witness_FairCooperativePullReturns_run :
    IsRun fairRun fairIssued (fun _ => []) ∧ CoopFair fairRun fairIssued (fun _ => []) ∧ (fairRun 0).Inv ∧
    (fairRun 0).coopPending = true ∧ phase (fairRun 0).buf = .frameReady := by
  refine ⟨fun n => ?_, fun n hn => ?_, by decide, by decide, by decide⟩
  · cases n with
    | zero => exact (rfl : step (fairStart.arrive (commandEvents .coopResume) []) = .next fairEnd)
    | succ n => exact (rfl : step (fairEnd.arrive [] []) = .next fairEnd)
  · cases n with
    | zero => exact ⟨0, Nat.le_refl 0, .inr ⟨_, rfl⟩⟩
    | succ n => exact ⟨n + 1, Nat.le_refl _, .inl rfl⟩

/-- A step that takes COOP_RESUME, a step that keeps the pull pending, and a pull pending with five bytes buffered. -/
theorem witness_FairCooperativePullReturns_step :
    (fairStart.Inv ∧ fairStart.cfgFault = false ∧ fairStart.ovfFault = false) ∧
    fetch { fairStart with inbox := commandEvents .coopResume } = .run .coopResume fairStart ∧
    (∃ t, step { fairStart with inbox := commandEvents (.feed [0x01]) } = .next t ∧ t.coopPending = true) ∧
    (({ buffered (frameA.take 5) with coopPending := true } : State).cfg.sourceAttached = false ∧
      phase (frameA.take 5) ≠ .frameReady ∧ ({ buffered (frameA.take 5) with coopPending := true } : State).iter = none ∧
      ({ buffered (frameA.take 5) with coopPending := true } : State).inbox = []) :=
  ⟨by decide, rfl, ⟨_, rfl, rfl⟩, by decide⟩

theorem witness_StickyRefusalOrder :
    booted.coopPending = false ∧
    (({ booted with cfgFault := true, coopPending := true } : State).cfgFault = true ∧
      ({ booted with cfgFault := true, coopPending := true } : State).coopPending = true) ∧
    (({ bounded [] with ovfFault := true, coopPending := true } : State).cfgFault = false ∧
      ({ bounded [] with ovfFault := true, coopPending := true } : State).ovfFault = true ∧
      ({ bounded [] with ovfFault := true, coopPending := true } : State).coopPending = true) ∧
    (({ booted with coopPending := true } : State).cfgFault = false ∧
      ({ booted with coopPending := true } : State).ovfFault = false ∧
      ({ booted with coopPending := true } : State).coopPending = true) := by decide

theorem witness_PureOperationsIgnoreState :
    isPureInstr (.decHdr frameA) = true ∧ isPureInstr (.decBool 1) = true ∧
    booted.cfg.statusFlags = defaultStatusFlags := by decide

theorem witness_PowerOnIsResetState : ∃ t, exec .reset { buffered frameA with cfgFault := true } = .next t := ⟨_, rfl⟩

theorem witness_InvariantHoldsAtReset :
    ({ Params.default with bufCap := some 65541, sourceAttached := true } : Params).wf = true := by decide

/-- A state with a registry, a partial frame, a bounded buffer and a pull pending. -/
theorem witness_StepKeepsInvariant :
    ({ bounded (frameA.take 5) with coopPending := true, inbox := commandEvents (.feed [0x11]) } : State).Inv ∧
    ∃ t, step { bounded (frameA.take 5) with coopPending := true, inbox := commandEvents (.feed [0x11]) } = .next t :=
  ⟨by decide, ⟨_, rfl⟩⟩

theorem witness_ParametersNeverChange : ∃ t, step { booted with inbox := commandEvents .reset } = .next t := ⟨_, rfl⟩

theorem witness_EveryOperationAnswersOnce :
    (∃ t, exec .pull booted = .next t) ∧ Instr.pull ≠ .iterate ∧ isFrameInstr .pull = false ∧
    exec .iterate (buffered frameA)
      = .next { buffered frameA with buf := [], sealed := true, iter := some [recA] } := ⟨⟨_, rfl⟩, by decide, rfl, rfl⟩

/-- The later pass that ends an ITERATE, and a step with nothing to do. -/
theorem witness_EveryOperationAnswersOnce_step :
    step { booted with iter := some [recA] } = .next { booted with out := [.ok (.iterated [recA] .notReady)] } ∧
    step booted = .next booted := ⟨rfl, rfl⟩

theorem witness_BootFillsRegistry :
    (∀ e ∈ [fixA, fixB], entryWF defaultStatusFlags e = true) ∧ ([fixA, fixB].map Entry.msgid).Nodup ∧
    holds (Sys2Proof.core.run 2 { State.resetWith { Params.default with catalog := [fixA, fixB] } with
      inbox := bootEvents { Params.default with catalog := [fixA, fixB] } }) (fun t => !t.cfgFault && t.reg == booted.reg) = true := by
  decide

theorem witness_StepStopsOnlyOnIllegalAnswer :
    step { sourced [] [.data []] with inbox := commandEvents .pull } = .fault .sourceOutsideAlphabet := rfl

theorem witness_DiagnosticsOnlyFromEmission :
    (∃ t, step { buffered frameU with inbox := commandEvents .pull } = .next t) ∧
    ({ buffered frameU with inbox := commandEvents .pull } : State).resetNext = false := ⟨⟨_, rfl⟩, rfl⟩

end Sys2Proof.Tests
end

/-! Proofs of the family 10_state: what a step keeps (spec/10_state.md R30, R36 to R39, R43, R44; R270, R271). -/

namespace Sys2Proof.Machine

/-! ### What reads, an emission and a step other than RESET keep of S -/

/-- From s to t the parameters stay, no sticky element is cleared, no overflow fault appears without a capacity, and INV1 is
not lost: what every step but RESET does with these elements of S (R30, R37 to R39, R44). -/
structure Advances (s t : State) : Prop where
  cfg : t.cfg = s.cfg
  sealed : s.sealed = true → t.sealed = true
  cfgFault : s.cfgFault = true → t.cfgFault = true
  ovfFault : s.ovfFault = true → t.ovfFault = true
  unbounded : s.cfg.bufCap = none → t.ovfFault = s.ovfFault
  withinCap : s.cfg.wf = true → withinCap s.cfg s.buf = true → withinCap s.cfg t.buf = true

theorem Advances.trans {s u t : State} (h1 : Advances s u) (h2 : Advances u t) : Advances s t where
  cfg := h2.cfg.trans h1.cfg
  sealed := h2.sealed ∘ h1.sealed
  cfgFault := h2.cfgFault ∘ h1.cfgFault
  ovfFault := h2.ovfFault ∘ h1.ovfFault
  unbounded h := (h2.unbounded (h1.cfg ▸ h)).trans (h1.unbounded h)
  withinCap hp hb := h1.cfg ▸ h2.withinCap (h1.cfg ▸ hp) (h1.cfg ▸ h1.withinCap hp hb)

theorem Keeps.reg {s t : State} (h : Keeps s t) : t.reg = s.reg := h.2.1

theorem Keeps.advances {s t : State} (h : Keeps s t) : Advances s t := by
  obtain ⟨hbuf, -, hsealed, hcf, hof, -, hcfg, -, -⟩ := h
  constructor <;> simp_all

/-- A shorter buffer is within the capacity too (INV1). -/
theorem withinCap_drop {p : Params} {buf : List Byte} (n : Nat) (h : withinCap p buf = true) :
    withinCap p (buf.drop n) = true := by
  unfold withinCap at *
  split
  · rfl
  · next cap hcap =>
    simp only [hcap, decide_eq_true_eq, List.length_drop] at h ⊢
    omega

theorem Filled.reg {n : Nat} {s u : State} (h : Filled n s u) : u.reg = s.reg := by
  obtain ⟨ns, rfl, -⟩ := h
  rfl

/-- The reads of a pull write the buffer, up to the head frame's size, and the source's side (R195). -/
theorem Filled.advances {s u : State} (h : Filled (max 6 (frameSize u.buf)) s u) : Advances s u := by
  have hcap : s.cfg.wf = true → withinCap s.cfg s.buf = true → withinCap s.cfg u.buf = true :=
    fun hp hb => filled_withinCap hp h hb
  obtain ⟨ns, rfl, -⟩ := h
  exact ⟨rfl, id, id, id, fun _ => rfl, hcap⟩

/-- An emission takes bytes from the buffer, seals the registry, and may set cfg_fault (R193). -/
theorem emit_advances {u : State} (hp : phase u.buf = .frameReady) : Advances u (emit u).2 := by
  obtain h | ⟨b, ds, -, -, h⟩ := emit_state u hp <;> rw [h]
  · exact (Keeps.refl u).advances
  · constructor
    case withinCap => exact fun _ hb => withinCap_drop _ hb
    all_goals simp +contextual

theorem emit_reg {u : State} (hp : phase u.buf = .frameReady) : (emit u).2.reg = u.reg := by
  obtain h | ⟨b, ds, -, -, h⟩ := emit_state u hp <;> rw [h]

/-- The last writes of a step are to elements `Keeps` leaves out, which `Advances` does not speak of. -/
theorem Keeps.advances_after {s u t : State} (h : Keeps u t) (hu : Advances s u) : Advances s t := hu.trans h.advances

theorem Effect.advances {feed : Option (List Byte)} {s t : State} (h : Effect feed s t) : Advances s t := by
  cases h with
  | keeps h => exact h.advances
  | fed bs _ hc h => exact h.advances_after ⟨rfl, id, id, id, fun _ => rfl, fun _ _ => hc⟩
  | registered e _ _ _ h => exact h.advances_after ⟨rfl, id, id, id, fun _ => rfl, fun _ => id⟩
  | configFault h => exact h.advances_after ⟨rfl, id, fun _ => rfl, id, fun _ => rfl, fun _ => id⟩
  | overflow hc h => exact h.advances_after ⟨rfl, id, id, fun _ => rfl, fun hn => absurd hn hc, fun _ => id⟩
  | dispatched b h =>
    exact h.advances_after ⟨rfl, fun _ => rfl, by simp +contextual, id, fun _ => rfl, fun _ => id⟩
  | read u hf _ h => exact h.advances_after hf.advances
  | emitted u hf _ hp _ h => exact h.advances_after (hf.advances.trans (emit_advances hp))

/-- The registry is written by a successful REGISTER alone: one well-formed entry, under its own new key, before the
registry is sealed (R37, R72, R140). -/
theorem Effect.reg {feed : Option (List Byte)} {s t : State} (h : Effect feed s t) :
    t.reg = s.reg ∨ s.sealed = false ∧ ∃ e, entryWF s.cfg.statusFlags e = true ∧
      Registry.find (entryKey e) s.reg = none ∧ t.reg = Registry.add (entryKey e) e s.reg := by
  cases h with
  | registered e hs hw hn h => exact .inr ⟨hs, e, hw, hn, h.reg⟩
  | emitted u hf _ hp _ h => exact .inl (h.reg.trans ((emit_reg hp).trans hf.reg))
  | read u hf _ h => exact .inl (h.reg.trans hf.reg)
  | keeps h | fed _ _ _ h | configFault h | overflow _ h | dispatched _ h => exact .inl h.reg

/-- INV2 and the canonical form of the registry survive every effect of a step. -/
theorem Effect.registry_good {feed : Option (List Byte)} {s t : State} (h : Effect feed s t)
    (hcan : Registry.canonical s.reg) (hkey : Registry.keyed s.cfg.statusFlags s.reg) :
    Registry.canonical t.reg ∧ Registry.keyed s.cfg.statusFlags t.reg := by
  obtain hreg | ⟨-, e, hw, hn, hreg⟩ := h.reg <;> rw [hreg]
  · exact ⟨hcan, hkey⟩
  · exact ⟨Registry.canonical_add e hcan hn, Registry.keyed_add hkey hw⟩

/-- The invariant along a step other than RESET: INV1 and R39 from `Advances`, INV2 and the canonical form from what is
written to the registry, and log entry 9 from when a pull or an ITERATE can start. -/
theorem StepEffect.inv {inbox : List Event} {s t : State} (h : StepEffect inbox s t) (hi : s.Inv) : t.Inv := by
  obtain ⟨hwf, hcap, hcan, hkey, hovf, hcoop⟩ := hi
  have hadv := h.core.advances
  have hcfg : t.cfg = s.cfg := hadv.cfg
  obtain ⟨hcan', hkey'⟩ := h.core.registry_good hcan hkey
  have hiter : t.iter.isSome = true → t.coopPending = false := by
    intro hit
    by_contra hcp
    rw [Bool.not_eq_false] at hcp
    obtain hs | ⟨-, ht⟩ := h.coop hcp
    · obtain hsi | ⟨-, hno⟩ := h.iter hit
      · rw [hcoop hsi] at hs; cases hs
      · rw [hno] at hcp; cases hcp
    · rw [ht] at hit; cases hit
  rw [State.Inv, hcfg]
  exact ⟨hwf, hadv.withinCap hwf hcap, hcan', hkey', fun hn => (hadv.unbounded hn).trans (hovf hn), hiter⟩

/-! ### RESET -/

/-- A turn of an ITERATE runs a frame instruction only, in the state it is taken in (R204). -/
theorem fetchIter_run_state {s u : State} {i : Instr} (h : fetchIter s = .run i u) : u = s ∧ isFrameInstr i = true := by
  unfold fetchIter at h
  split at h
  · cases h
  · split at h
    · next hd => cases h; exact ⟨rfl, (decodeFrame_head hd).1⟩
    · cases h

/-- RESET is run as a command of the port, and finds the state with it taken. -/
theorem fetch_run_reset {s u : State} (h : fetch s = .run .reset u) : ∃ rest, u = { s with inbox := rest } := by
  have hturn : ∀ v, fetchIter v ≠ .run .reset u := fun v hv => by simpa [isFrameInstr] using (fetchIter_run_state hv).2
  unfold fetch at h
  split at h
  · exact absurd h (hturn _)
  · exact absurd h (hturn _)
  · next rest _ =>
    split at h
    · exact absurd h (hturn _)
    · split at h
      · cases h; exact ⟨rest, rfl⟩
      · cases h

theorem exec_reset_next {s t : State} (h : exec .reset s = .next t) : t = s.clear.respond (.ok .unit) := by
  cases h; rfl

/-- The step that takes a RESET leaves S cleared and everything outside it but the port as it was (R270, R271). -/
theorem step_of_resetNext {s t : State} (h : step s = .next t) (hr : s.resetNext = true) :
    ∃ rest, t = ({ s with inbox := rest } : State).clear.respond (.ok .unit) := by
  unfold State.resetNext at hr
  split at hr
  · next u hu =>
    obtain ⟨rest, rfl⟩ := fetch_run_reset hu
    rw [step_eq, hu] at h
    exact ⟨rest, exec_reset_next h⟩
  · cases hr

/-- Power-on and RESET give S the same values (R43). -/
theorem State.clear_resetWith (p : Params) : (State.resetWith p).clear = State.resetWith p := rfl

theorem withinCap_nil (p : Params) : withinCap p [] = true := by
  unfold withinCap
  split <;> simp

/-- S cleared has the invariant, whatever else the state holds: an ITERATE in progress included. -/
theorem State.clear_inv {s : State} (hp : s.cfg.wf = true) : s.clear.Inv :=
  ⟨hp, withinCap_nil _, .nil, by simp [Registry.keyed], fun _ => rfl, fun _ => rfl⟩

/-- The invariant does not speak of the responses given. -/
theorem State.respond_inv (s : State) (r : Response) : (s.respond r).Inv ↔ s.Inv := Iff.rfl

/-! ### Well-formed entries -/

/-- A symmetric relation holds of no two members of a list iff two positions whose members are related are one. -/
theorem pairwise_not_iff_getElem? {α : Type} {R : α → α → Prop} (hsymm : ∀ a b, R a b → R b a) (l : List α) :
    l.Pairwise (fun a b => ¬ R a b) ↔
      ∀ (i j : Nat) (a b : α), l[i]? = some a → l[j]? = some b → R a b → i = j := by
  rw [List.pairwise_iff_getElem]
  constructor
  · intro h i j a b hi hj hab
    obtain ⟨hil, rfl⟩ := List.getElem?_eq_some_iff.1 hi
    obtain ⟨hjl, rfl⟩ := List.getElem?_eq_some_iff.1 hj
    obtain hlt | heq | hgt := Nat.lt_trichotomy i j
    · exact absurd hab (h i j hil hjl hlt)
    · exact heq
    · exact absurd (hsymm _ _ hab) (h j i hjl hil hgt)
  · intro h i j hi hj hlt hab
    exact absurd (h i j _ _ (List.getElem?_eq_getElem hi) (List.getElem?_eq_getElem hj) hab) (Nat.ne_of_lt hlt)

theorem countP_le_one_iff_pairwise {α : Type} (p : α → Bool) (l : List α) :
    l.countP p ≤ 1 ↔ l.Pairwise (fun a b => ¬ (p a = true ∧ p b = true)) := by
  induction l with
  | nil => simp
  | cons x xs ih =>
    rw [List.pairwise_cons, ← ih]
    by_cases hx : p x = true
    · rw [List.countP_cons_of_pos hx]
      simp only [hx, true_and, ← List.countP_eq_zero]
      omega
    · rw [List.countP_cons_of_neg hx]
      simp [hx]

/-- No two descriptors of an entry share a name (R36). -/
theorem fieldNames_nodup_iff (ds : List Desc) :
    (ds.map Desc.fname).Nodup ↔
      ∀ (i j : Nat) (d1 d2 : Desc), ds[i]? = some d1 → ds[j]? = some d2 → d1.fname = d2.fname → i = j := by
  rw [List.Nodup, List.pairwise_map]
  exact pairwise_not_iff_getElem? (fun _ _ => Eq.symm) ds

/-- An entry has at most one STATUS32 field (R36). -/
theorem countP_status32_le_one_iff (ds : List Desc) :
    ds.countP (fun d => d.ty == .status32) ≤ 1 ↔
      ∀ (i j : Nat) (d1 d2 : Desc), ds[i]? = some d1 → ds[j]? = some d2 → d1.ty = .status32 → d2.ty = .status32 →
        i = j := by
  rw [countP_le_one_iff_pairwise, pairwise_not_iff_getElem? (fun _ _ => And.symm)]
  simp only [beq_iff_eq, and_imp]

/-- No descriptor takes the name of a common field or of the kind tag (R36). -/
theorem not_reserved_iff {x : String} :
    (!reservedNames.contains x) = true ↔ x ≠ "name" ∧ x ≠ "msgid" ∧ x ≠ "dest" ∧ x ≠ "source" ∧ x ≠ "kind" := by
  simp only [reservedNames, List.contains_cons, List.contains_nil, Bool.or_false, Bool.not_or, Bool.and_eq_true,
    Bool.not_eq_true', beq_eq_false_iff_ne]

/-- With a STATUS32 field no descriptor takes the name of a status flag (R36). -/
theorem statusNames_free_iff (fl : List (String × Fin 32)) (ds : List Desc) :
    (!ds.any (fun d => d.ty == .status32) || ds.all (fun d => !(fl.map Prod.fst).contains d.fname)) = true ↔
      ((∃ d ∈ ds, d.ty = .status32) → ∀ d ∈ ds, ∀ p ∈ fl, d.fname ≠ p.1) := by
  rw [Bool.or_eq_true, Bool.not_eq_true', ← Bool.not_eq_true, ← imp_iff_not_or]
  have hany : ds.any (fun d => d.ty == .status32) = true ↔ ∃ d ∈ ds, d.ty = .status32 := by simp
  have hall : ds.all (fun d => !(fl.map Prod.fst).contains d.fname) = true ↔ ∀ d ∈ ds, ∀ p ∈ fl, d.fname ≠ p.1 := by
    simp only [List.all_eq_true, Bool.not_eq_true', ← Bool.not_eq_true, List.contains_iff_mem, List.mem_map, not_exists,
      not_and, ne_comm, ne_eq]
  exact imp_congr hany hall

/-- The conditions of R36 on a field type, constructor by constructor. -/
theorem tyWF_iff (ty : Ty) :
    tyWF ty = true ↔ (∀ n, ty = .bytes n → 1 ≤ n) ∧
      (∀ w n, ty = .bits w n → (w = 1 ∨ w = 2 ∨ w = 4) ∧ 1 ≤ n ∧ n ≤ 8 * w) ∧
      (∀ w, ty = .boolEnum w → (w = 1 ∨ w = 2)) := by
  cases ty with
  | bytes n => simp [tyWF]
  | bits w n => simp [tyWF, and_assoc, or_assoc]
  | boolEnum w => simp [tyWF]
  | u8 | u16 | i16 | u32 | i32 | status32 | adc16 => simp [tyWF]

/-- WF(e) as its ten conditions (R36). -/
theorem entryWF_iff (fl : List (String × Fin 32)) (e : Entry) :
    entryWF fl e = true ↔
      (0 ≤ e.msgid ∧ e.msgid ≤ 65535) ∧ e.name ≠ "" ∧ e.name ≠ "unknown" ∧ (e.fields.map Desc.fname).Nodup ∧
      (∀ d ∈ e.fields, (!reservedNames.contains d.fname) = true) ∧ e.fields.countP (fun d => d.ty == .status32) ≤ 1 ∧
      (!e.fields.any (fun d => d.ty == .status32) ||
        e.fields.all (fun d => !(fl.map Prod.fst).contains d.fname)) = true ∧
      (∀ d ∈ e.fields, d.off + width d.ty ≤ maxFrame) ∧ ∀ d ∈ e.fields, tyWF d.ty = true := by
  simp only [entryWF, Bool.and_eq_true, decide_eq_true_eq, List.all_eq_true, and_assoc]

/-- An entry that is not well-formed is refused with BAD_ENTRY, which sets cfg_fault (R38, R140). -/
theorem exec_register_badEntry {s : State} {e : Entry} (hcf : s.cfgFault = false) (hs : s.sealed = false)
    (hw : entryWF s.cfg.statusFlags e = false) :
    exec (.register e) s = .next (s.setCfgFault.respond (.err (.configuration (.badEntry e.msgid)))) := by
  simp [exec, execRegister, fatalConfig, raise, hcf, hs, hw]

/-! ### The statements settled -/

/-- Settles O54: a RESET clears S, and every other step keeps the invariant part by part. -/
theorem stepKeepsInvariant : Obligations.StepKeepsInvariant := by
  intro s t hi h
  cases hr : s.resetNext with
  | true =>
    obtain ⟨rest, rfl⟩ := step_of_resetNext h hr
    exact (State.respond_inv _ _).2 (State.clear_inv hi.1)
  | false =>
    obtain ⟨inbox, heff⟩ := step_effect s t h hr
    exact heff.inv hi

/-- Settles O28: each part of the check is read as its condition of R36, and REGISTER's refusal is its own arm. -/
theorem entryWellFormedIff : Obligations.EntryWellFormedIff := by
  intro fl e
  constructor
  · rw [entryWF_iff, fieldNames_nodup_iff, countP_status32_le_one_iff, statusNames_free_iff]
    simp only [not_reserved_iff, tyWF_iff, forall_and, maxFrame]
  · rintro s rfl hcf hs hw
    exact exec_register_badEntry hcf hs hw

/-- Settles O32, from the effect of a step other than RESET on the sticky elements and on the registry. -/
theorem sealAndFaultsAreSticky : Obligations.SealAndFaultsAreSticky := by
  intro s t h hr
  obtain ⟨inbox, heff⟩ := step_effect s t h hr
  have hadv := heff.core.advances
  refine ⟨fun hs => ⟨hadv.sealed hs, ?_⟩, hadv.cfgFault, hadv.ovfFault⟩
  obtain hreg | ⟨hopen, -⟩ := heff.core.reg
  · exact hreg
  · exact absurd (hs.symm.trans hopen) (by decide)

/-- Settles O55: neither RESET nor any other effect of a step writes the parameters. -/
theorem parametersNeverChange : Obligations.ParametersNeverChange := by
  intro s t h
  cases hr : s.resetNext with
  | true =>
    obtain ⟨rest, rfl⟩ := step_of_resetNext h hr
    simp
  | false =>
    obtain ⟨inbox, heff⟩ := step_effect s t h hr
    exact heff.core.advances.cfg

/-- Settles O52: power-on and RESET both leave S cleared, and a cleared registry has no key. -/
theorem powerOnIsResetState : Obligations.PowerOnIsResetState := by
  have hcleared : ∀ s : State, s.clear.buf = [] ∧ (∀ k, Registry.find k s.clear.reg = none) ∧ s.clear.sealed = false ∧
      s.clear.cfgFault = false ∧ s.clear.ovfFault = false ∧ s.clear.coopPending = false ∧ s.clear.diag = [] := by
    simp [Registry.find]
  refine ⟨fun p => State.clear_resetWith p ▸ hcleared _, ?_⟩
  intro s t h
  rw [exec_reset_next h]
  exact hcleared s

/-- Settles O53: the power-on state is a cleared state with legal parameters. -/
theorem invariantHoldsAtReset : Obligations.InvariantHoldsAtReset := by
  have hinv : ∀ p : Params, p.wf = true → (State.resetWith p).Inv :=
    fun p hp => State.clear_resetWith p ▸ State.clear_inv hp
  exact ⟨hinv, rfl, hinv Params.default (by decide)⟩

end Sys2Proof.Machine

/-! Proofs of the family 20_memory: what a step does to the stream buffer, and that a pure operation does not look at S
(spec/20_memory.md R62, R69; spec/44_unpacker.md R194, R195, R197). -/

namespace Sys2Proof.Machine

/-! ### Pure operations -/

/-- Over all states with the STATUS_FLAGS `fl` the operation gives one response, and writes nothing else (R69). -/
def Stateless (fl : List (String × Fin 32)) (op : State → Host.Outcome State Fault Refusal) : Prop :=
  ∃ r, ∀ s : State, s.cfg.statusFlags = fl → op s = .next (s.respond r)

theorem stateless_answer (fl : List (String × Fin 32)) (v : Reply) : Stateless fl (answer v) := ⟨.ok v, fun _ _ => rfl⟩

theorem stateless_raise (fl : List (String × Fin 32)) (e : Error) : Stateless fl (raise e) := ⟨.err e, fun _ _ => rfl⟩

theorem stateless_answerPure (fl : List (String × Fin 32)) (r : Except Error Reply) : Stateless fl (answerPure r) := by
  cases r with
  | ok v => exact stateless_answer fl v
  | error e => exact stateless_raise fl e

theorem stateless_execDecHdr (fl : List (String × Fin 32)) (h : List Byte) : Stateless fl (execDecHdr h) := by
  unfold execDecHdr
  cases decodeHeader h with
  | ok hd => exact stateless_answer fl (.header hd)
  | error i => exact stateless_raise fl (.format i)

theorem stateless_execDecBool (fl : List (String × Fin 32)) (v : Nat) : Stateless fl (execDecBool v) := by
  unfold execDecBool
  cases boolOfCode v with
  | some b => exact stateless_answer fl (.bool b)
  | none => exact stateless_raise fl (.format (.badEnumValue v))

/-- The one pure operation that looks at the state, and there at STATUS_FLAGS alone (R170). -/
theorem stateless_execDecStatus (fl : List (String × Fin 32)) (w : BitVec 32) : Stateless fl (execDecStatus w) := by
  refine ⟨.ok (.status (statusBits fl w)), ?_⟩
  rintro s rfl
  rfl

/-! ### The state in which a command is run -/

/-- An operation is run as a command of the port, and finds the state with that command taken (R251). -/
theorem fetch_run_operation {s u : State} {i : Instr} (h : fetch s = .run i u) (hi : isFrameInstr i = false) :
    ∃ rest, u = { s with inbox := rest } := by
  have hturn : ∀ v, fetchIter v ≠ .run i u := fun v hv =>
    absurd (fetchIter_run_state hv).2 (by rw [hi]; decide)
  unfold fetch at h
  split at h
  · exact absurd h (hturn _)
  · exact absurd h (hturn _)
  · next rest _ =>
    split at h
    · exact absurd h (hturn _)
    · split at h
      · cases h; exact ⟨rest, rfl⟩
      · cases h

theorem feedFetched_eq_some {f : Fetched} {bs : List Byte} (h : feedFetched f = some bs) : ∃ u, f = .run (.feed bs) u := by
  cases f with
  | run i u => cases i <;> cases h; exact ⟨u, rfl⟩
  | idle | reject | pass => cases h

/-! ### What a step reads, and what it takes from the buffer -/

/-- The reads made from s to t are of these sizes: each is recorded and takes its scripted answer, and there are none without
a source or with a whole frame buffered (R195, R197). -/
structure ReadsMade (sizes : List Nat) (s t : State) : Prop where
  reads : t.reads = s.reads ++ sizes
  src : t.src = s.src.drop sizes.length
  none_of_idle : (s.cfg.sourceAttached = false ∨ phase s.buf = .frameReady) → sizes = []

/-- Nothing leaves the buffer, or exactly the whole frame at its head (R194). -/
def HeadFrameTaken (buf buf' : List Byte) : Prop :=
  buf' = buf ∨ (phase buf = .frameReady ∧ buf' = buf.drop (frameSize buf))

/-- What is read does not depend on the steps issued. -/
theorem bytesRead_inbox (s : State) (inbox : List Event) (sizes : List Nat) :
    bytesRead { s with inbox := inbox } sizes = bytesRead s sizes :=
  bytesRead_congr (s := { s with inbox := inbox }) (t := s) rfl rfl sizes

theorem readsMade_nil {s t : State} (hreads : t.reads = s.reads) (hsrc : t.src = s.src) : ReadsMade [] s t :=
  ⟨by rw [hreads, List.append_nil], by rw [hsrc]; rfl, fun _ => rfl⟩

/-- Reads are counted the same after further writes that leave the source's side alone. -/
theorem ReadsMade.congr {sizes : List Nat} {s u t : State} (h : ReadsMade sizes s u) (hreads : t.reads = u.reads)
    (hsrc : t.src = u.src) : ReadsMade sizes s t :=
  ⟨hreads.trans h.reads, hsrc.trans h.src, h.none_of_idle⟩

theorem Keeps.buf {s t : State} (h : Keeps s t) : t.buf = s.buf := h.1

theorem Keeps.readsMade {s u t : State} {sizes : List Nat} (h : Keeps u t) (hu : ReadsMade sizes s u) :
    ReadsMade sizes s t := by
  obtain ⟨-, -, -, -, -, -, -, hsrc, hreads⟩ := h
  exact hu.congr hreads hsrc

/-- A run of reads that leaves the state as it was where no read is due makes no read there: the log would have grown. -/
theorem Filled.readsMade {n : Nat} {s u : State} (h : Filled n s u)
    (hidle : (s.cfg.sourceAttached = false ∨ phase s.buf = .frameReady) → u = s) :
    ∃ sizes, ReadsMade sizes s u ∧ u.buf = s.buf ++ bytesRead s sizes := by
  obtain ⟨sizes, rfl, -⟩ := h
  refine ⟨sizes, ⟨rfl, rfl, fun hs => ?_⟩, rfl⟩
  exact List.append_right_eq_self.1 (congrArg State.reads (hidle hs))

/-- An emission leaves the source's side alone, and takes the head frame if it takes anything (R193, R194). -/
theorem emit_headFrameTaken {u : State} (hp : phase u.buf = .frameReady) :
    HeadFrameTaken u.buf (emit u).2.buf ∧ (emit u).2.reads = u.reads ∧ (emit u).2.src = u.src := by
  obtain h | ⟨b, ds, -, -, h⟩ := emit_state u hp <;> rw [h]
  · exact ⟨.inl rfl, rfl, rfl⟩
  · exact ⟨.inr ⟨hp, rfl⟩, rfl, rfl⟩

/-- A step that feeds nothing appends what its reads bring, and then takes nothing or the head frame. -/
theorem Effect.readsMade {s t : State} (h : Effect none s t) :
    ∃ sizes, ReadsMade sizes s t ∧ HeadFrameTaken (s.buf ++ bytesRead s sizes) t.buf := by
  have unread : ∀ {u : State}, Keeps u t → u.buf = s.buf → u.reads = s.reads → u.src = s.src →
      ∃ sizes, ReadsMade sizes s t ∧ HeadFrameTaken (s.buf ++ bytesRead s sizes) t.buf := by
    intro u hk hbuf hreads hsrc
    refine ⟨[], hk.readsMade (readsMade_nil hreads hsrc), .inl ?_⟩
    rw [hk.buf, hbuf, bytesRead, List.append_nil]
  cases h with
  | fed bs hb => cases hb
  | keeps h | registered _ _ _ _ h | configFault h | overflow _ h | dispatched _ h => exact unread h rfl rfl rfl
  | read u hf hidle h =>
    obtain ⟨sizes, hmade, hbuf⟩ := hf.readsMade hidle
    exact ⟨sizes, h.readsMade hmade, .inl (h.buf.trans hbuf)⟩
  | emitted u hf hidle hp _ h =>
    obtain ⟨sizes, hmade, hbuf⟩ := hf.readsMade hidle
    obtain ⟨htaken, hreads, hsrc⟩ := emit_headFrameTaken hp
    exact ⟨sizes, h.readsMade (hmade.congr hreads hsrc), by rw [h.buf, ← hbuf]; exact htaken⟩

/-- FEED answers in the state as it was, with the overflow fault set, or with its operand appended (R190). -/
theorem execFeed_state (bs : List Byte) (s : State) :
    ∃ u r, execFeed bs s = .next (u.respond r) ∧ (u = s ∨ u = s.setOvfFault ∨ u = s.append bs) := by
  unfold execFeed
  split
  · exact ⟨_, _, rfl, .inl rfl⟩
  · split
    · split
      · exact ⟨_, _, rfl, .inr (.inl rfl)⟩
      · exact ⟨_, _, rfl, .inr (.inr rfl)⟩
    · exact ⟨_, _, rfl, .inr (.inr rfl)⟩

/-- A step that runs a FEED makes no read, and appends the operand or nothing. -/
theorem step_feed {s t u : State} {bs : List Byte} (h : step s = .next t) (hf : fetch s = .run (.feed bs) u) :
    t.reads = s.reads ∧ t.src = s.src ∧ (t.buf = s.buf ∨ t.buf = s.buf ++ bs) := by
  obtain ⟨rest, rfl⟩ := fetch_run_operation hf rfl
  have hexec : execFeed bs { s with inbox := rest } = .next t := by rwa [step_eq, hf] at h
  obtain ⟨v, r, hv, hcases⟩ := execFeed_state bs { s with inbox := rest }
  obtain rfl : v.respond r = t := Host.Outcome.next.inj (hv.symm.trans hexec)
  obtain rfl | rfl | rfl := hcases
  · exact ⟨rfl, rfl, .inl rfl⟩
  · exact ⟨rfl, rfl, .inl rfl⟩
  · exact ⟨rfl, rfl, .inr rfl⟩

/-- A step that runs neither RESET nor FEED: its reads, and what it takes of the buffer they leave. -/
theorem step_readsMade {s t : State} (h : step s = .next t) (hr : s.resetNext = false)
    (hf : ∀ bs u, fetch s ≠ .run (.feed bs) u) :
    ∃ sizes, ReadsMade sizes s t ∧ HeadFrameTaken (s.buf ++ bytesRead s sizes) t.buf := by
  obtain ⟨inbox, heff⟩ := step_effect s t h hr
  have hnone : feedFetched (fetch s) = none := by
    by_contra hne
    obtain ⟨bs, hbs⟩ := Option.ne_none_iff_exists'.1 hne
    obtain ⟨u, hu⟩ := feedFetched_eq_some hbs
    exact hf bs u hu
  obtain ⟨sizes, ⟨hreads, hsrc, hidle⟩, htaken⟩ := (hnone ▸ heff.core).readsMade
  refine ⟨sizes, ⟨hreads, hsrc, hidle⟩, ?_⟩
  rwa [bytesRead_inbox] at htaken

/-! ### The statements settled -/

/-- Settles O36: a FEED by its own arm, and every other step by the effect of its reads and of at most one emission. -/
theorem stepsConsumeWholeFrames : Obligations.StepsConsumeWholeFrames := by
  intro s t h hr
  by_cases hf : ∃ bs u, fetch s = .run (.feed bs) u
  · obtain ⟨bs, u, hfetch⟩ := hf
    obtain ⟨hreads, hsrc, -⟩ := step_feed h hfetch
    have hmade := readsMade_nil hreads hsrc
    exact ⟨[], hmade.reads, hmade.src, hmade.none_of_idle, fun _ _ hrun => ⟨rfl, (step_feed h hrun).2.2⟩,
      fun hno => absurd hfetch (hno bs u)⟩
  · have hno : ∀ bs u, fetch s ≠ .run (.feed bs) u := fun bs u hrun => hf ⟨bs, u, hrun⟩
    obtain ⟨sizes, hmade, htaken⟩ := step_readsMade h hr hno
    exact ⟨sizes, hmade.reads, hmade.src, hmade.none_of_idle, fun bs u hrun => absurd hrun (hno bs u), fun _ => htaken⟩

/-- Settles O50: of the twelve pure operations' arms only DEC_STATUS mentions the state, and there STATUS_FLAGS. -/
theorem pureOperationsIgnoreState : Obligations.PureOperationsIgnoreState := by
  intro i fl hi
  cases i with
  | decHdr h => exact stateless_execDecHdr fl h
  | encHdr | encLongHdr | encFrame | packFields | packBits => exact stateless_answerPure fl _
  | packFilter | encBool | decAdc | unpackBits => exact stateless_answer fl _
  | decStatus w => exact stateless_execDecStatus fl w
  | decBool v => exact stateless_execDecBool fl v
  | frameShort | frameLong | reset | register | feed | pull | coopPull | coopResume | coopCancel | iterate | dispatch =>
    cases hi

end Sys2Proof.Machine

/-! Proofs of the family 30_encoding: the header's fields, the frame decoder and the encoder, the commands, what a step
answers, and BOOT (spec/30_encoding.md R80 to R92). -/

namespace Sys2Proof.Machine

/-! ### The header as a 48-bit integer -/

/-- The header's 48-bit integer as a bit vector (R81). -/
def headerBits (h : List Byte) : BitVec 48 := BitVec.ofNat 48 (headerInt h)

theorem headerInt_lt (h : List Byte) : headerInt h < 2 ^ 48 := by
  unfold headerInt
  omega

@[simp] theorem headerBits_toNat (h : List Byte) : (headerBits h).toNat = headerInt h := by
  rw [headerBits, BitVec.toNat_ofNat, Nat.mod_eq_of_lt (headerInt_lt h)]

/-- A field is a bit slice of the header when it is that quotient and remainder of the header's integer. -/
theorem eq_extractLsb'_headerBits {h : List Byte} {w : Nat} {x : BitVec w} (start : Nat)
    (hx : x.toNat = headerInt h / 2 ^ start % 2 ^ w) : x = (headerBits h).extractLsb' start w := by
  apply BitVec.eq_of_toNat_eq
  rw [BitVec.extractLsb'_toNat, headerBits_toNat, Nat.shiftRight_eq_div_pow, hx]

/-- A byte of the header is its own eight bits of the header's integer (R65, R81). -/
theorem byteAt_eq_extractLsb' (h : List Byte) {i : Nat} (hi : i < 6) :
    byteAt h i = (headerBits h).extractLsb' (8 * i) 8 := by
  apply eq_extractLsb'_headerBits
  unfold headerInt
  interval_cases i <;> omega

/-- A 16-bit field of the header at offset o is a contiguous bit slice (R81). -/
theorem le16_eq_extractLsb' (h : List Byte) {o : Nat} (ho : o < 5) :
    le16 h o = (headerBits h).extractLsb' (8 * o) 16 := by
  apply eq_extractLsb'_headerBits
  rw [le16_toNat]
  unfold headerInt
  interval_cases o <;> simp only [Nat.reduceAdd] <;> omega

theorem hdrDest_eq_extractLsb' (h : List Byte) : hdrDest h = (headerBits h).extractLsb' 32 7 := by
  apply eq_extractLsb'_headerBits
  rw [hdrDest, BitVec.toNat_setWidth]
  unfold headerInt
  omega

/-- The long-form flag is bit 39 of the header's integer (R81, R82). -/
theorem hdrIsLong_eq_testBit (h : List Byte) : hdrIsLong h = (headerInt h).testBit 39 := by
  have hbyte : byteAt h 4 = (headerBits h).extractLsb' 32 8 := byteAt_eq_extractLsb' h (i := 4) (by omega)
  rw [hdrIsLong, hbyte, BitVec.getLsbD_extractLsb', BitVec.getLsbD, headerBits_toNat]
  rfl

/-- What the mask of R89 leaves of a header is its long-form flag. -/
theorem headerInt_and_mask (h : List Byte) :
    headerInt h &&& 0x008000000000 = if hdrIsLong h then 0x008000000000 else 0x000000000000 := by
  have hmask : headerInt h &&& 2 ^ 39 = ((headerInt h).testBit 39).toNat * 2 ^ 39 := Nat.and_two_pow _ 39
  rw [← hdrIsLong_eq_testBit] at hmask
  cases hl : hdrIsLong h <;> simpa [hl] using hmask

/-! ### The frame at the head of a stream -/

/-- The frame instruction that the header at the head of a stream announces (R80, R82). -/
def headInstr (bs : List Byte) : Instr :=
  if hdrIsLong bs then
    .frameLong (hdrMsgid bs) (hdrDest bs) (hdrSource bs) (sub bs hdrSize (hdrLength bs).toNat)
  else .frameShort (hdrMsgid bs) (byteAt bs 2) (byteAt bs 3) (hdrDest bs) (hdrSource bs)

/-- A whole frame decodes to the instruction its header announces, and leaves the bytes after it (R83, R88). -/
theorem decodeFrame_of_frameReady {bs : List Byte} (h : phase bs = .frameReady) :
    decodeFrame bs = .ok (headInstr bs, bs.drop (frameSize bs)) := by
  obtain ⟨h6, hsize⟩ := (phase_frameReady bs).1 h
  unfold decodeFrame headInstr
  rw [if_neg (Nat.not_lt.2 h6), if_neg (Nat.not_lt.2 hsize)]
  split <;> rfl

/-- What the decoder reads is what the header announces. -/
theorem eq_headInstr_of_decodeFrame {bs tail : List Byte} {i : Instr} (h : decodeFrame bs = .ok (i, tail)) :
    i = headInstr bs ∧ tail = bs.drop (frameSize bs) := by
  have hready := (decodeFrame_ok_iff bs).1 ⟨i, tail, h⟩
  rw [decodeFrame_of_frameReady hready] at h
  cases h
  exact ⟨rfl, rfl⟩

/-- No header announces a payload longer than its u16 length field can say (R80, R87). -/
theorem headInstr_wellFormed (bs : List Byte) : (headInstr bs).wellFormed = true := by
  have hlen := (hdrLength bs).isLt
  unfold headInstr
  split
  · simp only [Instr.wellFormed, sub_length, decide_eq_true_eq, maxPayload]
    omega
  · rfl

theorem headInstr_short_iff (bs : List Byte) :
    (∃ m p1 p2 d so, headInstr bs = .frameShort m p1 p2 d so) ↔ hdrIsLong bs = false := by
  unfold headInstr
  split <;> simp_all

theorem headInstr_long_iff (bs : List Byte) :
    (∃ m d so pl, headInstr bs = .frameLong m d so pl) ↔ hdrIsLong bs = true := by
  unfold headInstr
  split <;> simp_all

theorem encode_frameInstr {i : Instr} (h : isFrameInstr i = true) : encode i = .frame (wireBytes i) := by
  cases i with
  | frameShort | frameLong => rfl
  | _ => cases h

/-! ### The header of an encoded frame -/

/-- The two bytes of a u16, glued little-endian, give it back (R65). -/
theorem extractLsb'_append_self (v : BitVec 16) : v.extractLsb' 8 8 ++ v.extractLsb' 0 8 = v := by
  apply BitVec.eq_of_toNat_eq
  have hv := v.isLt
  rw [BitVec.toNat_append, ← Nat.shiftLeft_add_eq_or_of_lt (BitVec.isLt _), Nat.shiftLeft_eq, BitVec.extractLsb'_toNat,
    BitVec.extractLsb'_toNat, Nat.shiftRight_eq_div_pow, Nat.shiftRight_eq_div_pow]
  omega

/-- The address of a dest byte is what stands below its long-form flag (R64, R81). -/
theorem setWidth_flag_append (x : BitVec 1) (d : Dest) : (x ++ d : BitVec 8).setWidth 7 = d := by
  apply BitVec.eq_of_toNat_eq
  have hd := d.isLt
  rw [BitVec.toNat_setWidth, BitVec.toNat_append, ← Nat.shiftLeft_add_eq_or_of_lt hd, Nat.shiftLeft_eq]
  omega

theorem getLsbD_flag_append (x : BitVec 1) (d : Dest) : (x ++ d : BitVec 8).getLsbD 7 = x.getLsbD 0 := by
  rw [BitVec.getLsbD_append]
  rfl

theorem headInstr_shortFrameBytes (m : MsgId) (p1 p2 : Byte) (d : Dest) (so : Byte) (tail : List Byte) :
    headInstr (shortFrameBytes m p1 p2 d so ++ tail) = .frameShort m p1 p2 d so := by
  have hlong : hdrIsLong (shortFrameBytes m p1 p2 d so ++ tail) = false := getLsbD_flag_append 0#1 d
  have hmsgid : hdrMsgid (shortFrameBytes m p1 p2 d so ++ tail) = m := extractLsb'_append_self m
  have hdest : hdrDest (shortFrameBytes m p1 p2 d so ++ tail) = d := setWidth_flag_append 0#1 d
  rw [headInstr, hlong, hmsgid, hdest]
  rfl

theorem headInstr_longFrameBytes (m : MsgId) (d : Dest) (so : Byte) (pl tail : List Byte) (hpl : pl.length ≤ maxPayload) :
    headInstr (longFrameBytes m d so pl ++ tail) = .frameLong m d so pl := by
  have hlong : hdrIsLong (longFrameBytes m d so pl ++ tail) = true := getLsbD_flag_append 1#1 d
  have hmsgid : hdrMsgid (longFrameBytes m d so pl ++ tail) = m := extractLsb'_append_self m
  have hdest : hdrDest (longFrameBytes m d so pl ++ tail) = d := setWidth_flag_append 1#1 d
  have hlen : hdrLength (longFrameBytes m d so pl ++ tail) = BitVec.ofNat 16 pl.length := extractLsb'_append_self _
  have hsub : sub (longFrameBytes m d so pl ++ tail) hdrSize pl.length = pl := by simp [sub, hdrSize, longFrameBytes]
  rw [headInstr, hlong, hmsgid, hdest, hlen, BitVec.toNat_ofNat, Nat.mod_eq_of_lt (Nat.lt_succ_of_le hpl), hsub]
  rfl

/-- A frame as long as it says stands whole at the head of every stream it begins, and is decoded from there. -/
theorem decodeFrame_append {f tail : List Byte} (h6 : 6 ≤ f.length) (hsize : f.length = frameSize f) :
    decodeFrame (f ++ tail) = .ok (headInstr (f ++ tail), tail) := by
  have hself : phase f = .frameReady := (phase_frameReady f).2 ⟨h6, hsize.ge⟩
  obtain ⟨hready, hsize'⟩ := phase_frameReady_append tail hself
  rw [decodeFrame_of_frameReady hready, hsize', ← hsize, List.drop_left]

/-- An encoded frame is read back off the head of a stream (R80 to R83, R88). -/
theorem decodeFrame_encode {i : Instr} {f : List Byte} (tail : List Byte) (hw : i.wellFormed = true)
    (he : encode i = .frame f) : decodeFrame (f ++ tail) = .ok (i, tail) ∧ f.length = frameSize f := by
  cases i with
  | frameShort m p1 p2 d so =>
    cases he
    obtain ⟨h6, hsize⟩ := Laws.PacketSelfDescribing.frameShort m p1 p2 d so hw
    exact ⟨headInstr_shortFrameBytes m p1 p2 d so tail ▸ decodeFrame_append h6 hsize, hsize⟩
  | frameLong m d so pl =>
    cases he
    obtain ⟨h6, hsize⟩ := Laws.PacketSelfDescribing.frameLong m d so pl hw
    have hpl : pl.length ≤ maxPayload := of_decide_eq_true hw
    exact ⟨headInstr_longFrameBytes m d so pl tail hpl ▸ decodeFrame_append h6 hsize, hsize⟩
  | _ => cases he

/-! ### Commands -/

/-- A command's encoding decodes to the instruction: where its operand type is an integer of a width or of a range, the
operand is in it (R90, R121, R170 to R174). -/
theorem decodeCommand_encode {i : Instr} {c : Command} (hw : i.wellFormed = true) (he : encode i = .command c) :
    decodeCommand c = .ok i := by
  cases i with
  | frameShort | frameLong => cases he
  | packBits w fl =>
    cases he
    have hwidth : w = 1 ∨ w = 2 ∨ w = 4 := by simpa [Instr.wellFormed, or_assoc] using hw
    simp [decodeCommand, hwidth]
  | decStatus w =>
    cases he
    have hrange : w.toNat < 4294967296 := w.isLt
    simp [decodeCommand, hrange]
  | decAdc raw =>
    cases he
    have hrange : raw.toNat < 65536 := raw.isLt
    simp [decodeCommand, hrange]
  | unpackBits v n =>
    cases he
    have hcount : 1 ≤ n := of_decide_eq_true hw
    simp [decodeCommand, hcount]
  | decBool v =>
    cases he
    simp [decodeCommand]
  | _ => cases he; rfl

theorem decodeCommand_undefined {c : Command} (h : 21 ≤ c.code.toNat) :
    decodeCommand c = .error (.undefinedCode c.code) := by
  unfold decodeCommand
  split
  case h_22 => rfl
  all_goals omega

/-- A command of the consumer waits while an ITERATE is in progress; every other one is taken in its turn (R251). -/
theorem not_waits {s : State} {c : Command} (hfree : s.iter = none ∨ isConsumerCode c.code = false) :
    ¬ (s.iter.isSome && isConsumerCode c.code) = true := by
  obtain h | h := hfree <;> simp [h]

theorem step_command_ok {s : State} {c : Command} {rest : List Event} {i : Instr} (hin : s.inbox = .command c :: rest)
    (hdec : decodeCommand c = .ok i) (hfree : s.iter = none ∨ isConsumerCode c.code = false) :
    step s = exec i { s with inbox := rest } := by
  have hfetch : fetch s = .run i { s with inbox := rest } := by
    simp only [fetch, hin, if_neg (not_waits hfree), hdec]
  rw [step_eq, hfetch]
  rfl

theorem step_command_error {s : State} {c : Command} {rest : List Event} {e : DecodeError}
    (hin : s.inbox = .command c :: rest) (hdec : decodeCommand c = .error e)
    (hfree : s.iter = none ∨ isConsumerCode c.code = false) :
    step s = raise (rejectError e s) { s with inbox := rest } := by
  have hfetch : fetch s = .reject (rejectError e s) { s with inbox := rest } := by
    simp only [fetch, hin, if_neg (not_waits hfree), hdec]
  rw [step_eq, hfetch]
  rfl

/-! ### Responses -/

/-- From s to t one response is given, or none and an ITERATE is in progress (R92, R204). -/
def AnswersOnce (s t : State) : Prop := (∃ r, t.out = s.out ++ [r]) ∨ (t.out = s.out ∧ t.iter.isSome = true)

theorem AnswersOnce.out {s t : State} (h : AnswersOnce s t) : t.out = s.out ∨ ∃ r, t.out = s.out ++ [r] := by
  obtain h | ⟨h, -⟩ := h
  · exact .inr h
  · exact .inl h

theorem AnswersOnce.iter_of_silent {s t : State} (h : AnswersOnce s t) (hout : t.out = s.out) : t.iter.isSome = true := by
  obtain ⟨r, hr⟩ | ⟨-, h⟩ := h
  · exact absurd (hr.symm.trans hout) (by simp)
  · exact h

theorem Answered.answersOnce {s t : State} (h : Answered s t) : AnswersOnce s t := .inl h.2.2.2

theorem emitFrame_out (f : List Byte) (s : State) : (emitFrame f s).2.out = s.out := by
  obtain h | ⟨b, ds, -, -, h⟩ := emitFrame_state f s <;> rw [h]

/-- A pass gives at most one response, whatever the pull behind it. -/
theorem answersOnce_finishPass {items : List Record} {p : PullResult × State} {s t : State}
    (h : finishPass items p = .next t) (hp : p.2.out = s.out) : AnswersOnce s t := by
  obtain ⟨-, -, ⟨hout, hiter⟩ | ⟨⟨r, hout⟩, -⟩⟩ := finishPass_keeps h
  · exact .inr ⟨hout.trans hp, hiter⟩
  · exact .inl ⟨r, hp ▸ hout⟩

theorem answersOnce_iteratePass {items : List Record} {s t : State} (h : iteratePass items s = .next t) :
    AnswersOnce s t :=
  answersOnce_finishPass h (pullCore_rest s).2.2.1

/-- A wire frame is run in any state, at the head of the buffer or not: one response, or none within an ITERATE. -/
theorem answersOnce_runFrame {f : List Byte} {s t : State} (h : runFrame f s = .next t) : AnswersOnce s t := by
  have hemit := emitFrame_out f s
  unfold runFrame at h
  split at h
  · exact answersOnce_finishPass h hemit
  · obtain ⟨-, -, -, r, hout⟩ := finishPull_keeps h
    exact .inl ⟨r, hemit ▸ hout⟩

/-- The answers of every instruction (R92). -/
theorem exec_answersOnce {i : Instr} {s t : State} (h : exec i s = .next t) : AnswersOnce s t := by
  by_cases hframe : isFrameInstr i = true
  · cases i with
    | frameShort | frameLong => exact answersOnce_runFrame h
    | _ => cases hframe
  · by_cases hreset : i = .reset
    · subst hreset
      rw [exec_reset_next h]
      exact .inl ⟨_, rfl⟩
    · exact (exec_effect i s t h hreset (absurd · hframe)).out.symm

/-- An operation other than ITERATE answers at once (R92). -/
theorem exec_operation_answers {i : Instr} {s t : State} (h : exec i s = .next t) (hit : i ≠ .iterate)
    (hframe : isFrameInstr i = false) : ∃ r, t.out = s.out ++ [r] := by
  by_cases hreset : i = .reset
  · subst hreset
    rw [exec_reset_next h]
    exact ⟨_, rfl⟩
  · exact ((exec_effect i s t h hreset (fun hf => absurd (hframe.symm.trans hf) (by decide))).answers hframe hit).1

/-- The state in which a fetched step runs. -/
def Fetched.state : Fetched → State
  | .idle t => t
  | .run _ t => t
  | .reject _ t => t
  | .pass _ t => t

/-- What a step answers with in the state it runs in: the machine waits without an answer, all else answers (R92). -/
theorem runFetched_answersOnce {f : Fetched} {t : State} (h : runFetched f = .next t) :
    AnswersOnce f.state t ∨ f = .idle t := by
  cases f with
  | idle u => cases h; exact .inr rfl
  | run i u => exact .inl (exec_answersOnce h)
  | reject e u => exact .inl (raise_keeps h).answersOnce
  | pass items u => exact .inl (answersOnce_iteratePass h)

theorem fetchIter_state (s : State) : (fetchIter s).state = s := by
  unfold fetchIter
  split
  · rfl
  · split <;> rfl

/-- A turn finds nothing to do only with no ITERATE in progress. -/
theorem fetchIter_idle {s u : State} (h : fetchIter s = .idle u) : s.iter = none := by
  unfold fetchIter at h
  split at h
  · assumption
  · split at h <;> cases h

/-- Fetching takes at most an event off the port. -/
theorem fetch_state (s : State) : ∃ rest, (fetch s).state = { s with inbox := rest } := by
  unfold fetch
  split
  · exact ⟨s.inbox, fetchIter_state s⟩
  · next rest _ => exact ⟨rest, fetchIter_state _⟩
  · next rest _ =>
    split
    · exact ⟨s.inbox, fetchIter_state s⟩
    · split <;> exact ⟨rest, rfl⟩

/-- The machine waits only with no ITERATE in progress and no command issued. -/
theorem fetch_idle {s u : State} (h : fetch s = .idle u) :
    s.iter = none ∧ (s.inbox = [] ∨ ∃ rest, s.inbox = .turn :: rest) := by
  unfold fetch at h
  split at h
  · next hin => exact ⟨fetchIter_idle h, .inl hin⟩
  · next rest hin => exact ⟨fetchIter_idle (s := { s with inbox := rest }) h, .inr ⟨rest, hin⟩⟩
  · split at h
    · next hwait => simp [fetchIter_idle h] at hwait
    · split at h <;> cases h

/-- A step answers once, or the machine waits. -/
theorem step_answersOnce {s t : State} (h : step s = .next t) : AnswersOnce s t ∨ (t.out = s.out ∧ fetch s = .idle t) := by
  obtain ⟨rest, hstate⟩ := fetch_state s
  rw [step_eq] at h
  obtain hans | hidle := runFetched_answersOnce h
  · rw [hstate] at hans
    exact .inl hans
  · have ht : t = { s with inbox := rest } := by rwa [hidle] at hstate
    exact .inr ⟨by rw [ht], hidle⟩

/-! ### BOOT -/

/-- The next REGISTER of the entry succeeds, the registry being open (R140). -/
def Registrable (s : State) (e : Entry) : Prop :=
  s.cfgFault = false ∧ entryWF s.cfg.statusFlags e = true ∧ Registry.find (entryKey e) s.reg = none

/-- REGISTER while the registry is open: the entry is written, or cfg_fault is set and nothing else (R140). -/
theorem exec_register_open {s : State} (e : Entry) (hopen : s.sealed = false) :
    ∃ u r, exec (.register e) s = .next (u.respond r) ∧
      ((Registrable s e ∧ u = s.addEntry (entryKey e) e) ∨ (¬ Registrable s e ∧ u = s.setCfgFault)) := by
  simp only [exec, execRegister, fatalConfig, hopen]
  by_cases hcf : s.cfgFault = true
  · have hsame : s = s.setCfgFault := by simp [State.setCfgFault, ← hcf]
    rw [if_pos hcf]
    exact ⟨_, _, rfl, .inr ⟨fun h => absurd h.1 (by simp [hcf]), hsame⟩⟩
  · rw [if_neg hcf]
    simp only [Bool.false_eq_true, if_false]
    split
    · next hwf => exact ⟨_, _, rfl, .inr ⟨fun h => absurd h.2.1 (by simp [hwf]), rfl⟩⟩
    · next hwf =>
      split
      · next hdup => exact ⟨_, _, rfl, .inr ⟨fun h => absurd h.2.2 (Option.isSome_iff_ne_none.1 hdup), rfl⟩⟩
      · next hnew => exact ⟨_, _, rfl, .inl ⟨⟨by simpa using hcf, by simpa using hwf, by simpa using hnew⟩, rfl⟩⟩

/-- The event that issues one REGISTER. -/
def registerEvent (e : Entry) : Event := .command ⟨0b00001#5, .entry e⟩

theorem bootEvents_eq (p : Params) : bootEvents p = p.catalog.map registerEvent := by
  simp only [bootEvents, bootInstrs, List.flatMap_map]
  exact List.flatMap_pure_eq_map registerEvent p.catalog

theorem step_register {s : State} {e : Entry} {rest : List Event} (hin : s.inbox = registerEvent e :: rest) :
    step s = exec (.register e) { s with inbox := rest } :=
  step_command_ok hin rfl (.inr rfl)

/-- What REGISTER of the entries in order needs of the state it starts in, to succeed for each (R140). -/
def AllRegistrable (s : State) (es : List Entry) : Prop :=
  s.cfgFault = false ∧ (∀ e ∈ es, entryWF s.cfg.statusFlags e = true ∧ Registry.find (entryKey e) s.reg = none) ∧
    (es.map entryKey).Nodup

/-- A key is free after a registration iff it was free before and is not the one registered. -/
theorem find_add_eq_none_iff {k k' : MsgId} {r : Registry} (e : Entry) (hk' : Registry.find k' r = none) :
    Registry.find k (Registry.add k' e r) = none ↔ Registry.find k r = none ∧ k ≠ k' := by
  by_cases hk : k = k'
  · subst hk
    simp [Registry.find_add_self e hk']
  · simp [Registry.find_add_other r e hk, hk]

theorem allRegistrable_cons {s : State} {e : Entry} {es : List Entry} :
    AllRegistrable s (e :: es) ↔ Registrable s e ∧ AllRegistrable (s.addEntry (entryKey e) e) es := by
  by_cases hnew : Registry.find (entryKey e) s.reg = none
  · simp only [AllRegistrable, Registrable, State.addEntry_cfgFault, State.addEntry_cfg, State.addEntry_reg,
      find_add_eq_none_iff e hnew, List.forall_mem_cons, List.map_cons, List.nodup_cons, List.mem_map, not_exists, not_and]
    grind
  · simp [AllRegistrable, Registrable, hnew]

/-- From s to t the entries have been registered in order: t has no fault iff each could be, and its registry is then that
of s with them added (R91, R273). -/
structure RegisteredAll (es : List Entry) (s t : State) : Prop where
  inbox : t.inbox = []
  sealed : t.sealed = false
  cfgFault_iff : t.cfgFault = false ↔ AllRegistrable s es
  find : t.cfgFault = false → ∀ k, Registry.find k t.reg = (Registry.find k s.reg).or (es.find? (fun e => entryKey e = k))

theorem registeredAll_nil {s : State} (hin : s.inbox = []) (hopen : s.sealed = false) : RegisteredAll [] s s :=
  ⟨hin, hopen, by simp [AllRegistrable], by simp⟩

/-- A first entry that is registered. -/
theorem RegisteredAll.cons_registered {s t : State} {e : Entry} {es : List Entry} (he : Registrable s e)
    (h : RegisteredAll es (s.addEntry (entryKey e) e) t) : RegisteredAll (e :: es) s t := by
  refine ⟨h.inbox, h.sealed, ?_, fun hok k => ?_⟩
  · rw [h.cfgFault_iff, allRegistrable_cons]
    exact (and_iff_right he).symm
  · obtain ⟨-, -, hnew⟩ := he
    rw [h.find hok k, State.addEntry_reg]
    by_cases hk : entryKey e = k
    · subst hk
      simp [Registry.find_add_self e hnew, hnew]
    · simp [Registry.find_add_other s.reg e (Ne.symm hk), hk]

/-- A first entry that is refused: cfg_fault stays to the end. -/
theorem RegisteredAll.cons_refused {s t : State} {e : Entry} {es : List Entry} (he : ¬ Registrable s e)
    (h : RegisteredAll es s.setCfgFault t) : RegisteredAll (e :: es) s t := by
  have hfault : ¬ t.cfgFault = false := fun hok => absurd (h.cfgFault_iff.1 hok).1 (by simp)
  refine ⟨h.inbox, h.sealed, ?_, fun hok => absurd hok hfault⟩
  exact ⟨fun hok => absurd hok hfault, fun hall => absurd (allRegistrable_cons.1 hall).1 he⟩

/-- The port and the responses are no part of what REGISTER looks at. -/
theorem RegisteredAll.congr {es : List Entry} {s u t : State} (h : RegisteredAll es u t) (hcf : u.cfgFault = s.cfgFault)
    (hcfg : u.cfg = s.cfg) (hreg : u.reg = s.reg) : RegisteredAll es s t := by
  obtain ⟨hin, hopen, hiff, hfind⟩ := h
  rw [AllRegistrable, hcf, hcfg, hreg] at hiff
  rw [hreg] at hfind
  exact ⟨hin, hopen, hiff, hfind⟩

/-- The machine runs a REGISTER for each entry, one a step (R272). -/
theorem run_registers (es : List Entry) {s : State} (hin : s.inbox = es.map registerEvent) (hopen : s.sealed = false) :
    ∃ t, Sys2Proof.core.run es.length s = .next t ∧ RegisteredAll es s t := by
  induction es generalizing s with
  | nil => exact ⟨s, rfl, registeredAll_nil hin hopen⟩
  | cons e es ih =>
    obtain ⟨u, r, hexec, hu⟩ := exec_register_open (s := { s with inbox := es.map registerEvent }) e hopen
    have hstep : Sys2Proof.core.step s = .next (u.respond r) := (step_register hin).trans hexec
    have hport : (u.respond r).inbox = es.map registerEvent ∧ (u.respond r).sealed = false := by
      obtain ⟨-, rfl⟩ | ⟨-, rfl⟩ := hu <;> exact ⟨rfl, hopen⟩
    obtain ⟨t, hrun, hall⟩ := ih hport.1 hport.2
    refine ⟨t, ?_, ?_⟩
    · simp only [List.length_cons, Host.Core.run, hstep]
      exact hrun
    · obtain ⟨he, rfl⟩ | ⟨he, rfl⟩ := hu
      · exact .cons_registered he (hall.congr rfl rfl rfl)
      · exact .cons_refused he (hall.congr rfl rfl rfl)

/-- A well-formed entry's msgid is the key it is registered under (R36, R140). -/
theorem msgid_eq_entryKey {fl : List (String × Fin 32)} {e : Entry} (hw : entryWF fl e = true) :
    e.msgid = (entryKey e).toNat := by
  obtain ⟨hrange, -⟩ := (entryWF_iff fl e).1 hw
  rw [entryKey, BitVec.toNat_ofInt]
  omega

theorem entryKey_eq_iff {fl : List (String × Fin 32)} {e : Entry} (hw : entryWF fl e = true) (k : MsgId) :
    entryKey e = k ↔ e.msgid = (k.toNat : Int) := by
  rw [msgid_eq_entryKey hw, Int.natCast_inj, BitVec.toNat_inj]

/-- Well-formed entries have distinct keys iff they have distinct msgids. -/
theorem entryKeys_nodup_iff {fl : List (String × Fin 32)} {es : List Entry} (hw : ∀ e ∈ es, entryWF fl e = true) :
    (es.map entryKey).Nodup ↔ (es.map Entry.msgid).Nodup := by
  have hmap : es.map Entry.msgid = (es.map entryKey).map (fun k => (k.toNat : Int)) := by
    rw [List.map_map]
    exact List.map_congr_left fun e he => msgid_eq_entryKey (hw e he)
  have hinj : Function.Injective (fun k : MsgId => (k.toNat : Int)) :=
    fun _ _ h => BitVec.eq_of_toNat_eq (Int.natCast_inj.1 h)
  rw [hmap, List.nodup_map_iff hinj]

/-- From power-on every entry is registered iff the catalog is well-formed and its msgids distinct (R273). -/
theorem allRegistrable_reset_iff {s : State} {es : List Entry} (hreg : s.reg = []) (hcf : s.cfgFault = false) :
    AllRegistrable s es ↔ (∀ e ∈ es, entryWF s.cfg.statusFlags e = true) ∧ (es.map Entry.msgid).Nodup := by
  simp only [AllRegistrable, hreg, hcf, Registry.find, and_true, true_and]
  exact and_congr_right fun hw => entryKeys_nodup_iff hw

/-! ### The statements settled -/

/-- Settles O4: a frame is read off the head of the stream it alone makes, a command by its code. -/
theorem decodeInvertsEncode : Obligations.DecodeInvertsEncode := by
  intro i hw
  cases he : encode i with
  | command c => exact decodeCommand_encode hw he
  | frame f =>
    have hdec := (decodeFrame_encode [] hw he).1
    rw [List.append_nil] at hdec
    simp only [decode, hdec]

/-- Settles O6: the decoder's own reading of the head frame, and that its bytes are the instruction's. -/
theorem decodedFrameReencodes : Obligations.DecodedFrameReencodes := by
  intro bs h6 hsize
  have hready := (phase_frameReady bs).2 ⟨h6, hsize⟩
  have hdec := decodeFrame_of_frameReady hready
  obtain ⟨hframe, -, hwire⟩ := decodeFrame_head hdec
  refine ⟨headInstr bs, bs.drop (frameSize bs), sub bs 0 (frameSize bs), hdec, headInstr_wellFormed bs, hframe, ?_, ?_,
    headFrame_length hready⟩
  · rw [encode_frameInstr hframe, hwire]
  · simp [sub]

/-- Settles O5: the header of an encoded frame announces the instruction and its own size. -/
theorem frameDecodesFromHeadOfStream : Obligations.FrameDecodesFromHeadOfStream :=
  fun _ _ tail hw he => decodeFrame_encode tail hw he

/-- Settles O7: each field as a quotient and remainder of the header's integer. -/
theorem headerFieldsAreBitSlices : Obligations.HeaderFieldsAreBitSlices := by
  intro h _
  have hflag : hdrIsLong h = (headerBits h).getLsbD 39 := by
    rw [hdrIsLong_eq_testBit, BitVec.getLsbD, headerBits_toNat]
  exact ⟨headerInt_lt h, le16_eq_extractLsb' h (o := 0) (by omega), byteAt_eq_extractLsb' h (i := 2) (by omega),
    byteAt_eq_extractLsb' h (i := 3) (by omega), le16_eq_extractLsb' h (o := 2) (by omega), hdrDest_eq_extractLsb' h, hflag,
    byteAt_eq_extractLsb' h (i := 5) (by omega)⟩

/-- Settles O8: the mask leaves the long-form flag, which is what the decoder selects the format by. -/
theorem formatRowsPartitionHeaders : Obligations.FormatRowsPartitionHeaders := by
  intro h _
  rw [headerInt_and_mask]
  refine ⟨by cases hdrIsLong h <;> simp, ?_⟩
  intro i tail hdec
  obtain ⟨rfl, -⟩ := eq_headInstr_of_decodeFrame hdec
  rw [headInstr_short_iff, headInstr_long_iff]
  cases hdrIsLong h <;> simp

/-- Settles O9: the long-form flag is the top bit of byte 4, and nothing after byte 5 is looked at. -/
theorem frameSizeFromHeader : Obligations.FrameSizeFromHeader := by
  intro f g h6
  have htake : 6 ≤ (f.take 6).length := by simp [h6]
  refine ⟨?_, frameSize_ge f, frameSize_le f, (frameSize_append g htake).trans (frameSize_take (Nat.le_refl 6))⟩
  rw [frameSize, hdrIsLong_eq, hdrLength, le16_toNat]
  simp only [decide_eq_true_eq]

/-- Settles O56: every instruction's answers, and a step's as those of what it fetches. -/
theorem everyOperationAnswersOnce : Obligations.EveryOperationAnswersOnce := by
  refine ⟨fun i s t h => ?_, fun s t h => ?_⟩
  · have hans := exec_answersOnce h
    exact ⟨exec_operation_answers h, hans.out, hans.iter_of_silent⟩
  · obtain hans | ⟨hout, hidle⟩ := step_answersOnce h
    · exact ⟨hans.out, fun hsilent => .inl (hans.iter_of_silent hsilent)⟩
    · exact ⟨.inl hout, fun _ => .inr (fetch_idle hidle)⟩

/-- Settles O57, by induction over CATALOG: the entries registered so far, and the first refusal, which is sticky. -/
theorem bootFillsRegistry : Obligations.BootFillsRegistry := by
  intro p
  obtain ⟨t, hrun, hall⟩ :=
    run_registers p.catalog (s := { State.resetWith p with inbox := bootEvents p }) (bootEvents_eq p) rfl
  have hiff := hall.cfgFault_iff.trans (allRegistrable_reset_iff rfl rfl)
  refine ⟨t, hrun, hall.inbox, hall.sealed, hiff, fun hok k => ?_⟩
  obtain ⟨hw, -⟩ := hiff.1 hok
  rw [hall.find hok k]
  exact List.find?_congr fun e he => decide_eq_decide.2 (entryKey_eq_iff (hw e he) k)

/-- Settles O1: a command that need not wait is fetched in its turn. -/
theorem stepRunsIssuedCommand : Obligations.StepRunsIssuedCommand :=
  fun _ _ _ _ hin hdec hfree => step_command_ok hin hdec hfree

/-- Settles O3: an undefined code is no consumer's, so it does not wait, and it decodes to nothing. -/
theorem undefinedCodesAreRefused : Obligations.UndefinedCodesAreRefused := by
  intro s c rest hin hcode
  have hnot : isConsumerCode c.code = false := by
    simp only [isConsumerCode, Bool.and_eq_false_iff, decide_eq_false_iff_not]
    omega
  exact step_command_error hin (decodeCommand_undefined hcode) (.inr hnot)

/-- Settles O10, by running the decoder on each word. -/
theorem tableWordsDecode : Obligations.TableWordsDecode := by
  unfold Obligations.TableWordsDecode
  decide

end Sys2Proof.Machine

/-! Proofs of the family 40_header_codec: the header codec's operations and their round-trip laws
(spec/40_header_codec.md R100 to R104). -/

namespace Sys2Proof.Machine

/-! ### Responses of the codec's operations -/

/-- The response of an operation that answers bytes or raises an error. -/
def bytesResponse : Except Error (List Byte) → Response
  | .ok bs => .ok (.bytes bs)
  | .error e => .err e

theorem bytesResponse_eq_ok_iff {r : Except Error (List Byte)} {bs : List Byte} :
    bytesResponse r = .ok (.bytes bs) ↔ r = .ok bs := by
  cases r <;> simp [bytesResponse]

theorem answerPure_map_bytes (r : Except Error (List Byte)) (s : State) :
    answerPure (r.map Reply.bytes) s = .next (s.respond (bytesResponse r)) := by
  cases r <;> rfl

theorem exec_encHdr (msgid dest source param1 param2 : Int) (s : State) :
    exec (.encHdr msgid dest source param1 param2) s
      = .next (s.respond (bytesResponse (encodeHeader msgid dest source param1 param2))) :=
  answerPure_map_bytes _ s

theorem exec_encLongHdr (msgid dest source payloadLen : Int) (s : State) :
    exec (.encLongHdr msgid dest source payloadLen) s
      = .next (s.respond (bytesResponse (encodeLongHeader msgid dest source payloadLen))) :=
  answerPure_map_bytes _ s

theorem exec_encFrame (msgid dest source param1 param2 : Int) (pl : Option (List Byte)) (s : State) :
    exec (.encFrame msgid dest source param1 param2 pl) s
      = .next (s.respond (bytesResponse (encodeFrame msgid dest source param1 param2 pl))) :=
  answerPure_map_bytes _ s

theorem exec_decHdr (h : List Byte) (s : State) :
    exec (.decHdr h) s = .next (s.respond (
      if h.length < 6 then .err (.format (.shortHeader h.length 6)) else .ok (.header (headerOf h)))) := by
  show execDecHdr h s = _
  unfold execDecHdr decodeHeader
  by_cases hlen : h.length < 6
  · rw [if_pos hlen, if_pos hlen]; rfl
  · rw [if_neg hlen, if_neg hlen]; rfl

/-- A next state shows which response was appended to the one before. -/
theorem respond_injective {s : State} {r r' : Response}
    (h : (.next (s.respond r) : Host.Outcome State Fault Refusal) = .next (s.respond r')) : r = r' := by
  have hout : s.out ++ [r] = s.out ++ [r'] := congrArg State.out (Host.Outcome.next.inj h)
  simpa using hout

/-! ### Range checks -/

/-- The bytes, unless an argument is out of range (R124, R239). -/
def rangeChecked (args : List (ArgName × Int × Nat)) (bs : List Byte) : Except Error (List Byte) :=
  match firstOutOfRange args with
  | some e => .error e
  | none => .ok bs

theorem firstOutOfRange_eq_none_iff (args : List (ArgName × Int × Nat)) :
    firstOutOfRange args = none ↔ ∀ a ∈ args, 0 ≤ a.2.1 ∧ a.2.1 < 2 ^ a.2.2 := by
  induction args with
  | nil => simp [firstOutOfRange]
  | cons a rest ih =>
    rw [firstOutOfRange, List.forall_mem_cons, ← ih]
    split <;> simp_all

theorem rangeChecked_eq_ok_iff {args : List (ArgName × Int × Nat)} {bs out : List Byte} :
    rangeChecked args bs = .ok out ↔ (∀ a ∈ args, 0 ≤ a.2.1 ∧ a.2.1 < 2 ^ a.2.2) ∧ bs = out := by
  rw [← firstOutOfRange_eq_none_iff, rangeChecked]
  cases firstOutOfRange args <;> simp

/-- Only bytes built from arguments in range are ever answered. -/
theorem rangeChecked_congr {args : List (ArgName × Int × Nat)} {bs bs' : List Byte}
    (h : (∀ a ∈ args, 0 ≤ a.2.1 ∧ a.2.1 < 2 ^ a.2.2) → bs = bs') : rangeChecked args bs = rangeChecked args bs' := by
  rw [← firstOutOfRange_eq_none_iff] at h
  unfold rangeChecked
  cases hargs : firstOutOfRange args with
  | some e => rfl
  | none => rw [h hargs]

theorem bytesResponse_rangeChecked_nil (bs : List Byte) : bytesResponse (rangeChecked [] bs) = .ok (.bytes bs) := rfl

/-- The first argument is checked before the others (R239). -/
theorem bytesResponse_rangeChecked_cons (arg : ArgName) (v : Int) (bits : Nat) (rest : List (ArgName × Int × Nat))
    (bs : List Byte) :
    bytesResponse (rangeChecked ((arg, v, bits) :: rest) bs)
      = if ¬ (0 ≤ v ∧ v ≤ 2 ^ bits - 1) then .err (.range arg (.int v) bits)
        else bytesResponse (rangeChecked rest bs) := by
  simp only [Int.le_sub_one_iff]
  rw [rangeChecked, firstOutOfRange]
  by_cases hv : 0 ≤ v ∧ v < 2 ^ bits
  · rw [if_pos hv, if_neg (not_not_intro hv)]; rfl
  · rw [if_neg hv, if_pos hv]; rfl

/-- The arguments of ENC_HDR, in the order of its checks (R101). -/
def shortArgs (msgid dest source param1 param2 : Int) : List (ArgName × Int × Nat) :=
  [(.msgid, msgid, 16), (.dest, dest, 7), (.source, source, 8), (.param1, param1, 8), (.param2, param2, 8)]

/-- The arguments of ENC_LONG_HDR, in the order of its checks (R102). -/
def longArgs (msgid dest source payloadLen : Int) : List (ArgName × Int × Nat) :=
  [(.msgid, msgid, 16), (.dest, dest, 7), (.source, source, 8), (.payloadLen, payloadLen, 16)]

theorem encodeHeader_eq_rangeChecked (msgid dest source param1 param2 : Int) :
    encodeHeader msgid dest source param1 param2 = rangeChecked (shortArgs msgid dest source param1 param2)
      (bytesLE msgid.toNat 2 ++
        [BitVec.ofInt 8 param1, BitVec.ofInt 8 param2, BitVec.ofInt 8 dest, BitVec.ofInt 8 source]) := rfl

theorem encodeLongHeader_eq_rangeChecked (msgid dest source payloadLen : Int) :
    encodeLongHeader msgid dest source payloadLen = rangeChecked (longArgs msgid dest source payloadLen)
      (bytesLE msgid.toNat 2 ++ bytesLE payloadLen.toNat 2 ++
        [BitVec.ofInt 8 dest ||| 0x80#8, BitVec.ofInt 8 source]) := rfl

/-- With a payload ENC_FRAME refuses parameters first, and then answers what ENC_LONG_HDR does, the payload behind the
header (R103). -/
theorem encodeFrame_some (msgid dest source param1 param2 : Int) (pl : List Byte) :
    encodeFrame msgid dest source param1 param2 (some pl)
      = if param1 ≠ 0 ∨ param2 ≠ 0 then .error (.paramPayloadConflict param1 param2)
        else (encodeLongHeader msgid dest source pl.length).map (· ++ pl) := by
  rw [encodeFrame]
  split
  · rfl
  · cases encodeLongHeader msgid dest source pl.length <;> rfl

theorem encodeFrame_some_ok {msgid dest source param1 param2 : Int} {pl bs : List Byte}
    (h : encodeFrame msgid dest source param1 param2 (some pl) = .ok bs) :
    ∃ hd, encodeLongHeader msgid dest source pl.length = .ok hd ∧ hd ++ pl = bs := by
  rw [encodeFrame_some] at h
  split at h
  · cases h
  · cases hlong : encodeLongHeader msgid dest source pl.length with
    | error e => rw [hlong] at h; cases h
    | ok hd => rw [hlong] at h; cases h; exact ⟨hd, rfl, rfl⟩

/-- A response with the payload put behind the bytes it answers; an error stays as it is. -/
def appendToAnswer (pl : List Byte) : Response → Response
  | .ok (.bytes bs) => .ok (.bytes (bs ++ pl))
  | r => r

theorem appendToAnswer_bytes (pl bs : List Byte) : appendToAnswer pl (.ok (.bytes bs)) = .ok (.bytes (bs ++ pl)) := rfl

theorem appendToAnswer_check (pl : List Byte) (p : Prop) [Decidable p] (e : Error) (r : Response) :
    appendToAnswer pl (if p then .err e else r) = if p then .err e else appendToAnswer pl r := by
  split <;> rfl

theorem bytesResponse_encodeFrame_some (msgid dest source param1 param2 : Int) (pl : List Byte) :
    bytesResponse (encodeFrame msgid dest source param1 param2 (some pl))
      = if param1 ≠ 0 ∨ param2 ≠ 0 then .err (.paramPayloadConflict param1 param2)
        else appendToAnswer pl (bytesResponse (encodeLongHeader msgid dest source pl.length)) := by
  rw [encodeFrame_some]
  split
  · rfl
  · cases encodeLongHeader msgid dest source pl.length <;> rfl

/-! ### The bytes of integers in range -/

theorem bytesLE_toNat_two {v : Int} (h : 0 ≤ v) :
    bytesLE v.toNat 2 = [BitVec.ofInt 8 (v % 256), BitVec.ofInt 8 (v / 256)] := by
  obtain ⟨n, rfl⟩ := Int.eq_ofNat_of_zero_le h
  have hlow : BitVec.ofNat 8 n = BitVec.ofNat 8 (n % 256) := BitVec.eq_of_toNat_eq (by simp)
  show [BitVec.ofNat 8 n, BitVec.ofNat 8 (n / 256)]
    = [BitVec.ofInt 8 ((n % 256 : Nat) : Int), BitVec.ofInt 8 ((n / 256 : Nat) : Int)]
  rw [BitVec.ofInt_natCast, BitVec.ofInt_natCast, hlow]

/-- An integer in range is the value of a word. -/
theorem exists_bitVec_of_inRange {v : Int} {w : Nat} (h : 0 ≤ v ∧ v < 2 ^ w) : ∃ x : BitVec w, v = x.toNat := by
  obtain ⟨hnonneg, hlt⟩ := h
  obtain ⟨n, rfl⟩ := Int.eq_ofNat_of_zero_le hnonneg
  have hn : n < 2 ^ w := by exact_mod_cast hlt
  exact ⟨BitVec.ofNatLT n hn, by simp⟩

theorem ofInt_toNat (b : Byte) : BitVec.ofInt 8 b.toNat = b := by
  rw [BitVec.ofInt_natCast, BitVec.ofNat_toNat, BitVec.setWidth_eq]

theorem bytesLE_toNat (v : BitVec 16) : bytesLE v.toNat 2 = [v.extractLsb' 0 8, v.extractLsb' 8 8] := by
  show [BitVec.ofNat 8 v.toNat, BitVec.ofNat 8 (v.toNat / 256)] = _
  have hlow : BitVec.ofNat 8 v.toNat = v.extractLsb' 0 8 := BitVec.eq_of_toNat_eq (by simp)
  have hhigh : BitVec.ofNat 8 (v.toNat / 256) = v.extractLsb' 8 8 :=
    BitVec.eq_of_toNat_eq (by simp [BitVec.extractLsb'_toNat, Nat.shiftRight_eq_div_pow])
  rw [hlow, hhigh]

/-- A dest byte as a number: the long-form flag stands above the address (R81). -/
theorem flag_append_eq_ofNat (x : BitVec 1) (d : Dest) : (x ++ d : BitVec 8) = BitVec.ofNat 8 (x.toNat * 128 + d.toNat) := by
  have hx := x.isLt
  have hd := d.isLt
  apply BitVec.eq_of_toNat_eq
  rw [BitVec.toNat_append, ← Nat.shiftLeft_add_eq_or_of_lt hd, Nat.shiftLeft_eq, BitVec.toNat_ofNat]
  omega

/-- A short header's dest byte is the address alone (R101). -/
theorem ofInt_dest (d : Dest) : BitVec.ofInt 8 d.toNat = (0#1 ++ d : BitVec 8) := by
  rw [flag_append_eq_ofNat, BitVec.ofInt_natCast]
  simp

/-- A long header's dest byte is the address with the long-form flag set (R102). -/
theorem ofInt_dest_or_flag (d : Dest) : BitVec.ofInt 8 d.toNat ||| 0x80#8 = (1#1 ++ d : BitVec 8) := by
  have hor : 2 ^ 7 * 1 + d.toNat = 2 ^ 7 * 1 ||| d.toNat := Nat.two_pow_add_eq_or_of_lt d.isLt 1
  rw [flag_append_eq_ofNat, BitVec.ofInt_natCast, ← BitVec.ofNat_or, Nat.or_comm]
  exact congrArg (BitVec.ofNat 8) hor.symm

/-- Setting the long-form flag adds 128 to an address (R102). -/
theorem ofInt_or_flag_eq_add {dest : Int} (h : 0 ≤ dest ∧ dest < 2 ^ 7) :
    BitVec.ofInt 8 dest ||| 0x80#8 = BitVec.ofInt 8 (dest + 128) := by
  obtain ⟨d, rfl⟩ := exists_bitVec_of_inRange h
  rw [ofInt_dest_or_flag, flag_append_eq_ofNat, Int.add_comm]
  exact (BitVec.ofInt_natCast 8 (128 + d.toNat)).symm

/-! ### Six header bytes and their fields -/

/-- The six bytes of a header with the flag x, the bytes p and q at offsets 2 and 3 (R81). -/
def headerBytes (x : BitVec 1) (m : MsgId) (p q : Byte) (d : Dest) (so : Byte) : List Byte :=
  [m.extractLsb' 0 8, m.extractLsb' 8 8, p, q, (x ++ d : BitVec 8), so]

theorem shortFrameBytes_eq_headerBytes (m : MsgId) (p1 p2 : Byte) (d : Dest) (so : Byte) :
    shortFrameBytes m p1 p2 d so = headerBytes 0#1 m p1 p2 d so := rfl

theorem longFrameBytes_eq_headerBytes_append (m : MsgId) (d : Dest) (so : Byte) (pl : List Byte) :
    longFrameBytes m d so pl = headerBytes 1#1 m ((BitVec.ofNat 16 pl.length).extractLsb' 0 8)
      ((BitVec.ofNat 16 pl.length).extractLsb' 8 8) d so ++ pl := rfl

/-- Every field is read back from the header bytes it was written to; the length only under the long-form flag (R100). -/
theorem headerOf_headerBytes (x : BitVec 1) (m : MsgId) (p q : Byte) (d : Dest) (so : Byte) :
    headerOf (headerBytes x m p q d so)
      = { msgid := m, lengthOrZero := if x.getLsbD 0 then q ++ p else 0, dest := d, source := so,
          isLong := x.getLsbD 0, param1 := p, param2 := q } := by
  have hlong : hdrIsLong (headerBytes x m p q d so) = x.getLsbD 0 := getLsbD_flag_append x d
  have hmsgid : hdrMsgid (headerBytes x m p q d so) = m := extractLsb'_append_self m
  have hdest : hdrDest (headerBytes x m p q d so) = d := setWidth_flag_append x d
  rw [headerOf, hlong, hmsgid, hdest]
  rfl

theorem exec_decHdr_headerBytes (x : BitVec 1) (m : MsgId) (p q : Byte) (d : Dest) (so : Byte) (s : State) :
    exec (.decHdr (headerBytes x m p q d so)) s = .next (s.respond (.ok (.header
      { msgid := m, lengthOrZero := if x.getLsbD 0 then q ++ p else 0, dest := d, source := so,
        isLong := x.getLsbD 0, param1 := p, param2 := q }))) := by
  rw [exec_decHdr, if_neg (by simp [headerBytes]), headerOf_headerBytes]

theorem le16_eq_ofNat (h : List Byte) (o : Nat) :
    le16 h o = BitVec.ofNat 16 ((byteAt h o).toNat + 256 * (byteAt h (o + 1)).toNat) := by
  rw [← le16_toNat, BitVec.ofNat_toNat, BitVec.setWidth_eq]

theorem hdrDest_eq_ofNat (h : List Byte) : hdrDest h = BitVec.ofNat 7 ((byteAt h 4).toNat % 128) :=
  BitVec.eq_of_toNat_eq (by simp [hdrDest])

/-! ### What the encoders answer for operands in range -/

theorem encodeHeader_toNat (m : MsgId) (d : Dest) (so p1 p2 : Byte) :
    encodeHeader m.toNat d.toNat so.toNat p1.toNat p2.toNat = .ok (headerBytes 0#1 m p1 p2 d so) := by
  rw [encodeHeader_eq_rangeChecked, rangeChecked_eq_ok_iff]
  constructor
  · simpa [shortArgs] using ⟨m.isLt, d.isLt, so.isLt, p1.isLt, p2.isLt⟩
  · rw [Int.toNat_natCast, bytesLE_toNat, ofInt_toNat, ofInt_toNat, ofInt_toNat, ofInt_dest]
    rfl

theorem encodeLongHeader_toNat (m n : BitVec 16) (d : Dest) (so : Byte) :
    encodeLongHeader m.toNat d.toNat so.toNat n.toNat
      = .ok (headerBytes 1#1 m (n.extractLsb' 0 8) (n.extractLsb' 8 8) d so) := by
  rw [encodeLongHeader_eq_rangeChecked, rangeChecked_eq_ok_iff]
  constructor
  · simpa [longArgs] using ⟨m.isLt, d.isLt, so.isLt, n.isLt⟩
  · rw [Int.toNat_natCast, Int.toNat_natCast, bytesLE_toNat, bytesLE_toNat, ofInt_toNat, ofInt_dest_or_flag]
    rfl

/-- The operands of an answered ENC_HDR are words, and the answer is their short header. -/
theorem encodeHeader_ok {msgid dest source param1 param2 : Int} {bs : List Byte}
    (h : encodeHeader msgid dest source param1 param2 = .ok bs) :
    ∃ m p1 p2 d so, bs = headerBytes 0#1 m p1 p2 d so := by
  obtain ⟨hrange, -⟩ := rangeChecked_eq_ok_iff.1 (encodeHeader_eq_rangeChecked _ _ _ _ _ ▸ h)
  simp only [shortArgs, List.forall_mem_cons] at hrange
  obtain ⟨hmsgid, hdest, hsource, hparam1, hparam2, -⟩ := hrange
  obtain ⟨m, rfl⟩ := exists_bitVec_of_inRange hmsgid
  obtain ⟨d, rfl⟩ := exists_bitVec_of_inRange hdest
  obtain ⟨so, rfl⟩ := exists_bitVec_of_inRange hsource
  obtain ⟨p1, rfl⟩ := exists_bitVec_of_inRange hparam1
  obtain ⟨p2, rfl⟩ := exists_bitVec_of_inRange hparam2
  rw [encodeHeader_toNat] at h
  cases h
  exact ⟨m, p1, p2, d, so, rfl⟩

theorem encodeLongHeader_ok {msgid dest source payloadLen : Int} {bs : List Byte}
    (h : encodeLongHeader msgid dest source payloadLen = .ok bs) :
    ∃ (m n : BitVec 16) (d : Dest) (so : Byte), payloadLen = n.toNat ∧
      bs = headerBytes 1#1 m (n.extractLsb' 0 8) (n.extractLsb' 8 8) d so := by
  obtain ⟨hrange, -⟩ := rangeChecked_eq_ok_iff.1 (encodeLongHeader_eq_rangeChecked _ _ _ _ ▸ h)
  simp only [longArgs, List.forall_mem_cons] at hrange
  obtain ⟨hmsgid, hdest, hsource, hlen, -⟩ := hrange
  obtain ⟨m, rfl⟩ := exists_bitVec_of_inRange hmsgid
  obtain ⟨d, rfl⟩ := exists_bitVec_of_inRange hdest
  obtain ⟨so, rfl⟩ := exists_bitVec_of_inRange hsource
  obtain ⟨n, rfl⟩ := exists_bitVec_of_inRange hlen
  rw [encodeLongHeader_toNat] at h
  cases h
  exact ⟨m, n, d, so, rfl, rfl⟩

/-- What ENC_FRAME answers is the encoding of a well-formed frame instruction (R80, R103). -/
theorem encodeFrame_ok {msgid dest source param1 param2 : Int} {pl : Option (List Byte)} {bs : List Byte}
    (h : encodeFrame msgid dest source param1 param2 pl = .ok bs) :
    ∃ i : Instr, i.wellFormed = true ∧ encode i = .frame bs := by
  cases pl with
  | none =>
    obtain ⟨m, p1, p2, d, so, rfl⟩ := encodeHeader_ok h
    refine ⟨.frameShort m p1 p2 d so, rfl, ?_⟩
    rw [encode, shortFrameBytes_eq_headerBytes]
  | some pl =>
    obtain ⟨hd, hhd, rfl⟩ := encodeFrame_some_ok h
    obtain ⟨m, n, d, so, hlen, rfl⟩ := encodeLongHeader_ok hhd
    have hlen' : pl.length = n.toNat := Int.ofNat_inj.1 hlen
    have hn : BitVec.ofNat 16 pl.length = n := by rw [hlen', BitVec.ofNat_toNat, BitVec.setWidth_eq]
    have hmax : pl.length ≤ maxPayload := hlen' ▸ Nat.le_of_lt_succ n.isLt
    refine ⟨.frameLong m d so pl, decide_eq_true hmax, ?_⟩
    rw [encode, longFrameBytes_eq_headerBytes_append, hn]

/-! ### The codec's responses as the rules' chains of checks -/

theorem bytesResponse_encodeHeader (msgid dest source param1 param2 : Int) :
    bytesResponse (encodeHeader msgid dest source param1 param2)
      = if ¬ (0 ≤ msgid ∧ msgid ≤ 65535) then .err (.range .msgid (.int msgid) 16)
        else if ¬ (0 ≤ dest ∧ dest ≤ 127) then .err (.range .dest (.int dest) 7)
        else if ¬ (0 ≤ source ∧ source ≤ 255) then .err (.range .source (.int source) 8)
        else if ¬ (0 ≤ param1 ∧ param1 ≤ 255) then .err (.range .param1 (.int param1) 8)
        else if ¬ (0 ≤ param2 ∧ param2 ≤ 255) then .err (.range .param2 (.int param2) 8)
        else .ok (.bytes [BitVec.ofInt 8 (msgid % 256), BitVec.ofInt 8 (msgid / 256), BitVec.ofInt 8 param1,
          BitVec.ofInt 8 param2, BitVec.ofInt 8 dest, BitVec.ofInt 8 source]) := by
  have hbytes : encodeHeader msgid dest source param1 param2
      = rangeChecked (shortArgs msgid dest source param1 param2) [BitVec.ofInt 8 (msgid % 256),
          BitVec.ofInt 8 (msgid / 256), BitVec.ofInt 8 param1, BitVec.ofInt 8 param2, BitVec.ofInt 8 dest,
          BitVec.ofInt 8 source] := by
    rw [encodeHeader_eq_rangeChecked]
    refine rangeChecked_congr fun hrange => ?_
    have hmsgid := (hrange (.msgid, msgid, 16) (by simp [shortArgs])).1
    rw [bytesLE_toNat_two hmsgid]
    rfl
  rw [hbytes]
  simp only [shortArgs, bytesResponse_rangeChecked_cons, bytesResponse_rangeChecked_nil, Int.reducePow, Int.reduceSub]

theorem bytesResponse_encodeLongHeader (msgid dest source payloadLen : Int) :
    bytesResponse (encodeLongHeader msgid dest source payloadLen)
      = if ¬ (0 ≤ msgid ∧ msgid ≤ 65535) then .err (.range .msgid (.int msgid) 16)
        else if ¬ (0 ≤ dest ∧ dest ≤ 127) then .err (.range .dest (.int dest) 7)
        else if ¬ (0 ≤ source ∧ source ≤ 255) then .err (.range .source (.int source) 8)
        else if ¬ (0 ≤ payloadLen ∧ payloadLen ≤ 65535) then .err (.range .payloadLen (.int payloadLen) 16)
        else .ok (.bytes [BitVec.ofInt 8 (msgid % 256), BitVec.ofInt 8 (msgid / 256), BitVec.ofInt 8 (payloadLen % 256),
          BitVec.ofInt 8 (payloadLen / 256), BitVec.ofInt 8 (dest + 128), BitVec.ofInt 8 source]) := by
  have hbytes : encodeLongHeader msgid dest source payloadLen
      = rangeChecked (longArgs msgid dest source payloadLen) [BitVec.ofInt 8 (msgid % 256),
          BitVec.ofInt 8 (msgid / 256), BitVec.ofInt 8 (payloadLen % 256), BitVec.ofInt 8 (payloadLen / 256),
          BitVec.ofInt 8 (dest + 128), BitVec.ofInt 8 source] := by
    rw [encodeLongHeader_eq_rangeChecked]
    refine rangeChecked_congr fun hrange => ?_
    have hmsgid := (hrange (.msgid, msgid, 16) (by simp [longArgs])).1
    have hdest := hrange (.dest, dest, 7) (by simp [longArgs])
    have hlen := (hrange (.payloadLen, payloadLen, 16) (by simp [longArgs])).1
    rw [bytesLE_toNat_two hmsgid, bytesLE_toNat_two hlen, ofInt_or_flag_eq_add hdest]
    rfl
  rw [hbytes]
  simp only [longArgs, bytesResponse_rangeChecked_cons, bytesResponse_rangeChecked_nil, Int.reducePow, Int.reduceSub]

/-! ### The statements settled -/

/-- Settles O15: the operands come back from the six header bytes, and an answered frame is an instruction's encoding. -/
theorem headerRoundTripLaws : Obligations.HeaderRoundTripLaws := by
  intro s m n d so p1 p2
  refine ⟨⟨headerBytes 0#1 m p1 p2 d so, ?_, exec_decHdr_headerBytes _ _ _ _ _ _ s⟩,
    ⟨headerBytes 1#1 m (n.extractLsb' 0 8) (n.extractLsb' 8 8) d so, ?_, ?_⟩, ?_⟩
  · rw [exec_encHdr, encodeHeader_toNat]
    rfl
  · rw [exec_encLongHdr, encodeLongHeader_toNat]
    rfl
  · have hdec := exec_decHdr_headerBytes 1#1 m (n.extractLsb' 0 8) (n.extractLsb' 8 8) d so s
    rw [extractLsb'_append_self] at hdec
    exact hdec
  · intro msgid dest source param1 param2 pl bs h
    rw [exec_encFrame] at h
    have hok := bytesResponse_eq_ok_iff.1 (respond_injective h)
    obtain ⟨i, hwf, hencode⟩ := encodeFrame_ok hok
    exact (decodeFrame_encode [] hwf hencode).2.symm

/-- Settles O11: the header's fields in arithmetic on its bytes. -/
theorem decHdrAnswersHeaderTuple : Obligations.DecHdrAnswersHeaderTuple := by
  intro h s
  refine ⟨rfl, ?_⟩
  rw [exec_decHdr, headerOf, hdrIsLong_eq, hdrMsgid, hdrLength, le16_eq_ofNat, le16_eq_ofNat, hdrDest_eq_ofNat, hdrSource]
  simp only [decide_eq_true_eq]

/-- Settles O12: the range checks in their order, and the bytes of a msgid that passed them. -/
theorem encHdrAnswersShortHeader : Obligations.EncHdrAnswersShortHeader := by
  intro msgid dest source param1 param2 s
  exact ⟨rfl, by rw [exec_encHdr, bytesResponse_encodeHeader]⟩

/-- Settles O13: the range checks in their order, and the long-form flag as 128 above an address that passed them. -/
theorem encLongHdrAnswersLongHeader : Obligations.EncLongHdrAnswersLongHeader := by
  intro msgid dest source payloadLen s
  exact ⟨rfl, by rw [exec_encLongHdr, bytesResponse_encodeLongHeader]⟩

/-- Settles O14: past the conflict ENC_FRAME is ENC_LONG_HDR with the payload's length, its answer before the payload. -/
theorem encFrameAnswersWholeFrame : Obligations.EncFrameAnswersWholeFrame := by
  intro msgid dest source param1 param2 s
  refine ⟨fun _ => rfl, rfl, fun pl => ?_⟩
  have hlen : (0 ≤ (pl.length : Int) ∧ (pl.length : Int) ≤ 65535) ↔ ¬ 65535 < pl.length := by omega
  have hlow : BitVec.ofInt 8 ((pl.length : Int) % 256) = BitVec.ofNat 8 (pl.length % 256) := BitVec.ofInt_natCast 8 _
  have hhigh : BitVec.ofInt 8 ((pl.length : Int) / 256) = BitVec.ofNat 8 (pl.length / 256) := BitVec.ofInt_natCast 8 _
  rw [exec_encFrame, bytesResponse_encodeFrame_some, bytesResponse_encodeLongHeader]
  simp only [appendToAnswer_check, appendToAnswer_bytes, hlen, hlow, hhigh, not_not]

end Sys2Proof.Machine

/-! Proofs of the family 41_field_packing: packed items, their bytes and what DISPATCH reads from them, the bitmasks and the
1/2 boolean (spec/41_field_packing.md R120 to R124; spec/42_dispatch.md R143, R144). -/

namespace Sys2Proof.Machine

/-! ### Encodable items -/

/-- The range of an integer type, none for the other types (R120). -/
def intRange : Ty → Option (Int × Int)
  | .u8 => some (0, 255)
  | .u16 => some (0, 65535)
  | .i16 => some (-32768, 32767)
  | .u32 => some (0, 4294967295)
  | .i32 => some (-2147483648, 2147483647)
  | _ => none

theorem intRange_of_mem {ty : Ty} {lo hi : Int}
    (h : (ty, lo, hi) ∈ [(Ty.u8, (0 : Int), (255 : Int)), (.u16, 0, 65535), (.i16, -32768, 32767),
      (.u32, 0, 4294967295), (.i32, -2147483648, 2147483647)]) : intRange ty = some (lo, hi) := by
  simp only [List.mem_cons, Prod.mk.injEq, List.not_mem_nil, or_false] at h
  obtain ⟨rfl, rfl, rfl⟩ | ⟨rfl, rfl, rfl⟩ | ⟨rfl, rfl, rfl⟩ | ⟨rfl, rfl, rfl⟩ | ⟨rfl, rfl, rfl⟩ := h <;> rfl

/-- The four kinds of item that PACK_FIELDS can encode (R120). -/
inductive Encodable : Ty × PackValue → Prop where
  | int {ty : Ty} {lo hi x : Int} (hrange : intRange ty = some (lo, hi)) (hx : lo ≤ x ∧ x ≤ hi) : Encodable (ty, .int x)
  | bytes (bs : List Byte) : Encodable (.bytes bs.length, .bytes bs)
  | flags {w : Nat} (fl : List Bool) (hfit : orFlags 0 fl < 2 ^ (8 * w)) : Encodable (.bits w fl.length, .flags fl)
  | bool {w : Nat} (hw : 1 ≤ w) (b : Bool) : Encodable (.boolEnum w, .bool b)

theorem intRange_of_packable {ty : Ty} {x : Int} (h : packable (ty, .int x) = true) :
    ∃ lo hi, intRange ty = some (lo, hi) ∧ lo ≤ x ∧ x ≤ hi := by
  cases ty with
  | u8 | u16 | i16 | u32 | i32 => exact ⟨_, _, rfl, of_decide_eq_true h⟩
  | bytes | status32 | adc16 | bits | boolEnum => cases h

theorem encodable_of_packable {p : Ty × PackValue} (h : packable p = true) : Encodable p := by
  obtain ⟨ty, v⟩ := p
  cases v with
  | int x =>
    obtain ⟨lo, hi, hrange, hx⟩ := intRange_of_packable h
    exact .int hrange hx
  | bytes bs =>
    cases ty with
    | bytes n =>
      obtain rfl : bs.length = n := of_decide_eq_true h
      exact .bytes bs
    | _ => cases h
  | flags fl =>
    cases ty with
    | bits w n =>
      obtain ⟨hlen, hfit⟩ := Bool.and_eq_true_iff.1 h
      obtain rfl : fl.length = n := of_decide_eq_true hlen
      exact .flags fl ((orFlags_lt_iff fl (8 * w)).2 hfit)
    | _ => cases h
  | bool b =>
    cases ty with
    | boolEnum w => exact .bool (of_decide_eq_true h) b
    | _ => cases h

/-! ### The bytes of an item -/

/-- The bytes of an encodable item (R120); `packItem_of_encodable` says that PACK_FIELDS answers them. -/
def itemBytes : Ty × PackValue → List Byte
  | (ty, .int x) => bytesLE (x % 2 ^ (8 * width ty)).toNat (width ty)
  | (_, .bytes bs) => bs
  | (ty, .flags fl) => bytesLE (orFlags 0 fl) (width ty)
  | (ty, .bool b) => bytesLE (boolCode b) (width ty)

theorem itemBytes_length {p : Ty × PackValue} (h : Encodable p) : (itemBytes p).length = width p.1 := by
  cases h with
  | bytes bs => rfl
  | int | flags | bool => exact bytesLE_length _ _

/-- The bytes of a list of encodable items, back to back (R67, R120). -/
def packedBytes (items : List (Ty × PackValue)) : List Byte := (items.map itemBytes).flatten

theorem packedBytes_cons (p : Ty × PackValue) (items : List (Ty × PackValue)) :
    packedBytes (p :: items) = itemBytes p ++ packedBytes items := rfl

theorem packedBytes_length {items : List (Ty × PackValue)} (h : ∀ p ∈ items, packable p = true) :
    (packedBytes items).length = (items.map (fun p => width p.1)).sum := by
  rw [packedBytes, List.length_flatten, List.map_map]
  exact congrArg List.sum (List.map_congr_left fun p hp => itemBytes_length (encodable_of_packable (h p hp)))

/-- A byte of an integer does not see a multiple of a higher power of 256 taken from the integer (R8). -/
theorem ofInt_emod_ediv (x c : Int) {a : Int} (ha : a ≠ 0) :
    BitVec.ofInt 8 (x % (a * (256 * c)) / a) = BitVec.ofInt 8 (x / a) := by
  have hquot : x % (a * (256 * c)) / a = x / a + 256 * (-c * (x / (a * (256 * c)))) := by
    rw [← Int.add_mul_ediv_left _ _ ha, Int.emod_def]
    congr 1
    ring
  apply BitVec.eq_of_toNat_eq
  rw [BitVec.toNat_ofInt, BitVec.toNat_ofInt, hquot]
  exact congrArg Int.toNat (Int.add_mul_emod_self_left _ 256 _)

/-- Byte i of an integer field is byte i of the integer in two's complement (R65, R120). -/
theorem byteAt_itemBytes_int (ty : Ty) (x : Int) {i : Nat} (hi : i < width ty) :
    byteAt (itemBytes (ty, .int x)) i = BitVec.ofInt 8 (x / 256 ^ i) := by
  obtain ⟨k, hk⟩ : ∃ k, width ty = i + 1 + k := ⟨width ty - (i + 1), by omega⟩
  have hpow : (2 : Int) ^ (8 * width ty) = 256 ^ i * (256 * 256 ^ k) := by
    rw [hk, Int.pow_mul, Int.pow_add, Int.pow_add, Int.mul_assoc]
    rfl
  rw [itemBytes, byteAt_bytesLE hi, ← BitVec.ofInt_natCast, Int.natCast_ediv,
    Int.toNat_of_nonneg (Int.emod_nonneg _ (by positivity)), hpow]
  push_cast
  exact ofInt_emod_ediv x (256 ^ k) (by positivity)

/-- Bit i of a bitmask field is bit i of the mask (R65, R121). -/
theorem getLsbD_byteAt_bytesLE (m : Nat) {n i : Nat} (hi : i < 8 * n) :
    (byteAt (bytesLE m n) (i / 8)).getLsbD (i % 8) = m.testBit i := by
  have hsplit : i % 8 + 8 * (i / 8) = i := Nat.mod_add_div i 8
  rw [byteAt_bytesLE (by omega), BitVec.getLsbD_ofNat, show (256 : Nat) = 2 ^ 8 from rfl, ← Nat.pow_mul,
    Nat.testBit_div_two_pow, hsplit]
  simp [Nat.mod_lt]

theorem bytesLE_zero (n : Nat) : bytesLE 0 n = List.replicate n 0 := by
  induction n with
  | zero => rfl
  | succ n ih => rw [bytesLE, Nat.zero_div, ih, List.replicate_succ]; rfl

/-- A boolean field is its code and then zeros (R123). -/
theorem bytesLE_boolCode {w : Nat} (hw : 1 ≤ w) (b : Bool) :
    bytesLE (boolCode b) w = (if b then 1 else 2) :: List.replicate (w - 1) 0 := by
  obtain ⟨n, rfl⟩ : ∃ n, w = n + 1 := ⟨w - 1, by omega⟩
  cases b <;> exact congrArg (List.cons _) (bytesLE_zero n)

theorem boolCode_lt {w : Nat} (hw : 1 ≤ w) (b : Bool) : boolCode b < 2 ^ (8 * w) := by
  have hpow : 2 ^ 8 ≤ 2 ^ (8 * w) := Nat.pow_le_pow_right (by omega) (by omega)
  have hcode : boolCode b ≤ 2 := by cases b <;> decide
  omega

/-! ### PACK_FIELDS -/

theorem exec_packFields (items : List (Ty × PackValue)) (s : State) :
    exec (.packFields items) s = .next (s.respond (bytesResponse (packItems 0 items))) :=
  answerPure_map_bytes _ s

/-- An item of an integer type is checked against the type's range (R120). -/
theorem packItem_int {ty : Ty} {lo hi : Int} (hrange : intRange ty = some (lo, hi)) (k : Nat) (x : Int) :
    packItem k ty (.int x)
      = if lo ≤ x ∧ x ≤ hi then .ok (itemBytes (ty, .int x)) else .error (itemRange k ty (.int x)) := by
  cases ty <;> cases hrange <;> rfl

theorem packFlags_eq (w : Nat) (fl : List Bool) :
    packFlags w fl
      = if orFlags 0 fl < 2 ^ (8 * w) then .ok (orFlags 0 fl)
        else .error (.range .flags (.int (orFlags 0 fl)) (8 * w)) := rfl

theorem packItem_bytes (k n : Nat) (bs : List Byte) :
    packItem k (.bytes n) (.bytes bs)
      = if bs.length = n then .ok bs else .error (itemRange k (.bytes n) (.bytes bs)) := rfl

/-- The length of a flag list is checked before its flags (R120, R121). -/
theorem packItem_flags (k w n : Nat) (fl : List Bool) :
    packItem k (.bits w n) (.flags fl)
      = if fl.length ≠ n then .error (itemRange k (.bits w n) (.flags fl))
        else (packFlags w fl).map (bytesLE · w) := by
  rw [packItem, packMask]
  cases packFlags w fl <;> rfl

theorem packItem_bool (k w : Nat) (b : Bool) :
    packItem k (.boolEnum w) (.bool b)
      = if boolCode b < 2 ^ (8 * w) then .ok (itemBytes (.boolEnum w, .bool b))
        else .error (itemRange k (.boolEnum w) (.bool b)) := rfl

theorem packItem_of_encodable {p : Ty × PackValue} (h : Encodable p) (k : Nat) :
    packItem k p.1 p.2 = .ok (itemBytes p) := by
  cases h with
  | int hrange hx => rw [packItem_int hrange, if_pos hx]
  | bytes bs => rw [packItem_bytes, if_pos rfl]; rfl
  | flags fl hfit => rw [packItem_flags, if_neg (not_not_intro rfl), packFlags_eq, if_pos hfit]; rfl
  | bool hw b => rw [packItem_bool, if_pos (boolCode_lt hw b)]

/-- Encodable items contribute their bytes, and PACK_FIELDS goes on with the item after them (R120, R239). -/
theorem packItems_append {pre : List (Ty × PackValue)} (h : ∀ p ∈ pre, packable p = true) (k : Nat)
    (rest : List (Ty × PackValue)) :
    packItems k (pre ++ rest) = (packItems (k + pre.length) rest).map (packedBytes pre ++ ·) := by
  induction pre generalizing k with
  | nil =>
    rw [List.nil_append, List.length_nil, Nat.add_zero]
    cases packItems k rest <;> rfl
  | cons p pre ih =>
    obtain ⟨hp, hpre⟩ := List.forall_mem_cons.1 h
    rw [List.cons_append, packItems, packItem_of_encodable (encodable_of_packable hp), ih hpre,
      Nat.add_assoc, Nat.add_comm 1, List.length_cons]
    cases packItems (k + (pre.length + 1)) rest <;> simp [Except.map, packedBytes_cons]

theorem packItems_of_packable {items : List (Ty × PackValue)} (h : ∀ p ∈ items, packable p = true) (k : Nat) :
    packItems k items = .ok (packedBytes items) := by
  have happend := packItems_append h k []
  rw [List.append_nil] at happend
  rw [happend, packItems, Except.map, List.append_nil]

/-- The first item that cannot be encoded is reported, whatever follows it (R239). -/
theorem exec_packFields_firstBad {pre post : List (Ty × PackValue)} {ty : Ty} {v : PackValue} {e : Error}
    (h : ∀ p ∈ pre, packable p = true) (hbad : packItem pre.length ty v = .error e) (s : State) :
    exec (.packFields (pre ++ (ty, v) :: post)) s = .next (s.respond (.err e)) := by
  rw [exec_packFields, packItems_append h, Nat.zero_add, packItems, hbad]
  rfl

/-! ### PACK_BITS, PACK_FILTER and ENC_BOOL -/

/-- A mask fits n bits iff no true flag has an index of at least n (R121). -/
theorem orFlags_lt_iff_getD (fl : List Bool) (n : Nat) :
    orFlags 0 fl < 2 ^ n ↔ ∀ i, n ≤ i → fl.getD i false = false := by
  simp only [← testBit_packed]
  constructor
  · intro hlt i hi
    exact Nat.testBit_lt_two_pow (Nat.lt_of_lt_of_le hlt (Nat.pow_le_pow_right Nat.two_pos hi))
  · exact Nat.lt_pow_two_of_testBit _

theorem exec_packBits (w : Nat) (fl : List Bool) (s : State) :
    exec (.packBits w fl) s = .next (s.respond (
      if orFlags 0 fl < 2 ^ (8 * w) then .ok (.int (orFlags 0 fl))
      else .err (.range .flags (.int (orFlags 0 fl)) (8 * w)))) := by
  show answerPure ((packFlags w fl).map Reply.int) s = _
  rw [packFlags_eq]
  split <;> rfl

theorem exec_unpackBits (v n : Nat) (s : State) :
    exec (.unpackBits v n) s = .next (s.respond (.ok (.flags (unpackFlags v n)))) := rfl

theorem exec_packFilter (opts : List (Option Int)) (s : State) :
    exec (.packFilter opts) s = .next (s.respond (.ok (.filter (filterValues opts) (filterMask opts)))) := rfl

theorem filterValues_getElem? {opts : List (Option Int)} {i : Nat} {o : Option Int} (h : opts[i]? = some o) :
    (filterValues opts)[i]? = some (o.getD 0) := by
  rw [filterValues, List.getElem?_map, h]
  rfl

/-- Bit i of the mask says whether optional parameter i was supplied (R122). -/
theorem testBit_filterMask (opts : List (Option Int)) (i : Nat) :
    (filterMask opts).testBit i = (opts[i]?.map Option.isSome).getD false := by
  rw [filterMask, testBit_packed, List.getD_eq_getElem?_getD, List.getElem?_map]

theorem exec_encBool (b : Bool) (s : State) : exec (.encBool b) s = .next (s.respond (.ok (.int (boolCode b)))) := rfl

/-! ### Fields read back from where they were packed -/

/-- A byte of a field that stands behind `front` (R61, R67). -/
theorem byteAt_field (front rest : List Byte) {bs : List Byte} {i : Nat} (hi : i < bs.length) :
    byteAt (front ++ (bs ++ rest)) (front.length + i) = byteAt bs i := by
  rw [byteAt_append_right (Nat.le_add_right _ _), Nat.add_sub_cancel_left, byteAt_append_left hi]

theorem sub_field (front bs rest : List Byte) : sub (front ++ (bs ++ rest)) front.length bs.length = bs := by
  rw [sub, List.drop_left, List.take_left]

/-- A number packed in 1, 2 or 4 bytes is read back (R65, R143). -/
theorem fieldNat_bytesLE (front rest : List Byte) {v w : Nat} (hw : w = 1 ∨ w = 2 ∨ w = 4) (hv : v < 2 ^ (8 * w)) :
    fieldNat (front ++ (bytesLE v w ++ rest)) front.length w = v := by
  have hbyte (i : Nat) (hi : i < w) :
      (byteAt (front ++ (bytesLE v w ++ rest)) (front.length + i)).toNat = v / 256 ^ i % 256 := by
    rw [byteAt_field front rest (by rwa [bytesLE_length]), byteAt_bytesLE hi, BitVec.toNat_ofNat]
  have hzero := hbyte 0
  rw [Nat.add_zero] at hzero
  obtain rfl | rfl | rfl := hw
  · rw [fieldNat, if_pos rfl, hzero (by omega)]
    omega
  · rw [fieldNat, if_neg (by omega), if_pos rfl, le16_toNat, hzero (by omega), hbyte 1 (by omega)]
    omega
  · rw [fieldNat, if_neg (by omega), if_neg (by omega), le32_toNat, hzero (by omega), hbyte 1 (by omega),
      hbyte 2 (by omega), hbyte 3 (by omega)]
    omega

theorem width_of_intRange {ty : Ty} {r : Int × Int} (h : intRange ty = some r) :
    width ty = 1 ∨ width ty = 2 ∨ width ty = 4 := by
  cases ty with
  | u8 => exact .inl rfl
  | u16 | i16 => exact .inr (.inl rfl)
  | u32 | i32 => exact .inr (.inr rfl)
  | bytes | status32 | adc16 | bits | boolEnum => cases h

/-- A word whose unsigned value is an integer modulo 2 ^ (w + 1) is that integer, where it lies in the signed range. -/
theorem toInt_of_toNat_eq_emod {w : Nat} {y : BitVec (w + 1)} {x : Int} (h : (y.toNat : Int) = x % 2 ^ (w + 1))
    (hlo : -2 ^ w ≤ x) (hhi : x < 2 ^ w) : y.toInt = x := by
  have hmod : x % 2 ^ (w + 1) = x % ((2 ^ (w + 1) : Nat) : Int) := by push_cast; rfl
  have hpow : (((2 ^ (w + 1) : Nat) : Int)) = 2 * 2 ^ w := by push_cast; ring
  rw [BitVec.toInt_eq_toNat_bmod, h, hmod, Int.emod_bmod]
  apply Int.bmod_eq_of_le <;> omega

/-- An integer of the type's range is read back from its two's complement (R143). -/
theorem decodeField_int {ty : Ty} {lo hi x : Int} {g : List Byte} {o : Nat} (hrange : intRange ty = some (lo, hi))
    (hx : lo ≤ x ∧ x ≤ hi) (hg : (fieldNat g o (width ty) : Int) = x % 2 ^ (8 * width ty))
    (fl : List (String × Fin 32)) (name : String) : decodeField fl g ⟨name, o, ty⟩ = .ok [(name, .int x)] := by
  obtain ⟨hlo, hhi⟩ := hx
  cases ty with
  | u8 | u16 | u32 =>
    cases hrange
    exact congrArg (fun n => Except.ok [(name, Value.int n)])
      (hg.trans (Int.emod_eq_of_lt hlo (Int.lt_of_le_of_lt hhi (by decide))))
  | i16 | i32 =>
    cases hrange
    exact congrArg (fun n => Except.ok [(name, Value.int n)])
      (toInt_of_toNat_eq_emod hg hlo (Int.lt_of_le_of_lt hhi (by decide)))
  | bytes | status32 | adc16 | bits | boolEnum => cases hrange

theorem boolOfCode_boolCode (b : Bool) : boolOfCode (boolCode b) = some b := by cases b <;> rfl

/-- An item packed behind `front` is decoded there as it was, at the widths of a registry entry (R36, R143). -/
theorem decodeField_itemBytes {p : Ty × PackValue} (h : Encodable p) (hwf : tyWF p.1 = true)
    (fl : List (String × Fin 32)) (name : String) (front rest : List Byte) :
    decodeField fl (front ++ (itemBytes p ++ rest)) ⟨name, front.length, p.1⟩ = .ok [(name, decodedValue p.2)] := by
  obtain ⟨-, hbits, henum⟩ := (tyWF_iff p.1).1 hwf
  cases h with
  | @int ty lo hi x hrange hx =>
    refine decodeField_int hrange hx ?_ fl name
    have hpos : (0 : Int) < 2 ^ (8 * width ty) := by positivity
    rw [itemBytes, fieldNat_bytesLE front rest (width_of_intRange hrange)]
    · exact Int.toNat_of_nonneg (Int.emod_nonneg _ hpos.ne')
    · exact (Int.toNat_lt (Int.emod_nonneg _ hpos.ne')).2 (by exact_mod_cast Int.emod_lt_of_pos _ hpos)
  | bytes bs =>
    exact congrArg (fun v => Except.ok [(name, Value.bytes v)]) (sub_field front bs rest)
  | flags v hfit =>
    obtain ⟨hw, -⟩ := hbits _ _ rfl
    simp only [decodeField, itemBytes, width, fieldNat_bytesLE front rest hw hfit, unpackFlags_orFlags, decodedValue]
  | bool hw b =>
    have hfield := fieldNat_bytesLE front rest ((henum _ rfl).imp_right .inl) (boolCode_lt hw b)
    simp only [decodeField, itemBytes, width, hfield, boolOfCode_boolCode, decodedValue]

/-- Descriptors laid the way the items were packed read every item back, from any offset on (R67, R144). -/
theorem decodeFields_layoutFrom {items : List (String × Ty × PackValue)}
    (h : ∀ p ∈ items, packable p.2 = true ∧ tyWF p.2.1 = true) (fl : List (String × Fin 32)) (front : List Byte) :
    decodeFields fl (front ++ packedBytes (items.map Prod.snd)) (layoutFrom front.length items)
      = .ok (items.map (fun p => (p.1, decodedValue p.2.2))) := by
  induction items generalizing front with
  | nil => rfl
  | cons p items ih =>
    obtain ⟨name, item⟩ := p
    obtain ⟨⟨hp, hwf⟩, hitems⟩ := List.forall_mem_cons.1 h
    have henc := encodable_of_packable hp
    have hrest := ih hitems (front ++ itemBytes item)
    rw [List.append_assoc, List.length_append, itemBytes_length henc] at hrest
    rw [layoutFrom, decodeFields, List.map_cons, packedBytes_cons,
      decodeField_itemBytes henc hwf, hrest]
    rfl

/-- A frame with room for the packed items has room for every descriptor of their layout (R35). -/
theorem minSize_layoutFrom_le (o : Nat) (items : List (String × Ty × PackValue)) :
    minSize (layoutFrom o items) ≤ max 6 (o + (items.map (fun p => width p.2.1)).sum) := by
  induction items generalizing o with
  | nil => exact Nat.le_max_left _ _
  | cons p items ih =>
    obtain ⟨name, ty, v⟩ := p
    have hrest := ih (o + width ty)
    simp only [layoutFrom, minSize, List.map_cons, List.sum_cons]
    omega

/-! ### A long frame, built and dispatched -/

theorem encodeFrame_longFrameBytes (m : MsgId) (d : Dest) (so : Byte) {pl : List Byte} (hpl : pl.length ≤ maxPayload) :
    encodeFrame m.toNat d.toNat so.toNat 0 0 (some pl) = .ok (longFrameBytes m d so pl) := by
  have hlen : (BitVec.ofNat 16 pl.length).toNat = pl.length := by
    rw [BitVec.toNat_ofNat, Nat.mod_eq_of_lt (Nat.lt_succ_of_le hpl)]
  have hlong := encodeLongHeader_toNat m (BitVec.ofNat 16 pl.length) d so
  rw [hlen] at hlong
  rw [encodeFrame_some, if_neg (by simp), hlong, longFrameBytes_eq_headerBytes_append]
  rfl

theorem hdrMsgid_longFrameBytes (m : MsgId) (d : Dest) (so : Byte) (pl : List Byte) :
    hdrMsgid (longFrameBytes m d so pl) = m := extractLsb'_append_self m

theorem hdrDest_longFrameBytes (m : MsgId) (d : Dest) (so : Byte) (pl : List Byte) :
    hdrDest (longFrameBytes m d so pl) = d := setWidth_flag_append 1#1 d

theorem hdrSource_longFrameBytes (m : MsgId) (d : Dest) (so : Byte) (pl : List Byte) :
    hdrSource (longFrameBytes m d so pl) = so := rfl

/-- A long frame is its own effective frame (R142). -/
theorem effectiveFrame_longFrameBytes (m : MsgId) (d : Dest) (so : Byte) {pl : List Byte} (hpl : pl.length ≤ maxPayload) :
    effectiveFrame (longFrameBytes m d so pl) = longFrameBytes m d so pl := by
  have hsize := frameSize_longFrameBytes m d so pl [] hpl
  rw [List.append_nil] at hsize
  rw [effectiveFrame, hsize, longFrameBytes_length, Nat.min_self, List.take_of_length_le (longFrameBytes_length ..).le]

/-- A long frame that an entry under its msgid can decode is answered with a known record (R141, R144). -/
theorem decodeRecord_longFrameBytes {reg : Registry} {m : MsgId} {name : String} {ds : List Desc}
    {fields : List (String × Value)} {fl : List (String × Fin 32)} {d : Dest} {so : Byte} {pl : List Byte}
    (hpl : pl.length ≤ maxPayload) (hfind : Registry.find m reg = some ⟨m.toNat, name, ds⟩)
    (hsize : minSize ds ≤ 6 + pl.length) (hfields : decodeFields fl (longFrameBytes m d so pl) ds = .ok fields) :
    decodeRecord fl reg (longFrameBytes m d so pl) = .ok
      { kind := .known, name := name, msgid := m, dest := d, source := so, fields := fields, error := none } := by
  simp only [decodeRecord, effectiveFrame_longFrameBytes m d so hpl, hdrMsgid_longFrameBytes, hdrDest_longFrameBytes,
    hdrSource_longFrameBytes, longFrameBytes_length, hfind, hfields]
  rw [if_neg (Nat.not_lt.2 (Nat.le_add_right 6 _)), if_neg (not_not_intro rfl), if_neg (Nat.not_lt.2 hsize)]

/-- DISPATCH of a frame that decodes answers its record and seals the registry (R141). -/
theorem exec_dispatch_of_ok {f : List Byte} {s : State} {r : Record} (hc : s.cfgFault = false)
    (h : decodeRecord s.cfg.statusFlags s.reg f = .ok r) :
    exec (.dispatch f) s = .next (s.seal.respond (.ok (.record r))) := by
  show execDispatch f s = _
  rw [execDispatch, dispatchFrame, hc, h]
  rfl

/-! ### The statements settled -/

/-- Settles O17: each item is read back at the offset where PACK_FIELDS laid it, by induction over the list. -/
theorem packedFrameDispatchesBack : Obligations.PackedFrameDispatchesBack := by
  intro items m d so name s hitems hsum hc hfind
  have hpack : ∀ p ∈ items.map Prod.snd, packable p = true :=
    List.forall_mem_map.2 fun p hp => (hitems p hp).1
  have hlen : (packedBytes (items.map Prod.snd)).length = (items.map (fun p => width p.2.1)).sum := by
    rw [packedBytes_length hpack, List.map_map]
    rfl
  refine ⟨packedBytes (items.map Prod.snd), longFrameBytes m d so (packedBytes (items.map Prod.snd)), ?_, ?_, ?_⟩
  · rw [exec_packFields, packItems_of_packable hpack]
    rfl
  · rw [exec_encFrame, encodeFrame_longFrameBytes m d so (hlen.trans_le hsum)]
    rfl
  · refine exec_dispatch_of_ok hc (decodeRecord_longFrameBytes (hlen.trans_le hsum) hfind ?_ ?_)
    · rw [hlen]
      exact (minSize_layoutFrom_le 6 items).trans (max_le (Nat.le_add_right _ _) le_rfl)
    · exact decodeFields_layoutFrom hitems s.cfg.statusFlags _

/-- Settles O16: the bytes are those of the items, back to back, and each item's are pinned byte by byte. -/
theorem packFieldsCompletes : Obligations.PackFieldsCompletes := by
  intro items s h
  refine ⟨items.map itemBytes, ?_, packedBytes_length h, ?_⟩
  · rw [exec_packFields, packItems_of_packable h]
    rfl
  · rw [List.forall₂_map_right_iff, List.forall₂_same]
    rintro ⟨ty, v⟩ hp
    have henc := encodable_of_packable (h _ hp)
    refine ⟨itemBytes_length henc, ?_, ?_, ?_, ?_⟩
    · rintro x rfl i hi
      exact byteAt_itemBytes_int ty x hi
    · rintro bs rfl
      rfl
    · rintro fl rfl i hi
      rw [← testBit_packed]
      exact getLsbD_byteAt_bytesLE (orFlags 0 fl) hi
    · rintro b rfl
      cases henc with
      | bool hw => exact bytesLE_boolCode hw b

/-- Settles O18: the items before the bad one contribute bytes only, so its error is the response. -/
theorem packFieldsReportsFirstBadItem : Obligations.PackFieldsReportsFirstBadItem := by
  intro pre post s hpre
  refine ⟨?_, ?_, ?_, ?_, ?_⟩
  · rintro ty v (rfl | rfl) <;> exact exec_packFields_firstBad hpre rfl s
  · intro ty lo hi x hmem hout
    refine exec_packFields_firstBad hpre ((packItem_int (intRange_of_mem hmem) _ x).trans (if_neg ?_)) s
    omega
  · intro n bs hlen
    exact exec_packFields_firstBad hpre ((packItem_bytes _ n bs).trans (if_neg hlen)) s
  · intro w n fl hlen
    exact exec_packFields_firstBad hpre ((packItem_flags _ w n fl).trans (if_pos hlen)) s
  · intro w fl i hi htrue
    refine ⟨orFlags 0 fl, testBit_packed fl, exec_packFields_firstBad hpre ?_ s⟩
    have hwide : ¬ orFlags 0 fl < 2 ^ (8 * w) := fun hfit =>
      Bool.false_ne_true (((orFlags_lt_iff_getD fl (8 * w)).1 hfit i hi).symm.trans htrue)
    rw [packItem_flags, if_neg (not_not_intro rfl), packFlags_eq, if_neg hwide]
    rfl

/-- Settles O19: the mask is pinned by its bits, and so is whether it fits the field. -/
theorem packBitsAnswersMask : Obligations.PackBitsAnswersMask := by
  intro w fl s _
  refine ⟨orFlags 0 fl, testBit_packed fl, orFlags_lt_iff_getD fl (8 * w), rfl, exec_packBits w fl s, fun _ => ?_⟩
  rw [exec_unpackBits, unpackFlags_orFlags]

/-- Settles O20: value i and mask bit i are read off parameter i. -/
theorem packFilterAnswersValuesAndMask : Obligations.PackFilterAnswersValuesAndMask := by
  intro opts s
  refine ⟨filterValues opts, filterMask opts, rfl, exec_packFilter opts s, List.length_map _, ?_, ?_, ?_⟩
  · intro i x h
    exact ⟨filterValues_getElem? h, by rw [testBit_filterMask, h]; rfl⟩
  · intro i h
    exact ⟨filterValues_getElem? h, by rw [testBit_filterMask, h]; rfl⟩
  · intro i hi
    rw [testBit_filterMask, List.getElem?_eq_none hi]
    rfl

/-- Settles O21: the two codes, one for each boolean. -/
theorem encBoolAnswersOneOrTwo : Obligations.EncBoolAnswersOneOrTwo := by
  intro b s
  refine ⟨rfl, ?_⟩
  cases b with
  | false => exact exec_encBool false s
  | true => exact exec_encBool true s

end Sys2Proof.Machine

/-! Proofs of the family 42_dispatch: REGISTER, the fields a descriptor reads, and DISPATCH (spec/42_dispatch.md R140 to
R147). -/

namespace Sys2Proof.Machine

/-! ### REGISTER, arm by arm -/

theorem exec_register_fatal {s : State} (e : Entry) (hcf : s.cfgFault = true) :
    exec (.register e) s = .next (s.respond (.err (.configuration .fatal))) := by
  simp [exec, execRegister, fatalConfig, raise, hcf]

theorem exec_register_sealed {s : State} (e : Entry) (hcf : s.cfgFault = false) (hs : s.sealed = true) :
    exec (.register e) s = .next (s.setCfgFault.respond (.err (.configuration (.sealed e.msgid)))) := by
  simp [exec, execRegister, fatalConfig, raise, hcf, hs]

theorem exec_register_duplicate {s : State} {e : Entry} (hcf : s.cfgFault = false) (hs : s.sealed = false)
    (hw : entryWF s.cfg.statusFlags e = true) (hdup : Registry.find (entryKey e) s.reg ≠ none) :
    exec (.register e) s = .next (s.setCfgFault.respond (.err (.configuration (.duplicate e.msgid)))) := by
  simp [exec, execRegister, fatalConfig, raise, hcf, hs, hw, Option.isSome_iff_ne_none, hdup]

theorem exec_register_new {s : State} {e : Entry} (hcf : s.cfgFault = false) (hs : s.sealed = false)
    (hw : entryWF s.cfg.statusFlags e = true) (hnew : Registry.find (entryKey e) s.reg = none) :
    exec (.register e) s = .next ((s.addEntry (entryKey e) e).respond (.ok .unit)) := by
  simp [exec, execRegister, fatalConfig, answer, hcf, hs, hw, hnew]

/-! ### What a field reads, in arithmetic on the bytes -/

/-- A 16-bit field read as two's complement (R143). -/
theorem le16_toInt (g : List Byte) (o : Nat) :
    (le16 g o).toInt = if ((le16 g o).toNat : Int) < 32768 then ((le16 g o).toNat : Int) else (le16 g o).toNat - 65536 := by
  rw [BitVec.toInt_eq_toNat_cond]
  split <;> split <;> omega

/-- A 32-bit field read as two's complement (R143). -/
theorem le32_toInt (g : List Byte) (o : Nat) :
    (le32 g o).toInt = if ((le32 g o).toNat : Int) < 2147483648 then ((le32 g o).toNat : Int)
      else (le32 g o).toNat - 4294967296 := by
  rw [BitVec.toInt_eq_toNat_cond]
  split <;> split <;> omega

/-- A named status flag is a quotient's parity (R170). -/
theorem statusBits_eq_div_mod (fl : List (String × Fin 32)) (w : BitVec 32) :
    statusBits fl w = fl.map (fun p => (p.1, decide (w.toNat / 2 ^ p.2.val % 2 = 1))) :=
  List.map_congr_left fun p _ => congrArg (Prod.mk p.1) Nat.testBit_eq_decide_div_mod_eq

/-- An unpacked flag is a quotient's parity (R173). -/
theorem unpackFlags_eq_div_mod (v n : Nat) :
    unpackFlags v n = (List.range n).map (fun i => decide (v / 2 ^ i % 2 = 1)) :=
  List.map_congr_left fun _ _ => Nat.testBit_eq_decide_div_mod_eq

/-- An ADC sample is the exact quotient (R172). -/
theorem adcVolt_eq_div (raw : BitVec 16) : adcVolt raw = ((raw.toNat : Int) : ℚ) * 5 / 32768 := by
  rw [adcVolt, Rat.mkRat_eq_div]
  push_cast
  rfl

/-- A boolean enum reads 1 as true and 2 as false, and anything else is BAD_ENUM (R143, R174). -/
theorem decodeField_boolEnum (fl : List (String × Fin 32)) (g : List Byte) (x : String) (o w : Nat) :
    decodeField fl g ⟨x, o, .boolEnum w⟩ =
      if fieldNat g o w = 1 then .ok [(x, .bool true)] else if fieldNat g o w = 2 then .ok [(x, .bool false)]
      else .error (.badEnum (hdrMsgid g) (hdrDest g) (hdrSource g) x (fieldNat g o w)) := by
  simp only [decodeField, boolOfCode]
  by_cases h1 : fieldNat g o w = 1
  · rw [if_pos h1, if_pos h1]
  · rw [if_neg h1, if_neg h1]
    by_cases h2 : fieldNat g o w = 2
    · rw [if_pos h2, if_pos h2]
    · rw [if_neg h2, if_neg h2]

/-! ### One descriptor after the other -/

/-- The first failing descriptor's error is the list's (R143, R237). -/
theorem decodeFields_first_error {fl : List (String × Fin 32)} {g : List Byte} {pre : List Desc} {d : Desc}
    (post : List Desc) {fs : List (String × Value)} {i : FormatInfo} (hpre : decodeFields fl g pre = .ok fs)
    (hd : decodeField fl g d = .error i) : decodeFields fl g (pre ++ d :: post) = .error i := by
  induction pre generalizing fs with
  | nil => simp [decodeFields, hd]
  | cons p pre ih =>
    cases hp : decodeField fl g p with
    | error i => simp [decodeFields, hp] at hpre
    | ok fp =>
      cases hrest : decodeFields fl g pre with
      | error i => simp [decodeFields, hp, hrest] at hpre
      | ok fpre => simp [decodeFields, hp, ih hrest]

/-- The fields of descriptors that all decode are theirs, in order (R141, R143). -/
theorem decodeFields_eq_flatten {fl : List (String × Fin 32)} {g : List Byte} {ds : List Desc}
    {fss : List (List (String × Value))} (h : List.Forall₂ (fun d fs => decodeField fl g d = .ok fs) ds fss) :
    decodeFields fl g ds = .ok fss.flatten := by
  induction h with
  | nil => rfl
  | cons hd _ ih => simp [decodeFields, hd, ih]

/-- The BAD_ENUM of a descriptor: the header of the frame, the field's name and what it holds (R143, R232). -/
def badEnumOf (g : List Byte) (d : Desc) (w : Nat) : FormatInfo :=
  .badEnum (hdrMsgid g) (hdrDest g) (hdrSource g) d.fname (fieldNat g d.off w)

/-- The descriptor is a boolean enum of w bytes that holds neither 1 nor 2 (R147). -/
def IllegalEnum (g : List Byte) (d : Desc) (w : Nat) : Prop :=
  d.ty = .boolEnum w ∧ fieldNat g d.off w ≠ 1 ∧ fieldNat g d.off w ≠ 2

theorem decodeField_illegalEnum {g : List Byte} {d : Desc} {w : Nat} (fl : List (String × Fin 32))
    (h : IllegalEnum g d w) : decodeField fl g d = .error (badEnumOf g d w) := by
  obtain ⟨x, o, ty⟩ := d
  obtain ⟨rfl, h1, h2⟩ := h
  exact (decodeField_boolEnum fl g x o w).trans ((if_neg h1).trans (if_neg h2))

/-- A boolean enum of 1 or 2, and a field of any other type, decodes (R143). -/
theorem decodeField_of_legal {g : List Byte} {d : Desc} (fl : List (String × Fin 32)) (h : enumsLegal g [d] = true) :
    ∃ fs, decodeField fl g d = .ok fs := by
  obtain ⟨x, o, ty⟩ := d
  cases ty with
  | boolEnum w =>
    rw [decodeField_boolEnum]
    obtain h1 | h2 : fieldNat g o w = 1 ∨ fieldNat g o w = 2 := by simpa [enumsLegal] using h
    · exact ⟨_, if_pos h1⟩
    · exact ⟨[(x, .bool false)], by simp [h2]⟩
  | u8 | u16 | i16 | u32 | i32 | bytes | status32 | adc16 | bits => exact ⟨_, rfl⟩

theorem illegalEnum_of_not_legal {g : List Byte} {d : Desc} (h : enumsLegal g [d] = false) :
    ∃ w, IllegalEnum g d w := by
  obtain ⟨x, o, ty⟩ := d
  cases ty with
  | boolEnum w => exact ⟨w, rfl, by simpa [enumsLegal] using h⟩
  | u8 | u16 | i16 | u32 | i32 | bytes | status32 | adc16 | bits => cases h

theorem enumsLegal_cons (g : List Byte) (d : Desc) (ds : List Desc) :
    enumsLegal g (d :: ds) = (enumsLegal g [d] && enumsLegal g ds) := by
  simp only [enumsLegal, List.all_cons, List.all_nil, Bool.and_true]

/-- A frame whose boolean enums all hold 1 or 2 decodes (R147). -/
theorem decodeFields_of_legal {g : List Byte} {ds : List Desc} (fl : List (String × Fin 32))
    (h : enumsLegal g ds = true) : ∃ fields, decodeFields fl g ds = .ok fields := by
  induction ds with
  | nil => exact ⟨[], rfl⟩
  | cons d ds ih =>
    rw [enumsLegal_cons, Bool.and_eq_true] at h
    obtain ⟨fs, hd⟩ := decodeField_of_legal fl h.1
    obtain ⟨more, hds⟩ := ih h.2
    exact ⟨fs ++ more, by simp only [decodeFields, hd, hds]⟩

/-- Where not every boolean enum holds 1 or 2, one is the first that does not (R147). -/
theorem exists_first_illegalEnum {g : List Byte} {ds : List Desc} (h : enumsLegal g ds = false) :
    ∃ pre d w post, ds = pre ++ d :: post ∧ enumsLegal g pre = true ∧ IllegalEnum g d w := by
  induction ds with
  | nil => cases h
  | cons d ds ih =>
    cases hd : enumsLegal g [d] with
    | false =>
      obtain ⟨w, hw⟩ := illegalEnum_of_not_legal hd
      exact ⟨[], d, w, ds, rfl, rfl, hw⟩
    | true =>
      rw [enumsLegal_cons, hd, Bool.true_and] at h
      obtain ⟨pre, d', w, post, rfl, hpre, hw⟩ := ih h
      exact ⟨d :: pre, d', w, post, rfl, by rw [enumsLegal_cons, hd, hpre]; rfl, hw⟩

/-! ### Decoding a frame, row by row -/

/-- The first bytes of a frame, its header among them, give a BAD_ENUM the header of the frame (R142, R232). -/
theorem badEnumOf_take {f : List Byte} {n : Nat} (hn : 6 ≤ n) (d : Desc) (w : Nat) :
    badEnumOf (f.take n) d w
      = .badEnum (hdrMsgid f) (hdrDest f) (hdrSource f) d.fname (fieldNat (f.take n) d.off w) := by
  have hbyte (i : Nat) (hi : i < 6) : byteAt (f.take n) i = byteAt f i := byteAt_take (by omega)
  simp only [badEnumOf, hdrMsgid, le16, hdrDest, hdrSource, hbyte 0, hbyte 1, hbyte 4, hbyte 5, Nat.reduceLT,
    Nat.reduceAdd]

section Rows

variable {fl : List (String × Fin 32)} {reg : Registry} {f : List Byte}

theorem decodeRecord_shortHeader (hf : f.length < 6) :
    decodeRecord fl reg f = .error (.format (.shortHeader f.length 6)) := by
  rw [decodeRecord, if_pos hf]

theorem decodeRecord_unregistered (hf : 6 ≤ f.length) (hfind : Registry.find (hdrMsgid f) reg = none) :
    decodeRecord fl reg f = .error (.unknown (hdrMsgid f) (hdrDest f) (hdrSource f)) := by
  simp only [decodeRecord, hfind]
  rw [if_neg (Nat.not_lt.2 hf)]

/-- A registered frame, in a registry that satisfies INV2: TOO_SHORT, or what the fields decode to (R141, R142, R144). -/
theorem decodeRecord_registered {e : Entry} (hk : Registry.keyed fl reg) (hf : 6 ≤ f.length)
    (hfind : Registry.find (hdrMsgid f) reg = some e) :
    decodeRecord fl reg f =
      if min f.length (frameSize f) < minSize e.fields then
        .error (.format (.tooShort (hdrMsgid f) (hdrDest f) (hdrSource f) (min f.length (frameSize f)) (minSize e.fields)))
      else
        ((decodeFields fl (f.take (min f.length (frameSize f))) e.fields).mapError DispatchError.format).map fun fields =>
          { kind := .known, name := e.name, msgid := hdrMsgid f, dest := hdrDest f, source := hdrSource f,
            fields := fields, error := none } := by
  obtain ⟨hkey, -⟩ := hk _ (Registry.find_mem hfind)
  have hlen : (effectiveFrame f).length = min f.length (frameSize f) := by
    rw [effectiveFrame, List.length_take, Nat.min_eq_left (Nat.min_le_left _ _)]
  simp only [decodeRecord, hfind, hlen]
  rw [if_neg (Nat.not_lt.2 hf), if_neg (not_not_intro hkey)]
  refine ite_congr rfl (fun _ => rfl) fun _ => ?_
  rw [effectiveFrame]
  cases decodeFields fl (f.take (min f.length (frameSize f))) e.fields <;> rfl

end Rows

/-! ### DISPATCH -/

/-- The response of a DISPATCH (R141, R230). -/
def dispatchResponse : Except DispatchError Record → Response
  | .ok r => .ok (.record r)
  | .error e => .err e.toError

/-- What a DISPATCH answers under INV2, from the four things R146 names alone. -/
def dispatchOutcome (cfgFault : Bool) (fl : List (String × Fin 32)) (reg : Registry) (f : List Byte) :
    Except DispatchError Record :=
  if cfgFault then .error .fatal else decodeRecord fl reg f

theorem exec_dispatch_eq_respond (f : List Byte) (s : State) :
    exec (.dispatch f) s = .next ((dispatchFrame f s).2.respond (dispatchResponse (dispatchFrame f s).1)) := by
  show execDispatch f s = _
  rw [execDispatch]
  obtain ⟨r | r, t⟩ := dispatchFrame f s <;> rfl

/-- DISPATCH in a registry that satisfies INV2: the whole next state (R141, R146). -/
theorem exec_dispatch_of_keyed {s : State} (hk : Registry.keyed s.cfg.statusFlags s.reg) (f : List Byte) :
    exec (.dispatch f) s = .next (({ s with sealed := s.sealed || !s.cfgFault } : State).respond
      (dispatchResponse (dispatchOutcome s.cfgFault s.cfg.statusFlags s.reg f))) := by
  have hframe : dispatchFrame f s = (dispatchOutcome s.cfgFault s.cfg.statusFlags s.reg f,
      { s with sealed := s.sealed || !s.cfgFault }) := by
    obtain hc | hc := Bool.eq_false_or_eq_true s.cfgFault
    · have hsealed : (s.sealed || !s.cfgFault) = s.sealed := by rw [hc, Bool.not_true, Bool.or_false]
      rw [hsealed, dispatchOutcome, if_pos hc, dispatchFrame, if_pos hc]
    · have hsealed : (s.sealed || !s.cfgFault) = true := by rw [hc, Bool.not_false, Bool.or_true]
      rw [hsealed, dispatchOutcome, if_neg (Bool.eq_false_iff.1 hc)]
      exact dispatchFrame_of_keyed hk hc f
  rw [exec_dispatch_eq_respond, hframe]

/-- DISPATCH past the fatal check, under INV2: the registry sealed, and the response of the frame's decoding. -/
theorem exec_dispatch_of_open {f : List Byte} {s : State} {r : Except DispatchError Record} (hc : s.cfgFault = false)
    (hk : Registry.keyed s.cfg.statusFlags s.reg) (h : decodeRecord s.cfg.statusFlags s.reg f = r) :
    exec (.dispatch f) s = .next (({ s with sealed := true } : State).respond (dispatchResponse r)) := by
  rw [exec_dispatch_eq_respond, dispatchFrame_of_keyed hk hc, h]
  rfl

/-! ### The statements settled -/

/-- Settles O27: REGISTER's five arms, and what the registry reads after an entry is added under a new key. -/
theorem registerOutcome : Obligations.RegisterOutcome := by
  intro e s
  refine ⟨rfl, exec_register_fatal e, exec_register_sealed e, exec_register_badEntry, exec_register_duplicate, ?_⟩
  intro hcf hs hw hnew
  exact ⟨Registry.add (entryKey e) e s.reg, exec_register_new hcf hs hw hnew, Registry.find_add_self e hnew,
    fun k hk => Registry.find_add_other s.reg e hk⟩

/-- Settles O29: each row is a row of the frame's decoding, and a field list fails at its first illegal enum. -/
theorem dispatchDecisionTable : Obligations.DispatchDecisionTable := by
  intro f s hc hk k n t
  have hrow {r : Except DispatchError Record} (h : decodeRecord s.cfg.statusFlags s.reg f = r) :
      exec (.dispatch f) s = .next (t.respond (dispatchResponse r)) := exec_dispatch_of_open hc hk h
  refine ⟨fun hf => hrow (decodeRecord_shortHeader hf), fun hf hfind => hrow (decodeRecord_unregistered hf hfind),
    ?_, ?_, ?_⟩
  · intro e hf hfind hshort
    exact hrow ((decodeRecord_registered hk hf hfind).trans (if_pos hshort))
  · intro e hf hfind hsize henum
    obtain ⟨pre, d, w, post, hsplit, hpre, hbad⟩ := exists_first_illegalEnum henum
    obtain ⟨fs, hfs⟩ := decodeFields_of_legal s.cfg.statusFlags hpre
    have hn : 6 ≤ n := Nat.le_min.2 ⟨hf, frameSize_ge f⟩
    have hfields : decodeFields s.cfg.statusFlags (f.take n) e.fields
        = .error (.badEnum k (hdrDest f) (hdrSource f) d.fname (fieldNat (f.take n) d.off w)) := by
      rw [hsplit, decodeFields_first_error post hfs (decodeField_illegalEnum _ hbad), badEnumOf_take hn]
    have hdec := decodeRecord_registered hk hf hfind
    rw [if_neg (Nat.not_lt.2 hsize), hfields] at hdec
    obtain ⟨hty, h1, h2⟩ := hbad
    exact ⟨pre, d, w, post, hsplit, hpre, hty, h1, h2, hfields, hrow hdec⟩
  · intro e hf hfind hsize henum
    obtain ⟨fields, hfields⟩ := decodeFields_of_legal s.cfg.statusFlags henum
    have hdec := decodeRecord_registered hk hf hfind
    rw [if_neg (Nat.not_lt.2 hsize), hfields] at hdec
    exact ⟨fields, hfields, hrow hdec⟩

/-- Settles O30: the outcome of DISPATCH is a function of the four inputs. -/
theorem dispatchIsPure : Obligations.DispatchIsPure := by
  intro f s1 s2 hreg hcf hfl hk
  refine ⟨_, exec_dispatch_of_keyed hk f, ?_⟩
  rw [hreg, hcf, hfl]
  exact exec_dispatch_of_keyed (hreg ▸ hfl ▸ hk) f

/-- Settles O31: the words a type reads as sums of bytes, and the list lemmas. -/
theorem fieldExtractionValues : Obligations.FieldExtractionValues := by
  intro fl g x o b v16 v32 u
  have h16 : ((le16 g o).toNat : Int) = v16 := by rw [le16_toNat]; push_cast; rfl
  have h32 : ((le32 g o).toNat : Int) = v32 := by rw [le32_toNat]; push_cast; rfl
  have hu (w : Nat) : fieldNat g o w = u w := by
    show _ = if w = 1 then b 0 else if w = 2 then v16.toNat else v32.toNat
    rw [← h16, ← h32, Int.toNat_natCast, Int.toNat_natCast]
    rfl
  refine ⟨rfl, ?_, ?_, ?_, ?_, fun _ => rfl, ?_, ?_, ?_, ?_,
    fun pre d post i fs hpre hd => decodeFields_first_error post hpre hd, fun ds fss h => decodeFields_eq_flatten h⟩
  · rw [decodeField, h16]
  · rw [decodeField, le16_toInt, h16]
  · rw [decodeField, h32]
  · rw [decodeField, le32_toInt, h32]
  · rw [decodeField, statusBits_eq_div_mod, List.map_map, ← h32, Int.toNat_natCast]
    rfl
  · rw [decodeField, adcVolt_eq_div, h16]
  · intro w n _
    simp only [decodeField, unpackFlags_eq_div_mod, hu]
  · intro w _
    rw [decodeField_boolEnum, hu]

end Sys2Proof.Machine

/-! Proofs of the family 43_subdecoders: what the shared sub-decoders answer, and that they read back what the packing
operations wrote (spec/43_subdecoders.md R170 to R176). -/

namespace Sys2Proof.Machine

/-! ### DEC_STATUS -/

theorem exec_decStatus (w : BitVec 32) (s : State) :
    exec (.decStatus w) s = .next (s.respond (.ok (.status (statusBits s.cfg.statusFlags w)))) := rfl

theorem length_statusBits (fl : List (String × Fin 32)) (w : BitVec 32) : (statusBits fl w).length = fl.length :=
  List.length_map _

/-- The flag of an entry of STATUS_FLAGS stands at the entry's own index (R170). -/
theorem statusBits_getElem? {fl : List (String × Fin 32)} {i : Nat} {name : String} {pos : Fin 32}
    (h : fl[i]? = some (name, pos)) (w : BitVec 32) :
    (statusBits fl w)[i]? = some (name, decide (w.toNat / 2 ^ pos.val % 2 = 1)) := by
  rw [statusBits_eq_div_mod, List.getElem?_map, h]
  rfl

theorem mem_statusBits {fl : List (String × Fin 32)} {p : String × Fin 32} (h : p ∈ fl) (w : BitVec 32) :
    (p.1, w.getLsbD p.2) ∈ statusBits fl w :=
  List.mem_map_of_mem h

/-! ### DEC_ADC -/

theorem exec_decAdc (raw : BitVec 16) (s : State) :
    exec (.decAdc raw) s = .next (s.respond (.ok (.volt (adcVolt raw)))) := rfl

theorem adcVolt_nonneg (raw : BitVec 16) : 0 ≤ adcVolt raw := by
  rw [adcVolt_eq_div, Int.cast_natCast]
  positivity

/-- The largest sample, 65535, stays below 65536 * 5 / 32768 = 10 (R172). -/
theorem adcVolt_lt (raw : BitVec 16) : adcVolt raw < 10 := by
  have hraw : (raw.toNat : ℚ) < 65536 := by exact_mod_cast raw.isLt
  rw [adcVolt_eq_div, Int.cast_natCast]
  linarith

/-! ### UNPACK_BITS -/

theorem unpackFlags_getElem? {n i : Nat} (h : i < n) (v : Nat) :
    (unpackFlags v n)[i]? = some (decide (v / 2 ^ i % 2 = 1)) := by
  rw [unpackFlags_eq_div_mod, List.getElem?_map, List.getElem?_range h]
  rfl

/-! ### DEC_BOOL -/

theorem exec_decBool_of_code {v : Nat} {b : Bool} (h : boolOfCode v = some b) (s : State) :
    exec (.decBool v) s = .next (s.respond (.ok (.bool b))) := by
  show execDecBool v s = _
  rw [execDecBool, h]
  rfl

theorem exec_decBool_of_noCode {v : Nat} (h : boolOfCode v = none) (s : State) :
    exec (.decBool v) s = .next (s.respond (.err (.format (.badEnumValue v)))) := by
  show execDecBool v s = _
  rw [execDecBool, h]
  rfl

/-- No number but the two codes is a boolean: 0 is not false (R174). -/
theorem boolOfCode_eq_none {v : Nat} (h1 : v ≠ 1) (h2 : v ≠ 2) : boolOfCode v = none := by
  rw [boolOfCode, if_neg h1, if_neg h2]

/-! ### Read back after packing -/

/-- PACK_BITS answers the mask when no true flag lies past the field (R121). -/
theorem exec_packBits_of_fits {w : Nat} {fl : List Bool} (h : ∀ i, 8 * w ≤ i → fl.getD i false = false) (s : State) :
    exec (.packBits w fl) s = .next (s.respond (.ok (.int (orFlags 0 fl)))) := by
  rw [exec_packBits, if_pos ((orFlags_lt_iff_getD fl (8 * w)).2 h)]

theorem exec_unpackBits_orFlags (fl : List Bool) (s : State) :
    exec (.unpackBits (orFlags 0 fl) fl.length) s = .next (s.respond (.ok (.flags fl))) := by
  rw [exec_unpackBits, unpackFlags_orFlags]

theorem exec_decBool_boolCode (b : Bool) (s : State) :
    exec (.decBool (boolCode b)) s = .next (s.respond (.ok (.bool b))) :=
  exec_decBool_of_code (boolOfCode_boolCode b) s

/-! ### The statements settled -/

/-- Settles O22: one boolean per entry of STATUS_FLAGS, at the entry's index. -/
theorem decStatusAnswersNamedBits : Obligations.DecStatusAnswersNamedBits := by
  intro w s
  exact ⟨statusBits s.cfg.statusFlags w, rfl, exec_decStatus w s, length_statusBits _ w,
    fun _ _ _ h => statusBits_getElem? h w⟩

/-- Settles O23: the exact quotient, and its range from the sample's 16 bits. -/
theorem decAdcAnswersExactVoltage : Obligations.DecAdcAnswersExactVoltage := by
  intro raw s
  exact ⟨adcVolt raw, rfl, exec_decAdc raw s, adcVolt_eq_div raw, adcVolt_nonneg raw, adcVolt_lt raw⟩

/-- Settles O24: n flags, each the parity of its quotient. -/
theorem unpackBitsAnswersLowBits : Obligations.UnpackBitsAnswersLowBits := by
  intro v n s _
  exact ⟨unpackFlags v n, rfl, exec_unpackBits v n s, unpackFlags_length v n, fun _ hi => unpackFlags_getElem? hi v⟩

/-- Settles O25: the two codes, and every other number. -/
theorem decBoolAnswersOnlyOneAndTwo : Obligations.DecBoolAnswersOnlyOneAndTwo := by
  intro v s
  refine ⟨rfl, ?_⟩
  by_cases h1 : v = 1
  · subst h1
    exact exec_decBool_of_code rfl s
  by_cases h2 : v = 2
  · subst h2
    exact exec_decBool_of_code rfl s
  · rw [if_neg h1, if_neg h2]
    exact exec_decBool_of_noCode (boolOfCode_eq_none h1 h2) s

/-- Settles O26: each sub-decoder undoes its packing operation, and every named flag appears in the decoded word. -/
theorem bitfieldFidelityLaws : Obligations.BitfieldFidelityLaws := by
  intro s
  refine ⟨?_, ?_, ?_⟩
  · intro w fl _ hfit
    exact ⟨orFlags 0 fl, exec_packBits_of_fits hfit s, exec_unpackBits_orFlags fl s⟩
  · intro b
    exact ⟨boolCode b, exec_encBool b s, exec_decBool_boolCode b s⟩
  · intro w
    exact ⟨statusBits s.cfg.statusFlags w, exec_decStatus w s, fun _ hp => mem_statusBits hp w⟩

end Sys2Proof.Machine

/-! Proofs of the family 44_unpacker: FEED, the pull operations, the passes of an ITERATE, and what a schedule of FEEDs and
PULLs yields (spec/44_unpacker.md R190 to R206; spec/60_exceptions.md R241, R248). -/

namespace Sys2Proof.Machine

/-! ### What a pull does -/

/-- With a whole frame buffered a pull emits it, source or not, and makes no read (R191, R192, R195). -/
theorem pullCore_of_frameReady {s : State} (hp : phase s.buf = .frameReady) : pullCore s = emit s := by
  unfold pullCore
  split
  · rw [pullAttached, if_pos hp]
  · rw [pullBuffered, if_pos hp]

/-- Without a source and without a whole frame a pull writes nothing (R192). -/
theorem pullCore_of_noSource {s : State} (ha : s.cfg.sourceAttached = false) (hp : phase s.buf ≠ .frameReady) :
    pullCore s = (.notReady, s) := by
  rw [pullCore, if_neg (Bool.eq_false_iff.1 ha), pullBuffered, if_neg hp]

/-- The record and the diagnostic events of the frame at the head of a buffer, under INV2 (R193, R248). -/
def headOutcome (fl : List (String × Fin 32)) (reg : Registry) (buf : List Byte) : Record × List Diag :=
  emitted reg (buf.take (frameSize buf)) (decodeRecord fl reg (buf.take (frameSize buf)))

/-- The state after the head frame has been emitted, under INV2 (R193, R194). -/
def State.headTaken (s : State) : State :=
  { s with buf := s.buf.drop (frameSize s.buf), sealed := true,
           diag := s.diag ++ (headOutcome s.cfg.statusFlags s.reg s.buf).2 }

/-- A pull with a whole frame buffered, under INV2: the head frame's record, and the head frame taken (R193, R194). -/
theorem pullCore_head {s : State} (hc : s.cfgFault = false) (hk : Registry.keyed s.cfg.statusFlags s.reg)
    (hp : phase s.buf = .frameReady) :
    pullCore s = (.item (headOutcome s.cfg.statusFlags s.reg s.buf).1, s.headTaken) := by
  have hlen : (s.buf.take (frameSize s.buf)).length = frameSize s.buf :=
    List.length_take_of_le ((phase_frameReady _).1 hp).2
  have hemit := emitFrame_of_keyed hk hc (s.buf.take (frameSize s.buf))
  rw [hlen] at hemit
  rw [pullCore_of_frameReady hp]
  exact hemit

/-- At most one event is logged for a frame (R248). -/
theorem headOutcome_events (fl : List (String × Fin 32)) (reg : Registry) (buf : List Byte) :
    (headOutcome fl reg buf).2.length ≤ 1 := by
  unfold headOutcome emitted
  split <;> simp

/-- The record has the msgid, dest and source of a frame's header. -/
def HasHeaderOf (f : List Byte) (rec : Record) : Prop :=
  rec.msgid = hdrMsgid f ∧ rec.dest = hdrDest f ∧ rec.source = hdrSource f

/-- A decoded record carries its frame's header fields (R46, R144). -/
theorem decodeRecord_header {fl : List (String × Fin 32)} {reg : Registry} {f : List Byte} {r : Record}
    (h : decodeRecord fl reg f = .ok r) : HasHeaderOf f r := by
  unfold decodeRecord at h
  split at h
  · cases h
  · split at h
    · cases h
    · split at h
      · cases h
      · split at h
        · cases h
        · split at h <;> cases h
          exact ⟨rfl, rfl, rfl⟩

/-- Known, unknown or malformed: the record of the head frame carries its header fields (R193). -/
theorem headOutcome_header {reg : Registry} (fl : List (String × Fin 32)) (hk : Registry.keyed fl reg) (buf : List Byte) :
    HasHeaderOf (buf.take (frameSize buf)) (headOutcome fl reg buf).1 := by
  have hfatal := decodeRecord_ne_fatal fl reg (buf.take (frameSize buf))
  have hmismatch := decodeRecord_ne_mismatch hk (buf.take (frameSize buf))
  unfold headOutcome
  cases h : decodeRecord fl reg (buf.take (frameSize buf)) with
  | ok r => exact decodeRecord_header h
  | error e =>
    cases e with
    | fatal => exact absurd h hfatal
    | mismatch m => exact absurd h (hmismatch m)
    | unknown m d so => exact decodeRecord_unknown h
    | format i => exact ⟨rfl, rfl, rfl⟩

/-- The head frame's outcome does not depend on the bytes behind it. -/
theorem headOutcome_append {buf : List Byte} (fl : List (String × Fin 32)) (reg : Registry) (bs : List Byte)
    (hp : phase buf = .frameReady) : headOutcome fl reg (buf ++ bs) = headOutcome fl reg buf := by
  have hsize := (phase_frameReady_append bs hp).2
  have hle := ((phase_frameReady buf).1 hp).2
  rw [headOutcome, headOutcome, hsize, List.take_append_of_le_length hle]

/-- PULL, past its checks (R191). -/
theorem exec_pull {s : State} (h : s.mayPull) : exec .pull s = finishPull (pullCore s) := by
  show execPull s = _
  rw [execPull, refusePull_eq_none.2 h]

/-- PULL without a source and without a whole frame (R192). -/
theorem exec_pull_idle {s : State} (h : s.mayPull) (ha : s.cfg.sourceAttached = false) (hp : phase s.buf ≠ .frameReady) :
    exec .pull s = .next (s.respond (.ok .notReady)) := by
  rw [exec_pull h, pullCore_of_noSource ha hp]
  rfl

/-- PULL with a whole frame buffered, under INV2 (R193, R194). -/
theorem exec_pull_head {s : State} (h : s.mayPull) (hk : Registry.keyed s.cfg.statusFlags s.reg)
    (hp : phase s.buf = .frameReady) :
    exec .pull s = .next (s.headTaken.respond (.ok (.item (headOutcome s.cfg.statusFlags s.reg s.buf).1))) := by
  rw [exec_pull h, pullCore_head h.1 hk hp]
  rfl

/-! ### A pull that reads the source -/

theorem readSource_scripted {s : State} {a : Answer} {rest : List Answer} (n : Nat) (hsrc : s.src = a :: rest) :
    readSource n s = (a, { s with src := rest, reads := s.reads ++ [n] }) := by
  simp only [readSource, hsrc]

/-- What a pull makes of the first answer that is not data of the alphabet (R195, R198, R199; log entry 6). -/
def endOfPull : Answer → PullResult
  | .data _ => .illegal
  | .noneYet => .notReady
  | .eof => .ended
  | .ioErr x => .raised (.sourceIo x)

/-- A pull of s has to read, and its first scripted answer a is not data of the alphabet (R195, R196). -/
structure SourceEnds (s : State) (a : Answer) (rest : List Answer) : Prop where
  attached : s.cfg.sourceAttached = true
  noFrame : phase s.buf ≠ .frameReady
  src : s.src = a :: rest
  noData : ∀ bs, a = .data bs → ¬ answerLegal (missing s.buf) (.data bs) = true

/-- Such an answer ends the pull, the buffer kept (R195, R198, R199). -/
theorem pullCore_sourceEnds {s : State} {a : Answer} {rest : List Answer} (he : SourceEnds s a rest) :
    pullCore s = (endOfPull a, { s with src := rest, reads := s.reads ++ [missing s.buf] }) := by
  rw [pullCore_attached he.attached he.noFrame, readSource_scripted _ he.src]
  cases a with
  | data bs => exact if_neg (he.noData bs rfl)
  | noneYet | eof | ioErr x => rfl

theorem exec_pull_sourceEnds {s : State} {a : Answer} {rest : List Answer} (h : s.mayPull) (he : SourceEnds s a rest) :
    exec .pull s = finishPull (endOfPull a, { s with src := rest, reads := s.reads ++ [missing s.buf] }) := by
  rw [exec_pull h, pullCore_sourceEnds he]

/-- A data answer of the alphabet is appended, and the pull goes on as a pull of the longer buffer (R195). -/
theorem pullCore_sourceData {s : State} {bs : List Byte} {rest : List Answer} (ha : s.cfg.sourceAttached = true)
    (hp : phase s.buf ≠ .frameReady) (hsrc : s.src = .data bs :: rest)
    (hlegal : answerLegal (missing s.buf) (.data bs) = true) :
    pullCore s = pullCore { s with buf := s.buf ++ bs, src := rest, reads := s.reads ++ [missing s.buf] } := by
  rw [pullCore_attached ha hp, readSource_scripted _ hsrc]
  exact if_pos hlegal

theorem answerLegal_data {n : Nat} {bs : List Byte} :
    answerLegal n (.data bs) = true ↔ 1 ≤ bs.length ∧ bs.length ≤ n := by
  simp [answerLegal]

/-- Induction along the reads of a pull: each data answer brings the buffer nearer to the longest frame (R83, R195). -/
theorem pull_read_induction {P : State → Prop} (ready : ∀ s : State, phase s.buf = .frameReady → P s)
    (read : ∀ s : State, phase s.buf ≠ .frameReady →
      (∀ bs t, readSource (missing s.buf) s = (.data bs, t) → answerLegal (missing s.buf) (.data bs) = true →
        P (t.append bs)) → P s)
    (s : State) : P s := by
  induction h : 65541 - s.buf.length using Nat.strong_induction_on generalizing s with
  | _ n ih =>
    by_cases hp : phase s.buf = .frameReady
    · exact ready s hp
    · refine read s hp fun bs t hr hlegal => ih _ ?_ (t.append bs) rfl
      have hbuf : t.buf = s.buf := by
        have := readSource_buf (missing s.buf) s
        rwa [hr] at this
      have hgrow := (answerLegal_data.1 hlegal).1
      have hle := frameSize_le s.buf
      rw [phase_frameReady] at hp
      rw [State.append_buf, hbuf, List.length_append]
      omega

/-! ### Answers outside the alphabet -/

/-- A pull of the buffer that follows the script meets an answer outside the alphabet for its read, before a whole frame is
buffered (R196). -/
inductive IllegalScript : List Byte → List Answer → Prop
  | here {buf bs : List Byte} {rest : List Answer} (hp : phase buf ≠ .frameReady)
      (hillegal : ¬ answerLegal (missing buf) (.data bs) = true) : IllegalScript buf (.data bs :: rest)
  | later {buf bs : List Byte} {rest : List Answer} (hp : phase buf ≠ .frameReady)
      (hlegal : answerLegal (missing buf) (.data bs) = true) (h : IllegalScript (buf ++ bs) rest) :
      IllegalScript buf (.data bs :: rest)

/-- Such a script breaks the source's duty (R276 (6)). -/
theorem IllegalScript.not_sourceKeeps {buf : List Byte} {src : List Answer} (h : IllegalScript buf src) :
    sourceKeeps buf src = false := by
  induction h with
  | here hp hillegal => simp [sourceKeeps, hp, hillegal]
  | later hp hlegal _ ih => simp [sourceKeeps, hp, ih]

/-- The script written out: legal data answers, then the illegal one. -/
theorem IllegalScript.split {buf : List Byte} {src : List Answer} (h : IllegalScript buf src) :
    ∃ (pre : List (List Byte)) (bs : List Byte) (rest : List Answer),
      src = pre.map Answer.data ++ .data bs :: rest ∧ sourceKeeps buf (pre.map Answer.data) = true ∧
      phase (buf ++ pre.flatten) ≠ .frameReady ∧ (bs = [] ∨ missing (buf ++ pre.flatten) < bs.length) := by
  induction h with
  | @here buf bs rest hp hillegal =>
    refine ⟨[], bs, rest, rfl, rfl, ?_, ?_⟩ <;> rw [List.flatten_nil, List.append_nil]
    · exact hp
    · rw [answerLegal_data, not_and_or, Nat.not_le, Nat.not_le, Nat.lt_one_iff, List.length_eq_zero_iff] at hillegal
      exact hillegal
  | @later buf bs rest hp hlegal _ ih =>
    obtain ⟨pre, bad, rest', rfl, hkeeps, hphase, hbad⟩ := ih
    rw [List.append_assoc] at hphase hbad
    exact ⟨bs :: pre, bad, rest', rfl, by simp [sourceKeeps, hlegal, hkeeps], hphase, hbad⟩

/-- Data comes from the script, or is free and then of the alphabet (R196). -/
theorem readSource_data {n : Nat} {s t : State} {bs : List Byte} (h : readSource n s = (.data bs, t)) :
    (∃ rest, s.src = .data bs :: rest ∧ t.src = rest) ∨
      (s.src = [] ∧ t.src = [] ∧ answerLegal n (.data bs) = true) := by
  cases hsrc : s.src with
  | nil =>
    have hlegal := readSource_answer n s
    have hst := readSource_state n s
    rw [h] at hlegal hst
    obtain hmem | hlegal := hlegal
    · rw [hsrc] at hmem
      cases hmem
    · dsimp only at hst
      exact .inr ⟨rfl, by rw [hst, hsrc]; rfl, hlegal⟩
  | cons a rest =>
    rw [readSource_scripted n hsrc] at h
    cases h
    exact .inl ⟨rest, rfl, rfl⟩

theorem emitFrame_ne_illegal (f : List Byte) (s : State) : (emitFrame f s).1 ≠ .illegal := by
  unfold emitFrame
  split <;> simp

/-- A pull stops the machine only on a scripted answer outside the alphabet (R196; log entry 6). -/
theorem pullCore_illegal {s : State} (h : (pullCore s).1 = .illegal) :
    s.cfg.sourceAttached = true ∧ IllegalScript s.buf s.src := by
  induction s using pull_read_induction with
  | ready s hp =>
    rw [pullCore_of_frameReady hp] at h
    exact absurd h (emitFrame_ne_illegal _ s)
  | read s hp ih =>
    by_cases ha : s.cfg.sourceAttached = true
    · refine ⟨ha, ?_⟩
      have hbuf := readSource_buf (missing s.buf) s
      rw [pullCore_attached ha hp] at h
      rcases hr : readSource (missing s.buf) s with ⟨a, t⟩
      rw [hr] at h hbuf
      cases a with
      | noneYet | eof | ioErr x => cases h
      | data bs =>
        have hdata := readSource_data hr
        by_cases hlegal : answerLegal (missing s.buf) (.data bs) = true
        · have hnext : (pullCore (t.append bs)).1 = .illegal := by simpa only [hlegal, if_true] using h
          have hlater := (ih bs t hr hlegal hnext).2
          rw [State.append_buf, State.append_src, show t.buf = s.buf from hbuf] at hlater
          obtain ⟨rest, hsrc, hrest⟩ | ⟨-, hnil, -⟩ := hdata
          · rw [hsrc]
            exact .later hp hlegal (hrest ▸ hlater)
          · rw [hnil] at hlater
            cases hlater
        · obtain ⟨rest, hsrc, -⟩ | ⟨-, -, hfree⟩ := hdata
          · rw [hsrc]
            exact .here hp hlegal
          · exact absurd hfree hlegal
    · rw [pullCore_of_noSource (Bool.eq_false_iff.2 ha) hp] at h
      cases h

/-! ### When an operation completes -/

/-- The outcome is a next state, or the stop of a pull that met an answer outside the alphabet. -/
def NextOrStop (r : PullResult) (o : Host.Outcome State Fault Refusal) : Prop :=
  (∃ t, o = .next t) ∨ (r = .illegal ∧ o = .fault .sourceOutsideAlphabet)

theorem NextOrStop.next {r : PullResult} {o : Host.Outcome State Fault Refusal} (h : NextOrStop r o) (hr : r ≠ .illegal) :
    ∃ t, o = .next t := h.resolve_right fun h => hr h.1

theorem nextOrStop_next (r : PullResult) (t : State) : NextOrStop r (.next t) := .inl ⟨t, rfl⟩

theorem nextOrStop_finishPull (p : PullResult × State) : NextOrStop p.1 (finishPull p) := by
  obtain ⟨q, t⟩ := p
  cases q with
  | illegal => exact .inr ⟨rfl, rfl⟩
  | item | notReady | ended | raised => exact .inl ⟨_, rfl⟩

theorem nextOrStop_finishPass (items : List Record) (p : PullResult × State) : NextOrStop p.1 (finishPass items p) := by
  obtain ⟨q, t⟩ := p
  cases q with
  | illegal => exact .inr ⟨rfl, rfl⟩
  | item | notReady | ended => exact .inl ⟨_, rfl⟩
  | raised e => cases e <;> exact .inl ⟨_, rfl⟩

/-- An emission reads nothing, so the run of a frame always completes. -/
theorem runFrame_next (f : List Byte) (s : State) : ∃ t, runFrame f s = .next t := by
  unfold runFrame
  split
  · exact (nextOrStop_finishPass _ _).next (emitFrame_ne_illegal f s)
  · exact (nextOrStop_finishPull _).next (emitFrame_ne_illegal f s)

theorem nextOrStop_execCoopPull (s : State) : NextOrStop (pullCore s).1 (execCoopPull s) := by
  unfold execCoopPull
  split
  · exact nextOrStop_next _ _
  · split
    · exact nextOrStop_next _ _
    · next r t _ hpull =>
      rw [hpull]
      exact nextOrStop_finishPull (r, t)

theorem nextOrStop_execCoopResume (s : State) : NextOrStop (pullCore s).1 (execCoopResume s) := by
  unfold execCoopResume
  split
  · exact nextOrStop_next _ _
  · split
    · exact nextOrStop_next _ _
    · obtain ⟨q, t⟩ := pullCore s
      cases q with
      | illegal => exact .inr ⟨rfl, rfl⟩
      | item | notReady | ended => exact .inl ⟨_, rfl⟩
      | raised e => cases e <;> exact .inl ⟨_, rfl⟩

theorem execRegister_next (e : Entry) (s : State) : ∃ t, execRegister e s = .next t := by
  unfold execRegister
  split
  · exact ⟨_, rfl⟩
  · split_ifs <;> exact ⟨_, rfl⟩

/-- Every instruction completes, but for a pull that meets an answer outside the alphabet (R92, R196). -/
theorem nextOrStop_exec (i : Instr) (s : State) : NextOrStop (pullCore s).1 (exec i s) := by
  by_cases hpure : isPureInstr i = true
  · obtain ⟨r, hr⟩ := pureOperationsIgnoreState i s.cfg.statusFlags hpure
    exact .inl ⟨_, hr s rfl⟩
  cases i with
  | frameShort | frameLong => exact .inl (runFrame_next _ s)
  | reset | coopCancel => exact nextOrStop_next _ _
  | register e => exact .inl (execRegister_next e s)
  | feed bs =>
    obtain ⟨u, r, hexec, -⟩ := execFeed_state bs s
    exact .inl ⟨_, hexec⟩
  | pull =>
    show NextOrStop _ (execPull s)
    unfold execPull
    split
    · exact nextOrStop_next _ _
    · exact nextOrStop_finishPull _
  | coopPull => exact nextOrStop_execCoopPull s
  | coopResume => exact nextOrStop_execCoopResume s
  | iterate =>
    show NextOrStop _ (execIterate s)
    unfold execIterate
    split
    · exact nextOrStop_next _ _
    · exact nextOrStop_finishPass [] _
  | dispatch f => exact .inl ⟨_, exec_dispatch_eq_respond f s⟩
  | _ => exact absurd rfl hpure

/-- What is fetched completes likewise, in the state it runs in. -/
theorem nextOrStop_runFetched (f : Fetched) : NextOrStop (pullCore f.state).1 (runFetched f) := by
  cases f with
  | idle | reject => exact nextOrStop_next _ _
  | run i t => exact nextOrStop_exec i t
  | pass items t => exact nextOrStop_finishPass items (pullCore t)

/-! ### COOP_PULL and COOP_RESUME beside PULL -/

/-- COOP_PULL, past its checks (R200). -/
theorem exec_coopPull {s : State} (h : s.mayPull) :
    exec .coopPull s = if (pullCore s).1 = .notReady then answer .suspended ((pullCore s).2.setCoop true)
      else finishPull (pullCore s) := by
  show execCoopPull s = _
  rw [execCoopPull, refusePull_eq_none.2 h]
  obtain ⟨q, t⟩ := pullCore s
  cases q <;> rfl

/-- Suspending where a pull answers NotReady turns that answer into Suspended, and leaves every other one. -/
theorem suspend_of_finishPull {p : PullResult × State} {t : State} (h : finishPull p = .next t) :
    (if p.1 = .notReady then answer .suspended (p.2.setCoop true) else finishPull p) = .next
      (if t.out = p.2.out ++ [.ok .notReady] then { t with coopPending := true, out := p.2.out ++ [.ok .suspended] }
        else t) := by
  obtain ⟨q, u⟩ := p
  cases q with
  | illegal => cases h
  | notReady => cases h; simp [answer, State.respond, State.setCoop]
  | item | ended | raised => cases h; simp [finishPull, answer, raise]

/-- COOP_PULL answers as PULL does, Suspended in the place of NotReady (R200). -/
theorem exec_coopPull_of_pull {s t : State} (h : s.mayPull) (hpull : exec .pull s = .next t) :
    exec .coopPull s = .next
      (if t.out = s.out ++ [.ok .notReady] then { t with coopPending := true, out := s.out ++ [.ok .suspended] } else t) := by
  rw [exec_pull h] at hpull
  rw [exec_coopPull h, ← (pullCore_rest s).2.2.1]
  exact suspend_of_finishPull hpull

theorem exec_coopPull_of_notReady {s t : State} (h : s.mayPull)
    (hpull : exec .pull s = .next (t.respond (.ok .notReady))) (hout : t.out = s.out) :
    exec .coopPull s = .next ((t.setCoop true).respond (.ok .suspended)) := by
  have hlast : (t.respond (.ok .notReady)).out = s.out ++ [.ok .notReady] := by rw [State.respond_out, hout]
  rw [exec_coopPull_of_pull h hpull, if_pos hlast, ← hout]
  rfl

theorem exec_coopPull_of_answer {s t : State} {r : Response} (h : s.mayPull)
    (hpull : exec .pull s = .next (t.respond r)) (hout : t.out = s.out) (hr : r ≠ .ok .notReady) :
    exec .coopPull s = .next (t.respond r) := by
  have hlast : ¬ (t.respond r).out = s.out ++ [.ok .notReady] := by simpa [hout] using hr
  rw [exec_coopPull_of_pull h hpull, if_neg hlast]

theorem State.setCoop_setCoop (s : State) (b b' : Bool) : (s.setCoop b).setCoop b' = s.setCoop b' := rfl

theorem State.setCoop_of_eq {s : State} {b : Bool} (h : s.coopPending = b) : s.setCoop b = s := by
  subst h
  rfl

/-- A pending COOP_RESUME past its checks is the COOP_PULL that was suspended, taken now, where no error but the source's
ends the pull (R201). -/
theorem exec_coopResume {s : State} (hcp : s.coopPending = true) (hcf : s.cfgFault = false) (hof : s.ovfFault = false)
    (hraised : ∀ e, (pullCore (s.setCoop false)).1 = .raised e → ∃ x, e = .sourceIo x) :
    exec .coopResume s = exec .coopPull (s.setCoop false) := by
  have hpull : pullCore s = ((pullCore (s.setCoop false)).1, (pullCore (s.setCoop false)).2.setCoop true) := by
    rw [← pullCore_setCoop, State.setCoop_setCoop, State.setCoop_of_eq hcp]
  have hfalse : (pullCore (s.setCoop false)).2.coopPending = false := (pullCore_rest _).2.1
  rw [exec_coopPull (s := s.setCoop false) ⟨hcf, hof, rfl⟩]
  show execCoopResume s = _
  rw [execCoopResume, if_neg (by simp [hcp]), fatalStream_eq_none.2 ⟨hcf, hof⟩, hpull]
  generalize pullCore (s.setCoop false) = p at hraised hfalse ⊢
  obtain ⟨q, u⟩ := p
  have hback : (u.setCoop true).setCoop false = u := State.setCoop_of_eq (s := u) hfalse
  cases q with
  | notReady | illegal => rfl
  | item | ended => simp [hback]
  | raised e =>
    obtain ⟨x, rfl⟩ := hraised e rfl
    simp [hback]

theorem endOfPull_raised {a : Answer} {e : Error} (h : endOfPull a = .raised e) : ∃ x, e = .sourceIo x := by
  cases a with
  | ioErr x => cases h; exact ⟨x, rfl⟩
  | _ => cases h

theorem SourceEnds.setCoop {s : State} {a : Answer} {rest : List Answer} (h : SourceEnds s a rest) (b : Bool) :
    SourceEnds (s.setCoop b) a rest := ⟨h.attached, h.noFrame, h.src, h.noData⟩

/-- A pending COOP_RESUME whose first answer ends the pull (R201). -/
theorem exec_coopResume_sourceEnds {s : State} {a : Answer} {rest : List Answer} (hcp : s.coopPending = true)
    (hcf : s.cfgFault = false) (hof : s.ovfFault = false) (he : SourceEnds s a rest) :
    exec .coopResume s = exec .coopPull (s.setCoop false) := by
  refine exec_coopResume hcp hcf hof fun e hr => ?_
  rw [pullCore_sourceEnds (he.setCoop false)] at hr
  exact endOfPull_raised hr

/-! ### A wire frame as an instruction -/

theorem exec_frameInstr {i : Instr} (hi : isFrameInstr i = true) (s : State) : exec i s = runFrame (wireBytes i) s := by
  cases i with
  | frameShort | frameLong => rfl
  | _ => cases hi

/-- A well-formed frame instruction's bytes, at the head of a buffer, are its head frame (R83, R88). -/
theorem headFrame_of_wireBytes {i : Instr} {buf rest : List Byte} (hi : isFrameInstr i = true) (hw : i.wellFormed = true)
    (hbuf : buf = wireBytes i ++ rest) :
    decodeFrame buf = .ok (i, rest) ∧ buf.take (frameSize buf) = wireBytes i ∧ buf.drop (frameSize buf) = rest := by
  subst hbuf
  obtain ⟨hdec, hlen⟩ := decodeFrame_encode rest hw (encode_frameInstr hi)
  have h6 : 6 ≤ (wireBytes i).length := hlen ▸ frameSize_ge _
  have hsize : frameSize (wireBytes i ++ rest) = (wireBytes i).length := (frameSize_append rest h6).trans hlen.symm
  rw [hsize]
  exact ⟨hdec, List.take_left, List.drop_left⟩

/-- The bytes decoded from the head of the buffer are emitted as the pull emits them (R193; log entry 8). -/
theorem emitFrame_of_decodeFrame {s : State} {i : Instr} {tail : List Byte} (h : decodeFrame s.buf = .ok (i, tail)) :
    emitFrame (wireBytes i) s = pullCore s := by
  obtain ⟨-, hp, hwire⟩ := decodeFrame_head h
  rw [pullCore_of_frameReady hp, hwire, emit]

/-! ### The passes of an ITERATE -/

/-- A turn of the ITERATE in progress is one pull, whether its frame is run as an instruction or not (R204). -/
theorem runFetched_fetchIter {s : State} {items : List Record} (hi : s.iter = some items) :
    runFetched (fetchIter s) = finishPass items (pullCore s) := by
  simp only [fetchIter, hi]
  cases hd : decodeFrame s.buf with
  | error e => rfl
  | ok p =>
    obtain ⟨i, tail⟩ := p
    obtain ⟨hf, -⟩ := decodeFrame_head hd
    show exec i s = _
    simp only [exec_frameInstr hf, runFrame, hi, emitFrame_of_decodeFrame hd]

/-- With nothing else issued the ITERATE in progress has the step (log entry 8). -/
theorem step_iter {s : State} {items : List Record} (hi : s.iter = some items) (hin : s.inbox = []) :
    step s = finishPass items (pullCore s) := by
  rw [step_eq, fetch, hin]
  exact runFetched_fetchIter hi

theorem exec_iterate {s : State} (h : s.mayPull) : exec .iterate s = finishPass [] (pullCore s) := by
  show execIterate s = _
  rw [execIterate, refusePull_eq_none.2 h]
  rfl

/-! ### The passes of an ITERATE beside PULL -/

/-- A pass makes of a PULL's answer what R204 says. -/
theorem finishPass_of_finishPull {p : PullResult × State} {t : State} {r : Response} (items : List Record)
    (h : finishPull p = .next t) (hout : t.out = p.2.out ++ [r]) :
    finishPass items p = .next (iterateAfter items p.2.out t r) := by
  obtain ⟨q, u⟩ := p
  have hlast : ∀ r', t.out = u.out ++ [r'] → r = r' := fun r' h' => by simpa using hout.symm.trans h'
  cases q with
  | illegal => cases h
  | item | notReady | ended => cases h; cases hlast _ rfl; rfl
  | raised e => cases h; cases hlast _ rfl; cases e <;> rfl

/-- The first pass of an ITERATE beside the PULL at that point (R204). -/
theorem exec_iterate_of_pull {s t : State} {r : Response} (h : s.mayPull) (hpull : exec .pull s = .next t)
    (hout : t.out = s.out ++ [r]) : exec .iterate s = .next (iterateAfter [] s.out t r) := by
  rw [exec_pull h] at hpull
  rw [← (pullCore_rest s).2.2.1] at hout ⊢
  rw [exec_iterate h]
  exact finishPass_of_finishPull [] hpull hout

/-- A later pass of an ITERATE beside the PULL at that point (R204, R277). -/
theorem turn_of_pull {s t : State} {r : Response} {items : List Record} (h : s.mayPull) (hi : s.iter = some items)
    (hpull : exec .pull s = .next t) (hout : t.out = s.out ++ [r]) :
    runFetched (fetchIter s) = .next (iterateAfter items s.out t r) := by
  rw [exec_pull h] at hpull
  rw [← (pullCore_rest s).2.2.1] at hout ⊢
  rw [runFetched_fetchIter hi]
  exact finishPass_of_finishPull items hpull hout

/-- A turn given to the ITERATE is its pass (log entry 8). -/
theorem step_turn (s : State) (rest : List Event) :
    step { s with inbox := .turn :: rest } = runFetched (fetchIter { s with inbox := rest }) := step_eq _

theorem fetchIter_of_decodeFrame {s : State} {items : List Record} {i : Instr} {tail : List Byte}
    (hi : s.iter = some items) (hd : decodeFrame s.buf = .ok (i, tail)) : fetchIter s = .run i s := by
  simp only [fetchIter, hi, hd]

/-! ### An ITERATE over whole frames -/

theorem run_succ {s t : State} (k : Nat) (h : step s = .next t) :
    Sys2Proof.core.run (k + 1) s = Sys2Proof.core.run k t := by
  have hstep : Sys2Proof.core.step s = .next t := h
  simp only [Host.Core.run, hstep]

/-- What passes over buffered frames need: no configuration fault, no source, INV2. -/
structure EmitsBuffered (s : State) : Prop where
  noFault : s.cfgFault = false
  noSource : s.cfg.sourceAttached = false
  keyed : Registry.keyed s.cfg.statusFlags s.reg

/-- From a step that is a pass of an ITERATE with the records `items`, the passes that follow it pull the buffered frames one
by one, and the one after the last frame ends the ITERATE with all of them: induction on the frames (R204 corner case (1)). -/
theorem iterate_drains {is : List Instr} {rest : List Byte} {s : State} {items : List Record}
    (hframes : ∀ i ∈ is, isFrameInstr i = true ∧ i.wellFormed = true) (hbuf : s.buf = is.flatMap wireBytes ++ rest)
    (hrest : phase rest ≠ .frameReady) (hs : EmitsBuffered s)
    (hstep : step s = finishPass items (pullCore { s with inbox := [] })) :
    ∃ recs t, Sys2Proof.core.run (is.length + 1) s = .next t ∧
      List.Forall₂ (fun i rec => HasHeaderOf (wireBytes i) rec) is recs ∧
      t.buf = rest ∧ t.iter = none ∧ t.inbox = [] ∧ t.out = s.out ++ [.ok (.iterated (items ++ recs) .notReady)] := by
  induction is generalizing s items with
  | nil =>
    have hpull : pullCore { s with inbox := [] } = (.notReady, { s with inbox := [] }) :=
      pullCore_of_noSource hs.noSource (by rw [hbuf]; exact hrest)
    rw [hpull] at hstep
    refine ⟨[], ({ s with inbox := [], iter := none } : State).respond (.ok (.iterated items .notReady)), ?_, .nil, hbuf, rfl,
      rfl, by rw [List.append_nil]; rfl⟩
    exact run_succ 0 hstep
  | cons i is ih =>
    obtain ⟨⟨hi, hw⟩, hframes⟩ := List.forall_mem_cons.1 hframes
    rw [List.flatMap_cons, List.append_assoc] at hbuf
    obtain ⟨hdec, hhead, htail⟩ := headFrame_of_wireBytes hi hw hbuf
    have hp := (decodeFrame_ok_iff _).1 ⟨_, _, hdec⟩
    have hrec := headOutcome_header s.cfg.statusFlags hs.keyed s.buf
    rw [hhead] at hrec
    have hpull := pullCore_head (s := { s with inbox := [] }) hs.noFault hs.keyed hp
    rw [hpull] at hstep
    obtain ⟨recs, t, hrun, hrecs, htbuf, hiter, hin, hout⟩ :=
      ih (s := ({ s with inbox := [] } : State).headTaken.setIter (some (items ++ [_]))) hframes htail
        ⟨hs.noFault, hs.noSource, hs.keyed⟩ (step_iter rfl rfl)
    refine ⟨_ :: recs, t, ?_, .cons hrec hrecs, htbuf, hiter, hin, ?_⟩
    · exact (run_succ _ hstep).trans hrun
    · rw [hout, List.append_assoc]
      rfl

/-! ### FEED -/

theorem fatalStream_of_cfgFault {s : State} (h : s.cfgFault = true) : fatalStream s = some (.configuration .fatal) := by
  rw [fatalStream, if_pos h]

theorem fatalStream_of_ovfFault {s : State} (hc : s.cfgFault = false) (h : s.ovfFault = true) :
    fatalStream s = some (.bufferOverflow .fatal) := by
  rw [fatalStream, if_neg (by simp [hc]), if_pos h]

theorem exec_feed_refused {s : State} {e : Error} (bs : List Byte) (h : fatalStream s = some e) :
    exec (.feed bs) s = .next (s.respond (.err e)) := by
  show execFeed bs s = _
  rw [execFeed, h]
  rfl

/-- FEED past the sticky refusals: the capacity alone decides (R190). -/
theorem exec_feed_overflows {s : State} {bs : List Byte} {cap : Nat} (h : fatalStream s = none)
    (hcap : s.cfg.bufCap = some cap) (hover : cap < s.buf.length + bs.length) :
    exec (.feed bs) s = .next (s.setOvfFault.respond (.err (.bufferOverflow (.feed s.buf.length bs.length cap)))) := by
  show execFeed bs s = _
  simp only [execFeed, h, hcap, if_pos hover]
  rfl

theorem exec_feed_appends {s : State} {bs : List Byte} (h : fatalStream s = none)
    (hfits : ∀ cap, s.cfg.bufCap = some cap → s.buf.length + bs.length ≤ cap) :
    exec (.feed bs) s = .next ((s.append bs).respond (.ok .unit)) := by
  show execFeed bs s = _
  cases hcap : s.cfg.bufCap with
  | none => simp only [execFeed, h, hcap]; rfl
  | some cap => simp only [execFeed, h, hcap, if_neg (Nat.not_lt.2 (hfits cap hcap))]; rfl

/-! ### Schedules of FEEDs and PULLs -/

/-- The frames at the head of a buffer are taken one after the other: some number of pulls without a source turn the buffer
into the last one given, yielding these records and events (R193, R194, R205). -/
inductive Emits (fl : List (String × Fin 32)) (reg : Registry) : List Byte → List Record → List Diag → List Byte → Prop
  | nil (buf : List Byte) : Emits fl reg buf [] [] buf
  | cons {buf rest : List Byte} {recs : List Record} {ds : List Diag} (hp : phase buf = .frameReady)
      (h : Emits fl reg (buf.drop (frameSize buf)) recs ds rest) :
      Emits fl reg buf ((headOutcome fl reg buf).1 :: recs) ((headOutcome fl reg buf).2 ++ ds) rest

section Emits

variable {fl : List (String × Fin 32)} {reg : Registry} {buf mid rest : List Byte} {recs recs' : List Record}
  {ds ds' : List Diag}

/-- Bytes fed behind whole frames change nothing of what is taken before them. -/
theorem Emits.append (h : Emits fl reg buf recs ds rest) (bs : List Byte) :
    Emits fl reg (buf ++ bs) recs ds (rest ++ bs) := by
  induction h with
  | nil buf => exact .nil _
  | @cons buf rest recs ds hp _ ih =>
    obtain ⟨hp', hsize⟩ := phase_frameReady_append bs hp
    have hle := ((phase_frameReady buf).1 hp).2
    rw [← headOutcome_append fl reg bs hp]
    refine .cons hp' ?_
    rwa [hsize, List.drop_append_of_le_length hle]

theorem Emits.trans (h : Emits fl reg buf recs ds mid) (h' : Emits fl reg mid recs' ds' rest) :
    Emits fl reg buf (recs ++ recs') (ds ++ ds') rest := by
  induction h with
  | nil buf => exact h'
  | cons hp _ ih =>
    rw [List.cons_append, List.append_assoc]
    exact .cons hp (ih h')

theorem Emits.length_le (h : Emits fl reg buf recs ds rest) : rest.length ≤ buf.length := by
  induction h with
  | nil buf => exact Nat.le_refl _
  | cons _ _ ih => exact ih.trans (List.drop_sublist ..).length_le

/-- Where no whole frame is left, what was taken and what remains is determined by the buffer. -/
theorem Emits.unique {rest' : List Byte} (h : Emits fl reg buf recs ds rest) (hp : phase rest ≠ .frameReady)
    (h' : Emits fl reg buf recs' ds' rest') (hp' : phase rest' ≠ .frameReady) :
    recs = recs' ∧ ds = ds' ∧ rest = rest' := by
  induction h generalizing recs' ds' with
  | nil buf =>
    cases h' with
    | nil => exact ⟨rfl, rfl, rfl⟩
    | cons hready _ => exact absurd hready hp
  | cons hready _ ih =>
    cases h' with
    | nil => exact absurd hready hp'
    | cons _ h' =>
      obtain ⟨rfl, rfl, rfl⟩ := ih hp h'
      exact ⟨rfl, rfl, rfl⟩

end Emits

/-- The conditions of R205 on the state, which every FEED and PULL of a schedule keeps: pulls are allowed, there is no source
and no capacity, and INV2 holds. -/
structure Streams (s : State) : Prop where
  mayPull : s.mayPull
  noSource : s.cfg.sourceAttached = false
  unbounded : s.cfg.bufCap = none
  keyed : Registry.keyed s.cfg.statusFlags s.reg

/-- From s to t the bytes `fed` were appended and some head frames taken, their records answered and their events logged. -/
structure Streamed (fed : List Byte) (s t : State) : Prop where
  streams : Streams t
  cfg : t.cfg = s.cfg
  reg : t.reg = s.reg
  yields : ∃ recs ds rs, Emits s.cfg.statusFlags s.reg (s.buf ++ fed) recs ds t.buf ∧ t.diag = s.diag ++ ds ∧
    t.out = s.out ++ rs ∧ itemsOf rs = recs

theorem itemsOf_append (rs rs' : List Response) : itemsOf (rs ++ rs') = itemsOf rs ++ itemsOf rs' := List.filterMap_append ..

theorem Streamed.refl {s : State} (h : Streams s) : Streamed [] s s :=
  ⟨h, rfl, rfl, [], [], [], by rw [List.append_nil]; exact .nil _, (List.append_nil _).symm, (List.append_nil _).symm, rfl⟩

/-- Steps that stream compose: what the first took it takes before the bytes fed later as well. -/
theorem Streamed.trans {fed fed' : List Byte} {s u t : State} (h : Streamed fed s u) (h' : Streamed fed' u t) :
    Streamed (fed ++ fed') s t := by
  obtain ⟨-, hcfg, hreg, recs, ds, rs, hemits, hdiag, hout, hitems⟩ := h
  obtain ⟨hst, hcfg', hreg', recs', ds', rs', hemits', hdiag', hout', hitems'⟩ := h'
  rw [hcfg, hreg] at hemits'
  refine ⟨hst, hcfg'.trans hcfg, hreg'.trans hreg, recs ++ recs', ds ++ ds', rs ++ rs', ?_, ?_, ?_, ?_⟩
  · rw [← List.append_assoc]
    exact (hemits.append fed').trans hemits'
  · rw [hdiag', hdiag, List.append_assoc]
  · rw [hout', hout, List.append_assoc]
  · rw [itemsOf_append, hitems, hitems']

/-- FEED without a capacity (R190). -/
theorem exec_feed_streams {s : State} (h : Streams s) (bs : List Byte) :
    exec (.feed bs) s = .next ((s.append bs).respond (.ok .unit)) := by
  obtain ⟨hcf, hof, -⟩ := h.mayPull
  exact exec_feed_appends (fatalStream_eq_none.2 ⟨hcf, hof⟩) (by simp [h.unbounded])

theorem streamed_feed {s : State} (h : Streams s) (bs : List Byte) :
    Streamed bs s ((s.append bs).respond (.ok .unit)) :=
  ⟨⟨h.mayPull, h.noSource, h.unbounded, h.keyed⟩, rfl, rfl, [], [], [.ok .unit], .nil _,
    (List.append_nil _).symm, rfl, rfl⟩

/-- A PULL without a source answers NotReady and keeps the state, or takes the head frame (R191, R192). -/
theorem exec_pull_streams {s : State} (h : Streams s) :
    (phase s.buf ≠ .frameReady ∧ exec .pull s = .next (s.respond (.ok .notReady))) ∨
      (phase s.buf = .frameReady ∧
        exec .pull s = .next (s.headTaken.respond (.ok (.item (headOutcome s.cfg.statusFlags s.reg s.buf).1)))) := by
  by_cases hp : phase s.buf = .frameReady
  · exact .inr ⟨hp, exec_pull_head h.mayPull h.keyed hp⟩
  · exact .inl ⟨hp, exec_pull_idle h.mayPull h.noSource hp⟩

theorem streamed_notReady {s : State} (h : Streams s) : Streamed [] s (s.respond (.ok .notReady)) :=
  ⟨⟨h.mayPull, h.noSource, h.unbounded, h.keyed⟩, rfl, rfl, [], [], [.ok .notReady],
    by rw [List.append_nil]; exact .nil _, (List.append_nil _).symm, rfl, rfl⟩

theorem streamed_head {s : State} (h : Streams s) (hp : phase s.buf = .frameReady) :
    Streamed [] s (s.headTaken.respond (.ok (.item (headOutcome s.cfg.statusFlags s.reg s.buf).1))) := by
  refine ⟨⟨h.mayPull, h.noSource, h.unbounded, h.keyed⟩, rfl, rfl, _, _,
    [.ok (.item (headOutcome s.cfg.statusFlags s.reg s.buf).1)], ?_, rfl, rfl, rfl⟩
  rw [List.append_nil, ← List.append_nil (headOutcome s.cfg.statusFlags s.reg s.buf).2]
  exact .cons hp (.nil _)

/-- A FEED or a PULL completes and streams. -/
theorem exec_streamed {i : Instr} {s : State} (hi : i = .pull ∨ ∃ bs, i = .feed bs) (h : Streams s) :
    ∃ t, exec i s = .next t ∧ Streamed (fedBytes i) s t := by
  obtain rfl | ⟨bs, rfl⟩ := hi
  · obtain ⟨-, hexec⟩ | ⟨hp, hexec⟩ := exec_pull_streams h
    · exact ⟨_, hexec, streamed_notReady h⟩
    · exact ⟨_, hexec, streamed_head h hp⟩
  · exact ⟨_, exec_feed_streams h bs, streamed_feed h bs⟩

/-- A schedule of FEEDs and PULLs completes and streams what it feeds. -/
theorem runInstrs_streamed {l : List Instr} {s : State} (hl : ∀ i ∈ l, i = .pull ∨ ∃ bs, i = .feed bs) (h : Streams s) :
    ∃ t, runInstrs l s = .next t ∧ Streamed (l.flatMap fedBytes) s t := by
  induction l generalizing s with
  | nil => exact ⟨s, rfl, .refl h⟩
  | cons i l ih =>
    obtain ⟨hi, hl⟩ := List.forall_mem_cons.1 hl
    obtain ⟨u, hexec, hu⟩ := exec_streamed hi h
    obtain ⟨t, hrun, ht⟩ := ih hl hu.streams
    exact ⟨t, by simp only [runInstrs, hexec, hrun], hu.trans ht⟩

theorem runInstrs_append {l l' : List Instr} {s u : State} (h : runInstrs l s = .next u) :
    runInstrs (l ++ l') s = runInstrs l' u := by
  induction l generalizing s with
  | nil => cases h; rfl
  | cons i l ih =>
    rw [List.cons_append, runInstrs]
    rw [runInstrs] at h
    cases hexec : exec i s with
    | next v => rw [hexec] at h; exact ih h
    | fault r | refused r => rw [hexec] at h; cases h

/-- Pulls that find no whole frame change nothing but the responses. -/
theorem pulls_idle {s t : State} {n : Nat} (h : Streams s) (hp : phase s.buf ≠ .frameReady)
    (hrun : runInstrs (List.replicate n .pull) s = .next t) : t.buf = s.buf := by
  induction n generalizing s with
  | zero => cases hrun; rfl
  | succ n ih =>
    obtain ⟨-, hexec⟩ | ⟨hready, -⟩ := exec_pull_streams h
    · rw [List.replicate_succ, runInstrs, hexec] at hrun
      exact ih (s := s.respond (.ok .notReady)) (streamed_notReady h).streams hp hrun
    · exact absurd hready hp

/-- As many pulls as there are bytes leave no whole frame: each takes a frame, and no frame is empty (R83). -/
theorem pulls_drain {s t : State} {n : Nat} (h : Streams s) (hn : s.buf.length ≤ n)
    (hrun : runInstrs (List.replicate n .pull) s = .next t) : phase t.buf ≠ .frameReady := by
  induction n generalizing s with
  | zero =>
    cases hrun
    rw [Ne, phase_frameReady]
    omega
  | succ n ih =>
    obtain ⟨hp, -⟩ | ⟨hp, hexec⟩ := exec_pull_streams h
    · rw [pulls_idle h hp hrun]
      exact hp
    · rw [List.replicate_succ, runInstrs, hexec] at hrun
      refine ih (streamed_head h hp).streams ?_ hrun
      have hsize := frameSize_ge s.buf
      show (s.buf.drop (frameSize s.buf)).length ≤ n
      rw [List.length_drop]
      omega

/-- A schedule followed by enough pulls streams what it feeds, and leaves no whole frame. -/
theorem schedule_drains {l : List Instr} {s : State} {n : Nat} (hl : ∀ i ∈ l, i = .pull ∨ ∃ bs, i = .feed bs)
    (h : Streams s) (hn : (s.buf ++ l.flatMap fedBytes).length ≤ n) :
    ∃ t, runInstrs (l ++ List.replicate n .pull) s = .next t ∧ Streamed (l.flatMap fedBytes) s t ∧
      phase t.buf ≠ .frameReady := by
  obtain ⟨u, hrunl, hu⟩ := runInstrs_streamed hl h
  obtain ⟨t, hrunp, ht⟩ := runInstrs_streamed (l := List.replicate n .pull)
    (fun i hi => .inl (List.eq_of_mem_replicate hi)) hu.streams
  have hbound : u.buf.length ≤ n := by
    obtain ⟨_, _, _, hemits, -⟩ := hu.yields
    exact hemits.length_le.trans hn
  refine ⟨t, (runInstrs_append hrunl).trans hrunp, ?_, pulls_drain hu.streams hbound hrunp⟩
  have hnone : (List.replicate n Instr.pull).flatMap fedBytes = [] := by
    simp only [List.flatMap_eq_nil_iff, List.mem_replicate]
    rintro i ⟨-, rfl⟩
    rfl
  have htrans := hu.trans ht
  rwa [hnone, List.append_nil] at htrans

/-! ### DISPATCH of the head frame beside the pull -/

/-- The response of a DISPATCH tells how the frame decoded. -/
theorem decodeRecord_of_dispatch {s : State} {f : List Byte} {r : Response} (hc : s.cfgFault = false)
    (hk : Registry.keyed s.cfg.statusFlags s.reg)
    (h : exec (.dispatch f) s = .next (({ s with sealed := true } : State).respond r)) :
    dispatchResponse (decodeRecord s.cfg.statusFlags s.reg f) = r :=
  respond_injective ((exec_dispatch_of_open hc hk rfl).symm.trans h)

theorem dispatchResponse_record {x : Except DispatchError Record} {rec : Record}
    (h : dispatchResponse x = .ok (.record rec)) : x = .ok rec := by
  cases x with
  | ok r => cases h; rfl
  | error e => cases h

theorem dispatchResponse_unknown {x : Except DispatchError Record} {m : MsgId} {d : Dest} {so : Byte}
    (h : dispatchResponse x = .err (.unknownMessage m d so)) : x = .error (.unknown m d so) := by
  cases x with
  | ok r => cases h
  | error e => cases e <;> cases h; rfl

theorem dispatchResponse_format {x : Except DispatchError Record} {i : FormatInfo}
    (h : dispatchResponse x = .err (.format i)) : x = .error (.format i) := by
  cases x with
  | ok r => cases h
  | error e => cases e <;> cases h; rfl

/-! ### The statements settled -/

/-- Settles O44: the command's step is the first pass, each later step one more, one record a frame. -/
theorem iterateDrainsWholeFrames : Obligations.IterateDrainsWholeFrames := by
  intro is rest s hframes hbuf hrest hm ha hk hiter hin
  have hstep : step s = finishPass [] (pullCore { s with inbox := [] }) :=
    (step_command_ok hin rfl (.inl hiter)).trans (exec_iterate (s := { s with inbox := [] }) hm)
  exact iterate_drains hframes hbuf hrest ⟨hm.1, ha, hk⟩ hstep

/-- Settles O45: both runs stream the same bytes and end with no whole frame, and such an end is determined by the bytes. -/
theorem fragmentationIndependence : Obligations.FragmentationIndependence := by
  intro l s n m hl hm ha hcap hk hn hm'
  have hs : Streams s := ⟨hm, ha, hcap, hk⟩
  obtain ⟨t, hrunt, ht, hpt⟩ := schedule_drains hl hs hn
  have hfed : [Instr.feed (l.flatMap fedBytes)].flatMap fedBytes = l.flatMap fedBytes := by simp [fedBytes]
  obtain ⟨u, hrunu, hu, hpu⟩ := schedule_drains (l := [.feed (l.flatMap fedBytes)]) (n := m)
    (fun i hi => .inr ⟨_, List.mem_singleton.1 hi⟩) hs (by rwa [hfed])
  rw [hfed] at hu
  obtain ⟨recs, ds, rs, hemits, hdiag, hout, hitems⟩ := ht.yields
  obtain ⟨recs', ds', rs', hemits', hdiag', hout', hitems'⟩ := hu.yields
  obtain ⟨hrecs, rfl, hbuf⟩ := hemits.unique hpt hemits' hpu
  refine ⟨t, u, hrunt, hrunu, ?_, hbuf, hdiag.trans hdiag'.symm, hpt⟩
  rw [hout, hout', List.drop_left, List.drop_left, hitems, hitems', hrecs]

/-- Settles O35: each outcome of DISPATCH is one way the head frame can decode, and EMIT has a record for each. -/
theorem emissionFollowsDispatch : Obligations.EmissionFollowsDispatch := by
  intro s r hm hp hk n f t hdisp
  have hdec := decodeRecord_of_dispatch hm.1 hk hdisp
  have hpull := exec_pull_head hm hk hp
  have hlen : f.length = n := List.length_take_of_le ((phase_frameReady _).1 hp).2
  refine ⟨?_, ?_, ?_⟩
  · rintro rec rfl
    have hout : headOutcome s.cfg.statusFlags s.reg s.buf = (rec, []) :=
      congrArg (emitted s.reg f) (dispatchResponse_record hdec)
    rw [hpull, State.headTaken, hout, List.append_nil]
  · rintro m d so rfl
    have hout : headOutcome s.cfg.statusFlags s.reg s.buf = (placeholder m d so, [.unknown m d so f.length]) :=
      congrArg (emitted s.reg f) (dispatchResponse_unknown hdec)
    rw [hpull, State.headTaken, hout, hlen]
    rfl
  · rintro i rfl
    have hformat := dispatchResponse_format hdec
    have hout : headOutcome s.cfg.statusFlags s.reg s.buf
        = (malformedRecord s.reg f i, [.malformed (hdrMsgid f) (hdrDest f) (hdrSource f) f.length i]) :=
      congrArg (emitted s.reg f) hformat
    have h6 : 6 ≤ f.length := hlen ▸ frameSize_ge s.buf
    cases hfind : Registry.find (hdrMsgid f) s.reg with
    | none => cases (decodeRecord_unregistered h6 hfind).symm.trans hformat
    | some e =>
      refine ⟨e, rfl, ?_⟩
      rw [hpull, State.headTaken, hout, hlen, malformedRecord, hfind]

/-- Settles O37: the first answer ends the pull, each kind in its own way. -/
theorem pullEndsAtFirstNonData : Obligations.PullEndsAtFirstNonData := by
  intro s rest hm ha hp t
  have hends := fun {a} (h : s.src = a :: rest) hdata => exec_pull_sourceEnds hm ⟨ha, hp, h, hdata⟩
  refine ⟨fun h => hends h (by simp), fun h => hends h (by simp), fun x h => hends h (by simp), fun bs h hbad => hends h ?_⟩
  intro _ heq
  cases heq
  rw [answerLegal_data]
  omega

/-- Settles O38: both sides are the pull of the longer buffer. -/
theorem pullReadsOnAfterData : Obligations.PullReadsOnAfterData := by
  intro s bs rest hm ha hp hsrc hpos hle
  rw [exec_pull hm, pullCore_sourceData ha hp hsrc (answerLegal_data.2 ⟨hpos, hle⟩)]
  exact (exec_pull (s := { s with buf := s.buf ++ bs, src := rest, reads := s.reads ++ [missing s.buf] }) hm).symm

/-- Settles O39: a source that keeps its duty scripts no answer that stops a pull. -/
theorem pullsCompleteWithLegalSource : Obligations.PullsCompleteWithLegalSource := by
  intro s hkeeps _ _
  have hlegal : (pullCore s).1 ≠ .illegal := by
    intro h
    have hbroken := (pullCore_illegal h).2.not_sourceKeeps
    rw [hkeeps] at hbroken
    cases hbroken
  have hnext := fun i => (nextOrStop_exec i s).next hlegal
  exact ⟨fun _ => ⟨hnext .pull, hnext .coopPull, hnext .iterate⟩, fun _ => hnext .coopResume⟩

/-- Settles O40: COOP_PULL beside the PULL at the same point, idle, with a frame, and for every outcome. -/
theorem coopPullSuspendsOrPulls : Obligations.CoopPullSuspendsOrPulls := by
  intro s hm
  refine ⟨fun ha hp => ?_, fun hp hk => ?_, fun t hpull => exec_coopPull_of_pull hm hpull⟩
  · exact exec_coopPull_of_notReady hm (exec_pull_idle hm ha hp) rfl
  · have hpull := exec_pull_head hm hk hp
    have hcoop := exec_coopPull_of_answer hm hpull rfl (by simp)
    exact ⟨_, _, headOutcome_events .., hcoop, hpull.trans hcoop.symm⟩

/-- Settles O43: the pass beside the PULL at the same point. -/
theorem iterateFirstPass : Obligations.IterateFirstPass := by
  intro s hm
  refine ⟨fun ha hp => exec_iterate_of_pull hm (exec_pull_idle hm ha hp) rfl, fun hp hk => ?_, fun rest ha hp => ?_,
    fun t r => exec_iterate_of_pull hm⟩
  · have hpull := exec_pull_head hm hk hp
    exact ⟨_, _, headOutcome_events .., hpull, exec_iterate_of_pull hm hpull rfl⟩
  · have hpull := fun {a} (h : s.src = a :: rest) hdata => exec_pull_sourceEnds hm ⟨ha, hp, h, hdata⟩
    refine ⟨fun h => ?_, fun h => ?_, fun x h => ?_⟩ <;> exact exec_iterate_of_pull hm (hpull h (by simp)) rfl

/-- Settles O46: the frame run is the emission a pull at that point makes. -/
theorem frameRunEmitsOneRecord : Obligations.FrameRunEmitsOneRecord := by
  intro i rest s hi hw hbuf hc hk
  obtain ⟨hdec, hhead, htail⟩ := headFrame_of_wireBytes hi hw hbuf
  have hp := (decodeFrame_ok_iff _).1 ⟨_, _, hdec⟩
  obtain ⟨hmsgid, hdest, hsource⟩ := hhead ▸ headOutcome_header s.cfg.statusFlags hk s.buf
  have hemit := (emitFrame_of_decodeFrame hdec).trans (pullCore_head hc hk hp)
  rw [State.headTaken, htail] at hemit
  refine ⟨(headOutcome s.cfg.statusFlags s.reg s.buf).1, (headOutcome s.cfg.statusFlags s.reg s.buf).2,
    headOutcome_events .., hmsgid, hdest, hsource, fun r hdisp => ?_, fun hiter => ?_, fun items hiter => ?_⟩
  · have hrec := dispatchResponse_record (decodeRecord_of_dispatch hc hk hdisp)
    rw [headOutcome, hhead, hrec]
    exact ⟨rfl, rfl⟩
  · simp only [exec_frameInstr hi, runFrame, hiter, hemit]
    rfl
  · simp only [exec_frameInstr hi, runFrame, hiter, hemit]
    rfl

/-- Settles O47: the frame decoded from the head of the buffer is the one a pull emits. -/
theorem pullRunsHeadFrame : Obligations.PullRunsHeadFrame := by
  intro s i tail hm hiter hdec
  obtain ⟨hi, -⟩ := decodeFrame_head hdec
  simp only [exec_pull hm, exec_frameInstr hi, runFrame, hiter, emitFrame_of_decodeFrame hdec]

/-- Settles O58: whatever is fetched completes, but for a pull, and a pull stops on an illegal script alone. -/
theorem stepStopsOnlyOnIllegalAnswer : Obligations.StepStopsOnlyOnIllegalAnswer := by
  intro s
  obtain ⟨rest, hstate⟩ := fetch_state s
  have hstep := nextOrStop_runFetched (fetch s)
  rw [← step_eq, hstate] at hstep
  obtain ⟨t, hnext⟩ | ⟨hillegal, hfault⟩ := hstep
  · rw [hnext]
    exact ⟨fun r h => (by cases h), fun r h => (by cases h)⟩
  · rw [hfault]
    refine ⟨fun r h => (by cases h), fun r h => ?_⟩
    cases h
    obtain ⟨ha, hscript⟩ := pullCore_illegal hillegal
    exact ⟨rfl, ha, hscript.split⟩

/-- Settles O60: the ITERATE's turn beside the PULL at the same point. -/
theorem iterateLaterPass : Obligations.IterateLaterPass := by
  intro s items hm hi
  have hturn : ∀ {t r}, exec .pull s = .next t → t.out = s.out ++ [r] →
      step { s with inbox := .turn :: s.inbox } = .next (iterateAfter items s.out t r) :=
    fun hpull hout => (step_turn s s.inbox).trans (turn_of_pull hm hi hpull hout)
  refine ⟨fun t r hpull hout => ⟨hturn hpull hout, fun hin => ?_⟩, fun hp hk => ?_, fun rest ha hp => ?_⟩
  · rw [step_eq, fetch, hin]
    exact turn_of_pull hm hi hpull hout
  · have hpull := exec_pull_head hm hk hp
    exact ⟨_, _, headOutcome_events .., hpull, hturn hpull rfl⟩
  · have hpull := fun {a} (h : s.src = a :: rest) hdata => exec_pull_sourceEnds hm ⟨ha, hp, h, hdata⟩
    refine ⟨fun h => ?_, fun h => ?_, fun x h => ?_⟩ <;> exact hturn (hpull h (by simp)) rfl

/-- Settles O2: each of the three turns fetches the frame decoded from the head of the buffer. -/
theorem stepRunsHeadFrameOfIterate : Obligations.StepRunsHeadFrameOfIterate := by
  intro s items i tail hi hd
  have hrun := fetchIter_of_decodeFrame hi hd
  refine ⟨fun hin => ?_, fun rest hin => ?_, fun c rest hin hcode => ?_⟩
  · simp only [step_eq, fetch, hin, hrun]
    rfl
  · simp only [step_eq, fetch, hin, fetchIter_of_decodeFrame (s := { s with inbox := rest }) hi hd]
    rfl
  · have hwaits : (s.iter.isSome && isConsumerCode c.code) = true := by simp [hi, hcode]
    simp only [step_eq, fetch, hin, if_pos hwaits, hrun]
    rfl

/-- Settles O33: FEED's arms. -/
theorem feedOutcome : Obligations.FeedOutcome := by
  intro bs s
  have hopen : s.cfgFault = false → s.ovfFault = false → fatalStream s = none :=
    fun hcf hof => fatalStream_eq_none.2 ⟨hcf, hof⟩
  exact ⟨rfl, fun hcf => exec_feed_refused bs (fatalStream_of_cfgFault hcf),
    fun hcf hof => exec_feed_refused bs (fatalStream_of_ovfFault hcf hof),
    fun cap hcf hof => exec_feed_overflows (hopen hcf hof), fun hcf hof => exec_feed_appends (hopen hcf hof)⟩

/-- Settles O34: idle, or the head frame's record. -/
theorem pullWithoutSource : Obligations.PullWithoutSource := by
  intro s hm ha hk
  exact ⟨exec_pull_idle hm ha, fun hp => ⟨_, _, headOutcome_events .., exec_pull_head hm hk hp⟩⟩

/-- Settles O41: a pending COOP_RESUME is the COOP_PULL taken at that point, and that the PULL. -/
theorem coopResumeOutcome : Obligations.CoopResumeOutcome := by
  intro s
  have hm : s.cfgFault = false → s.ovfFault = false → (s.setCoop false).mayPull := fun hcf hof => ⟨hcf, hof, rfl⟩
  refine ⟨fun hcp => ?_, fun hcp hcf hof ha hp => ?_, fun hcp hcf hof hp hk => ?_, fun rest hcp hcf hof ha hp => ?_,
    fun t hcp hcf hof hk hpull => ?_⟩
  · show execCoopResume s = _
    rw [execCoopResume, if_pos hcp]
    rfl
  · have hpull := exec_pull_idle (s := s.setCoop false) (hm hcf hof) ha hp
    have hidle := pullCore_of_noSource (s := s.setCoop false) ha hp
    rw [exec_coopResume hcp hcf hof (by simp [hidle]), exec_coopPull_of_notReady (hm hcf hof) hpull rfl,
      State.setCoop_setCoop, State.setCoop_of_eq hcp]
  · have hpull := exec_pull_head (s := s.setCoop false) (hm hcf hof) hk hp
    have hcoop := exec_coopPull_of_answer (hm hcf hof) hpull rfl (by simp)
    have hresume := exec_coopResume hcp hcf hof fun e => pullCore_raised (s := s.setCoop false) hk hcf
    exact ⟨_, _, headOutcome_events .., hresume.trans hcoop, hresume.trans (hcoop.trans hpull.symm)⟩
  · intro t
    have hends : ∀ {a}, s.src = a :: rest → (∀ bs, a ≠ .data bs) → SourceEnds s a rest :=
      fun h hdata => ⟨ha, hp, h, fun bs heq => absurd heq (hdata bs)⟩
    have hpull := fun {a} (he : SourceEnds s a rest) => exec_pull_sourceEnds (hm hcf hof) (he.setCoop false)
    have hpending : t.coopPending = true := hcp
    refine ⟨fun h => ?_, fun h => ?_, fun x h => ?_⟩ <;>
      rw [exec_coopResume_sourceEnds hcp hcf hof (hends h (by simp))]
    · have hcoop := exec_coopPull_of_notReady (t := t.setCoop false) (hm hcf hof) (hpull (hends h (by simp))) rfl
      rwa [State.setCoop_setCoop, State.setCoop_of_eq hpending] at hcoop
    · exact exec_coopPull_of_answer (t := t.setCoop false) (r := .ok .ended) (hm hcf hof) (hpull (hends h (by simp))) rfl
        (by simp)
    · exact exec_coopPull_of_answer (t := t.setCoop false) (r := .err (.sourceIo x)) (hm hcf hof)
        (hpull (hends h (by simp))) rfl (by simp)
  · rw [exec_coopResume hcp hcf hof fun e => pullCore_raised (s := s.setCoop false) hk hcf]
    exact exec_coopPull_of_pull (hm hcf hof) hpull

/-- Settles O42: COOP_CANCEL has no check and one write. -/
theorem coopCancelKeepsEveryByte : Obligations.CoopCancelKeepsEveryByte := fun _ => ⟨rfl, rfl⟩

end Sys2Proof.Machine

/-! Proofs of the family 60_exceptions: the order of refusals, the diagnostic log, and what ends a pending cooperative pull
(spec/60_exceptions.md R240, R248 to R251; spec/44_unpacker.md R193, R194, R200, R201; spec/70_reset_and_hazards.md R279). -/

namespace Sys2Proof.Machine

/-! ### Refusals -/

theorem refusePull_of_fatalStream {s : State} {e : Error} (h : fatalStream s = some e) : refusePull s = some e := by
  rw [refusePull, h]

/-- A pending pull refuses the others with BUSY, past the sticky faults (R240 (4)). -/
theorem refusePull_of_pending {s : State} (hcf : s.cfgFault = false) (hof : s.ovfFault = false)
    (hcp : s.coopPending = true) : refusePull s = some (.illegalCommand .busy) := by
  rw [refusePull, fatalStream_eq_none.2 ⟨hcf, hof⟩]
  exact if_pos hcp

theorem exec_pull_refused {s : State} {e : Error} (h : refusePull s = some e) :
    exec .pull s = .next (s.respond (.err e)) := by
  show execPull s = _
  rw [execPull, h]
  rfl

theorem exec_coopPull_refused {s : State} {e : Error} (h : refusePull s = some e) :
    exec .coopPull s = .next (s.respond (.err e)) := by
  show execCoopPull s = _
  rw [execCoopPull, h]
  rfl

theorem exec_iterate_refused {s : State} {e : Error} (h : refusePull s = some e) :
    exec .iterate s = .next (s.respond (.err e)) := by
  show execIterate s = _
  rw [execIterate, h]
  rfl

theorem exec_coopResume_refused {s : State} {e : Error} (hcp : s.coopPending = true) (h : fatalStream s = some e) :
    exec .coopResume s = .next (s.respond (.err e)) := by
  show execCoopResume s = _
  rw [execCoopResume, if_neg (by simp [hcp]), h]
  rfl

theorem exec_dispatch_fatal {s : State} (f : List Byte) (hcf : s.cfgFault = true) :
    exec (.dispatch f) s = .next (s.respond (.err (.configuration .fatal))) := by
  rw [exec_dispatch_eq_respond, dispatchFrame, if_pos hcf]
  rfl

/-- Settles O49: each operation's refusal is the first that holds, cfg_fault's, then ovf_fault's, then BUSY. -/
theorem stickyRefusalOrder : Obligations.StickyRefusalOrder := by
  intro s e f bs fatal overflow busy
  have stream : ∀ {er}, fatalStream s = some er → exec (.feed bs) s = .next (s.respond (.err er)) ∧
      exec .pull s = .next (s.respond (.err er)) ∧ exec .coopPull s = .next (s.respond (.err er)) ∧
      exec .iterate s = .next (s.respond (.err er)) ∧
      (s.coopPending = true → exec .coopResume s = .next (s.respond (.err er))) := fun h =>
    have hpull := refusePull_of_fatalStream h
    ⟨exec_feed_refused bs h, exec_pull_refused hpull, exec_coopPull_refused hpull, exec_iterate_refused hpull,
      fun hcp => exec_coopResume_refused hcp h⟩
  refine ⟨(coopResumeOutcome s).1, fun hcf => ?_, fun hcf hof => stream (fatalStream_of_ovfFault hcf hof),
    fun hcf hof hcp => ?_⟩
  · exact ⟨exec_register_fatal e hcf, exec_dispatch_fatal f hcf, stream (fatalStream_of_cfgFault hcf)⟩
  · have hbusy := refusePull_of_pending hcf hof hcp
    exact ⟨exec_pull_refused hbusy, exec_coopPull_refused hbusy, exec_iterate_refused hbusy⟩

/-! ### The diagnostic log -/

/-- The head frame of `buf`, what a step of s has buffered, has left it in t; its record is given, and its one event logged
(R193, R248). -/
structure LogsHeadFrame (buf : List Byte) (s t : State) (rec : Record) (d : Diag) : Prop where
  ready : phase buf = .frameReady
  taken : t.buf = buf.drop (frameSize buf)
  diag : t.diag = s.diag ++ [d]
  given : Given s t rec
  logged : Logged (buf.take (frameSize buf)) rec d

theorem Keeps.diag {s t : State} (h : Keeps s t) : t.diag = s.diag := by
  obtain ⟨-, -, -, -, -, hdiag, -⟩ := h
  exact hdiag

theorem Filled.diag {n : Nat} {s u : State} (h : Filled n s u) : u.diag = s.diag := by
  obtain ⟨ns, rfl, -⟩ := h
  rfl

/-- An emission logs nothing, or one event, that of the frame it takes and gives the record of (R248). -/
theorem emit_diag {u : State} (hp : phase u.buf = .frameReady) :
    (emit u).2.diag = u.diag ∨ ∃ rec d, (emit u).1 = .item rec ∧ Logged (u.buf.take (frameSize u.buf)) rec d ∧
      (emit u).2.diag = u.diag ++ [d] ∧ (emit u).2.buf = u.buf.drop (frameSize u.buf) := by
  obtain h | ⟨b, ds, hlen, hlogged, h⟩ := emit_state u hp
  · exact .inl (by rw [h])
  · match ds, hlen with
    | [], _ => exact .inl (by rw [h, List.append_nil])
    | [d], _ =>
      obtain ⟨rec, hitem, hrec⟩ := hlogged d (List.mem_singleton_self d)
      exact .inr ⟨rec, d, hitem, hrec, by rw [h], by rw [h]⟩

/-- Of the effects of a step only an emission writes the log. -/
theorem Effect.diag {feed : Option (List Byte)} {s t : State} (h : Effect feed s t) :
    t.diag = s.diag ∨ ∃ sizes rec d, ReadsMade sizes s t ∧ LogsHeadFrame (s.buf ++ bytesRead s sizes) s t rec d := by
  cases h with
  | keeps h | fed _ _ _ h | registered _ _ _ _ h | configFault h | overflow _ h | dispatched _ h => exact .inl h.diag
  | read u hf _ h => exact .inl (h.diag.trans hf.diag)
  | emitted u hf hidle hp hg h =>
    obtain hsame | ⟨rec, d, hitem, hlogged, hdiag, htaken⟩ := emit_diag hp
    · exact .inl (h.diag.trans (hsame.trans hf.diag))
    · obtain ⟨sizes, hmade, hbuf⟩ := hf.readsMade hidle
      obtain ⟨-, hreads, hsrc⟩ := emit_headFrameTaken hp
      refine .inr ⟨sizes, rec, d, h.readsMade (hmade.congr hreads hsrc), ?_⟩
      rw [← hbuf]
      exact ⟨hp, h.buf.trans htaken, h.diag.trans (hdiag.trans (by rw [hf.diag])), hg rec hitem, hlogged⟩

/-- A logged frame's record has its header and no fields. -/
theorem Logged.record {f : List Byte} {rec : Record} {d : Diag} (h : Logged f rec d) :
    HasHeaderOf f rec ∧ rec.fields = [] := by
  obtain ⟨rfl, -⟩ | ⟨i, reg, rfl, -⟩ := h <;> exact ⟨⟨rfl, rfl, rfl⟩, rfl⟩

/-- The event is of the record's kind, with the frame's header and size, and the record's error. -/
theorem Logged.event {f : List Byte} {rec : Record} {d : Diag} (h : Logged f rec d) :
    (rec.kind = .unknown ∧ rec.name = "unknown" ∧ rec.error = none ∧
        d = .unknown (hdrMsgid f) (hdrDest f) (hdrSource f) f.length) ∨
      ∃ i, rec.kind = .malformed ∧ rec.error = some i ∧
        d = .malformed (hdrMsgid f) (hdrDest f) (hdrSource f) f.length i := by
  obtain ⟨rfl, rfl⟩ | ⟨i, reg, rfl, rfl⟩ := h
  · exact .inl ⟨rfl, rfl, rfl, rfl⟩
  · exact .inr ⟨i, rfl, rfl, rfl⟩

/-- Settles O59: of the effects of a step only an emission logs, and its event is that of the record it gives. -/
theorem diagnosticsOnlyFromEmission : Obligations.DiagnosticsOnlyFromEmission := by
  intro s t h hr
  obtain ⟨inbox, heff⟩ := step_effect s t h hr
  obtain hsame | ⟨sizes, rec, d, hmade, hlogs⟩ := heff.core.diag
  · exact .inl hsame
  · rw [bytesRead_inbox] at hlogs
    obtain ⟨hp, htaken, hdiag, hgiven, hlogged⟩ := hlogs
    obtain ⟨⟨hmsgid, hdest, hsource⟩, hfields⟩ := hlogged.record
    have hevent := hlogged.event
    rw [List.length_take_of_le ((phase_frameReady _).1 hp).2] at hevent
    exact .inr ⟨sizes, rec, d, hmade.reads, hmade.none_of_idle, hp, htaken, hdiag, hgiven, hmsgid, hdest, hsource,
      hfields, hevent⟩

/-! ### What a step does to the buffer while a pull is pending: the head frame stays where the buffer only grows -/

/-- Bytes behind a whole head frame leave it the head frame. -/
theorem headFrame_of_grown {buf buf' : List Byte} (hp : phase buf = .frameReady) (h : buf <+: buf') :
    phase buf' = .frameReady ∧ buf'.take (frameSize buf) = buf.take (frameSize buf) := by
  obtain ⟨bs, rfl⟩ := h
  exact ⟨(phase_frameReady_append bs hp).1, List.take_append_of_le_length ((phase_frameReady buf).1 hp).2⟩

theorem execRegister_buf {e : Entry} {s t : State} (h : execRegister e s = .next t) : t.buf = s.buf := by
  unfold execRegister at h
  split at h
  · cases h; rfl
  · split_ifs at h <;> cases h <;> rfl

theorem dispatchFrame_buf (f : List Byte) (s : State) : (dispatchFrame f s).2.buf = s.buf := by
  obtain h | h | h := dispatchFrame_state f s <;> rw [h] <;> rfl

theorem execFeed_grows {bs : List Byte} {s t : State} (h : execFeed bs s = .next t) : s.buf <+: t.buf := by
  obtain ⟨u, r, hexec, hstate⟩ := execFeed_state bs s
  obtain rfl := Host.Outcome.next.inj (hexec.symm.trans h)
  obtain rfl | rfl | rfl := hstate
  · exact ⟨[], List.append_nil _⟩
  · exact ⟨[], List.append_nil _⟩
  · exact ⟨bs, rfl⟩

/-- The pulls of others are refused while a pull is pending (R240 (4), R250). -/
theorem exists_refusePull_of_pending {s : State} (hcp : s.coopPending = true) : ∃ e, refusePull s = some e := by
  rw [← Option.ne_none_iff_exists', Ne, refusePull_eq_none]
  rintro ⟨-, -, hno⟩
  rw [hcp] at hno
  cases hno

/-- While a pull is pending, no operation but RESET and COOP_RESUME takes a byte from the buffer. -/
theorem exec_grows_of_pending {i : Instr} {s t : State} (hcp : s.coopPending = true) (h : exec i s = .next t)
    (hframe : isFrameInstr i = false) (hreset : i ≠ .reset) (hresume : i ≠ .coopResume) : s.buf <+: t.buf := by
  obtain ⟨e, hrefuse⟩ := exists_refusePull_of_pending hcp
  have unmoved : ∀ {u : State} {r : Response}, exec i s = .next (u.respond r) → u.buf = s.buf → s.buf <+: t.buf := by
    intro u r hexec hbuf
    obtain rfl := Host.Outcome.next.inj (hexec.symm.trans h)
    rw [State.respond_buf, hbuf]
  by_cases hpure : isPureInstr i = true
  · obtain ⟨r, hr⟩ := pureOperationsIgnoreState i s.cfg.statusFlags hpure
    exact unmoved (hr s rfl) rfl
  cases i with
  | frameShort | frameLong => cases hframe
  | reset => exact absurd rfl hreset
  | coopResume => exact absurd rfl hresume
  | register e => rw [execRegister_buf h]
  | feed bs => exact execFeed_grows h
  | pull => exact unmoved (exec_pull_refused hrefuse) rfl
  | coopPull => exact unmoved (exec_coopPull_refused hrefuse) rfl
  | iterate => exact unmoved (exec_iterate_refused hrefuse) rfl
  | coopCancel => exact unmoved (u := s.setCoop false) rfl rfl
  | dispatch f => exact unmoved (exec_dispatch_eq_respond f s) (dispatchFrame_buf f s)
  | _ => exact absurd rfl hpure

theorem fetch_command_ok {s : State} {c : Command} {rest : List Event} {i : Instr} (hin : s.inbox = .command c :: rest)
    (hdec : decodeCommand c = .ok i) (hfree : s.iter = none ∨ isConsumerCode c.code = false) :
    fetch s = .run i { s with inbox := rest } := by
  simp only [fetch, hin, if_neg (not_waits hfree), hdec]

theorem fetch_command_error {s : State} {c : Command} {rest : List Event} {e : DecodeError}
    (hin : s.inbox = .command c :: rest) (hdec : decodeCommand c = .error e)
    (hfree : s.iter = none ∨ isConsumerCode c.code = false) :
    fetch s = .reject (rejectError e s) { s with inbox := rest } := by
  simp only [fetch, hin, if_neg (not_waits hfree), hdec]

/-- With no ITERATE in progress the step waits, refuses a command, or runs an operation, with at most an event taken off the
port (R251). -/
theorem fetch_of_noIterate {s : State} (hi : s.iter = none) :
    ∃ rest, fetch s = .idle { s with inbox := rest } ∨ (∃ e, fetch s = .reject e { s with inbox := rest }) ∨
      ∃ i, isFrameInstr i = false ∧ fetch s = .run i { s with inbox := rest } := by
  have hturn : ∀ rest, fetchIter { s with inbox := rest } = .idle { s with inbox := rest } :=
    fun rest => by simp only [fetchIter, hi]
  cases hin : s.inbox with
  | nil =>
    have hfetch : fetch s = fetchIter s := by simp only [fetch, hin]
    exact ⟨s.inbox, .inl (hfetch.trans (hturn s.inbox))⟩
  | cons ev rest =>
    refine ⟨rest, ?_⟩
    cases ev with
    | turn =>
      have hfetch : fetch s = fetchIter { s with inbox := rest } := by simp only [fetch, hin]
      exact .inl (hfetch.trans (hturn rest))
    | command c =>
      cases hd : decodeCommand c with
      | error e => exact .inr (.inl ⟨_, fetch_command_error hin hd (.inl hi)⟩)
      | ok i => exact .inr (.inr ⟨i, decodeCommand_notFrame hd, fetch_command_ok hin hd (.inl hi)⟩)

/-- A pull is pending, and its frame is buffered: COOP_RESUME would return it (R201). -/
structure Resumable (s : State) : Prop where
  inv : s.Inv
  pending : s.coopPending = true
  noCfgFault : s.cfgFault = false
  noOvfFault : s.ovfFault = false
  ready : phase s.buf = .frameReady

/-- A pull is pending only with no ITERATE in progress (R250). -/
theorem Resumable.noIterate {s : State} (h : Resumable s) : s.iter = none := by
  obtain ⟨-, -, -, -, -, hbeside⟩ := h.inv
  by_contra hne
  have hno := hbeside (Option.isSome_iff_ne_none.2 hne)
  rw [h.pending] at hno
  cases hno

/-- A step that takes COOP_RESUME answers the head frame's record and ends the pull (R193, R201). -/
theorem Resumable.step_resume {s u : State} (h : Resumable s) (hf : fetch s = .run .coopResume u) :
    ∃ t rec, step s = .next t ∧ t.coopPending = false ∧ t.buf = s.buf.drop (frameSize s.buf) ∧
      t.out = s.out ++ [.ok (.item rec)] := by
  obtain ⟨rest, rfl⟩ := fetch_run_operation hf rfl
  obtain ⟨-, -, -, hkeyed, -⟩ := h.inv
  obtain ⟨-, -, hhead, -⟩ := coopResumeOutcome { s with inbox := rest }
  obtain ⟨rec, ds, -, hexec, -⟩ := hhead h.pending h.noCfgFault h.noOvfFault h.ready hkeyed
  rw [step_eq, hf]
  exact ⟨_, rec, hexec, rfl, rfl, rfl⟩

/-- A step that leaves the pull pending takes no byte from the buffer. -/
theorem Resumable.step_grows {s t : State} (h : Resumable s) (hstep : step s = .next t) (hcp : t.coopPending = true) :
    s.buf <+: t.buf := by
  obtain ⟨rest, hf | ⟨e, hf⟩ | ⟨i, hframe, hf⟩⟩ := fetch_of_noIterate h.noIterate
  · rw [step_eq, hf] at hstep
    cases hstep
    exact ⟨[], List.append_nil _⟩
  · rw [step_eq, hf] at hstep
    cases hstep
    exact ⟨[], List.append_nil _⟩
  · have hresume : i ≠ .coopResume := by
      rintro rfl
      obtain ⟨t', rec, hstep', hended, -⟩ := h.step_resume hf
      obtain rfl := Host.Outcome.next.inj (hstep'.symm.trans hstep)
      rw [hended] at hcp
      cases hcp
    rw [step_eq, hf] at hstep
    have hreset : i ≠ .reset := by
      rintro rfl
      rw [exec_reset_next hstep] at hcp
      cases hcp
    exact exec_grows_of_pending (s := { s with inbox := rest }) h.pending hstep hframe hreset hresume

/-! ### Runs among the agents -/

/-- What arrives between steps is not part of what a pending pull needs. -/
theorem Resumable.arrive {s : State} (h : Resumable s) (issued : List Event) (answers : List Answer) :
    Resumable (s.arrive issued answers) := ⟨h.inv, h.pending, h.noCfgFault, h.noOvfFault, h.ready⟩

/-- While the pull stays pending and no fault is set, its frame stays buffered along a run. -/
theorem IsRun.resumable {r : Nat → State} {issued : Nat → List Event} {answers : Nat → List Answer}
    (hrun : IsRun r issued answers) {n : Nat} (hn : Resumable (r n))
    (hopen : ∀ m, n ≤ m → (r m).coopPending = true ∧ (r m).cfgFault = false ∧ (r m).ovfFault = false) {m : Nat}
    (hm : n ≤ m) : Resumable (r m) := by
  induction m, hm using Nat.le_induction with
  | base => exact hn
  | succ m hm ih =>
    obtain ⟨hcp, hcf, hof⟩ := hopen (m + 1) (Nat.le_succ_of_le hm)
    have harrived := ih.arrive (issued m) (answers m)
    have hready := headFrame_of_grown harrived.ready (harrived.step_grows (hrun m) hcp)
    exact ⟨stepKeepsInvariant _ _ harrived.inv (hrun m), hcp, hcf, hof, hready.1⟩

/-- A fair run ends a pending pull whose frame is buffered, unless a sticky fault is set (R251). -/
theorem CoopFair.pull_ends {r : Nat → State} {issued : Nat → List Event} {answers : Nat → List Answer}
    (hrun : IsRun r issued answers) (hfair : CoopFair r issued answers) {n : Nat} (hi : (r n).Inv)
    (hcp : (r n).coopPending = true) (hp : phase (r n).buf = .frameReady) :
    ∃ m, n ≤ m ∧ ((r m).coopPending = false ∨ (r m).cfgFault = true ∨ (r m).ovfFault = true) := by
  by_contra hnever
  have hopen : ∀ m, n ≤ m → (r m).coopPending = true ∧ (r m).cfgFault = false ∧ (r m).ovfFault = false := by
    intro m hm
    simpa using fun h => hnever ⟨m, hm, h⟩
  obtain ⟨-, hcf, hof⟩ := hopen n le_rfl
  obtain ⟨m, hm, hended | ⟨u, hfetch⟩⟩ := hfair n hcp
  · exact hnever ⟨m, hm, .inl hended⟩
  · have harrived := (hrun.resumable ⟨hi, hcp, hcf, hof, hp⟩ hopen hm).arrive (issued m) (answers m)
    obtain ⟨t, rec, hstep, hended, -⟩ := harrived.step_resume hfetch
    obtain rfl := Host.Outcome.next.inj ((hrun m).symm.trans hstep)
    exact hnever ⟨m + 1, Nat.le_succ_of_le hm, .inl hended⟩

/-- The state after n answers of Suspended. -/
def State.suspendedTimes (s : State) (n : Nat) : State := { s with out := s.out ++ List.replicate n (.ok .suspended) }

theorem State.suspendedTimes_succ (s : State) (n : Nat) :
    s.suspendedTimes (n + 1) = (s.suspendedTimes n).respond (.ok .suspended) := by
  simp only [State.suspendedTimes, State.respond, List.replicate_succ', List.append_assoc]

/-- COOP_RESUME issued on an empty port, with no ITERATE in progress and nothing new from the source, is what is fetched. -/
theorem fetch_arrive_coopResume {s : State} (hi : s.iter = none) (hin : s.inbox = []) :
    fetch (s.arrive (commandEvents .coopResume) []) = .run .coopResume s := by
  have hport : (s.arrive (commandEvents .coopResume) []).inbox = [.command ⟨0b00101#5, .none⟩] := by
    rw [State.arrive_inbox, hin]
    rfl
  have htaken : ({ s.arrive (commandEvents .coopResume) [] with inbox := [] } : State) = s := by
    simp only [State.arrive, List.append_nil, ← hin]
  rw [fetch_command_ok hport rfl (.inl hi), htaken]

/-- Settles O48: a pending pull's frame stays at the head of the buffer until COOP_RESUME returns it; with no frame to come,
COOP_RESUME at every step is a fair run that never returns. -/
theorem fairCooperativePullReturns : Obligations.FairCooperativePullReturns := by
  refine ⟨fun s hi hcp hcf hof hp => ?_, fun r issued answers hrun hfair n => CoopFair.pull_ends hrun hfair,
    fun s hcp hcf hof ha hp hiter hin => ?_⟩
  · have hres : Resumable s := ⟨hi, hcp, hcf, hof, hp⟩
    exact ⟨fun u => hres.step_resume, fun t hstep ht => headFrame_of_grown hp (hres.step_grows hstep ht)⟩
  · have hfetch : ∀ n, fetch ((s.suspendedTimes n).arrive (commandEvents .coopResume) []) =
        .run .coopResume (s.suspendedTimes n) := fun n => fetch_arrive_coopResume hiter hin
    refine ⟨s.suspendedTimes, fun _ => commandEvents .coopResume, fun _ => [], ?_, fun n => ?_,
      fun n _ => ⟨n, le_rfl, .inr ⟨_, hfetch n⟩⟩, hfetch, fun n => ⟨hcp, rfl, rfl⟩⟩
    · simp [State.suspendedTimes]
    · obtain ⟨-, hidle, -⟩ := coopResumeOutcome (s.suspendedTimes n)
      rw [step_eq, hfetch n, State.suspendedTimes_succ]
      exact hidle hcp hcf hof ha hp

end Sys2Proof.Machine

/-! Proofs of the family 70_reset_and_hazards: RESET as an operation (spec/70_reset_and_hazards.md R270). -/

namespace Sys2Proof.Machine

/-- RESET has no check, so it is never refused: a sticky fault or a pending pull does not keep it from clearing S (R270). -/
theorem exec_reset (s : State) : exec .reset s = .next (s.clear.respond (.ok .unit)) := rfl

/-- Settles O51: the cleared state with its response is the stated one, field by field; an ITERATE in progress stays as it
was (log entry 10). -/
theorem resetClearsEveryElement : Obligations.ResetClearsEveryElement := by
  intro s
  have hopcode : encode .reset = .command ⟨0b00000#5, .none⟩ := rfl
  exact ⟨hopcode, s.iter, exec_reset s⟩

end Sys2Proof.Machine
